-- ==== Sys2Proof/Word.lean ====
section
/-! DEFINITION. The plain word types of the hardware: 32-bit words (00_scope.md R6, R9), bytes, 5-bit register numbers
(30_encoding.md R114), and the two register numbers the source names (10_state.md R22, R23). -/

namespace Sys2Proof

/-- A register value, an address or an instruction word: 32 bits (R9, R21, R100). -/
abbrev Word := BitVec 32

/-- A byte of memory (R60). -/
abbrev Byte := BitVec 8

/-- A register number: a 5-bit field of the instruction word, 0 to 31 (R20, R114). -/
abbrev RegNum := BitVec 5

/-- `PC_REG`: register 2 is the program counter (R6, R22). -/
abbrev pcReg : RegNum := 2#5

/-- `ISR_REG`: register 31 is named isr (R6, R23). -/
abbrev isrReg : RegNum := 31#5

end Sys2Proof
end

