-- ==== Sys2Proof/Config.lean ====
section
/-! DEFINITION. What a launch fixes and no instruction changes (00_scope.md R7, 70_reset_and_hazards.md R392), and the
free values of the machine: constants with no body that nothing can evaluate (60_exceptions.md R353). -/

namespace Sys2Proof

/-- The free bits `draw` takes its values from, one for each draw of a run: no rule fixes them and nothing in Lean can
evaluate them (60_exceptions.md R353). Log 9. -/
opaque Config.freeBit : Nat → Bool

/-- `ENDIAN`: the byte order of data access and of fetch (20_memory.md R65). -/
inductive Endian where
  | big
  | little
deriving DecidableEq, Repr

/-- A run of byte addresses, `base` to `base + size - 1`. -/
structure Region where
  base : Nat
  size : Nat
deriving DecidableEq, Repr

/-- `REG_CONST`: whether a general register is hardwired (10_state.md R24, the spec's decision D2). -/
inductive RegConst where
  /-- none is: R0 and R1 are ordinary registers -/
  | none
  /-- R0 may be 0 and R1 all ones whatever is written to them: a write that would change either is refused, and their values are
  launch premises (log 38) -/
  | zeroOnes
deriving DecidableEq, Repr

/-- `PC_READ(fa0, fa1)` as data: the value an instruction reads from register 2 is one of the two fetch addresses plus an offset
(R32, D4). -/
structure PcRead where
  /-- count from `fa1`, the next fetch address; otherwise from `fa0`, the instruction's own -/
  fromNext : Bool
  offset : Word
deriving DecidableEq, Repr

/-- What a model does with a form that the step rule covers and no source shows (D27, D28). -/
inductive Policy where
  /-- follow the step rule of 10_state.md R31 -/
  | follow
  /-- refuse the instruction -/
  | refuse
deriving DecidableEq, Repr

/-- `END_OF_RUN`: when a run is over (60_exceptions.md R369, D35). The hardware itself never stops. -/
inductive EndOfRun where
  /-- after this many steps -/
  | steps (n : Nat)
  /-- at the first fetch from this address -/
  | fetch (a : Word)
deriving DecidableEq, Repr

/-- The parameters a launch fixes and no step writes: those of R7 that 92_eei_decisions.md marks OPEN (R392). The other parameters
of R7 are fixed at the spec's decision (log 37). -/
structure Config where
  /-- `ENDIAN` (20_memory.md R65, D18) -/
  endian : Endian
  /-- `MEM_MAP`: the admitted byte addresses, as a list of regions (20_memory.md R72, D23) -/
  memMap : List Region
  /-- `REG_CONST` (R24, D2) -/
  regConst : RegConst
  /-- `PC_READ` (R32, D4) -/
  pcRead : PcRead
  /-- `SHADOW_JUMP_POLICY`: an instruction that writes register 2 in the shadow of a taken jump (R38, D27) -/
  shadowJump : Policy
  /-- `SLI_PC_POLICY`: SLI with Rd = 2 (47_sls_sli.md R320, D28) -/
  sliPc : Policy
  /-- `END_OF_RUN`; `none`: the launch names no end (R369, D35) -/
  endOfRun : Option EndOfRun
deriving DecidableEq, Repr

/-- The parameters of the reset state: the value R7 decides for `ENDIAN` (D18, UNVERIFIED, unsafe, log 6), `REG_CONST` (D2, log 13),
`PC_READ` (D4, UNVERIFIED, unsafe, log 8); for the two policies, of which R7 names both values, the step rule (logs 10, 11).
`MEM_MAP` has no value: every 32-bit address is admitted (DESIGN CHOICE, unsafe, log 5). `END_OF_RUN` has none: no end is named
(DESIGN CHOICE, log 31). -/
def Config.atReset : Config where
  endian := .big
  memMap := [⟨0, 4294967296⟩]
  regConst := .none
  pcRead := ⟨true, 0#32⟩
  shadowJump := .follow
  sliPc := .follow
  endOfRun := none

/-- `RESET_PC` is an open parameter (10_state.md R40, D34); the model takes 0 (DESIGN CHOICE, unsafe, log 3). -/
def Config.resetPc : Word := 0#32

end Sys2Proof
end

