-- ==== Sys2Proof/Syntax.lean ====
section
/-! DEFINITION. The instructions of the hardware as syntax: one constructor of `Instr` for each row of
`spec/opcode_table.json` (30_encoding.md R125). A constructor holds the fields of its row that have a use for some value of
the others (R117, R120; `Instr.clean` in Sys2Proof/Decode.lean); a field keeps the width it has in the word. -/

namespace Sys2Proof

/-- The sixteen conditions `DDDI`, in the order of the table of 45_br.md R292 (`t` is 0000, `le` is 1111). -/
inductive Cond where
  | t | f | hi | ls | cc | cs | ne | eq | vc | vs | pl | mi | ge | lt | gt | le
deriving DecidableEq, Repr

/-- op1 of an RRR instruction, the field `CCC` (42_rrr.md R202); `sha` is an arithmetic shift. -/
inductive Op1 where
  | add | addc | sub | subb | and | or | xor | sha
deriving DecidableEq, Repr

/-- Width and extension of a load: the defined values 010, 000, 001, 100, 101 of `YLE` (44_rrm.md R252, 30_encoding.md R123). -/
inductive LoadType where
  /-- fullword -/
  | w
  /-- halfword, sign-extended -/
  | h
  /-- halfword, zero-extended -/
  | hz
  /-- byte, sign-extended -/
  | b
  /-- byte, zero-extended -/
  | bz
deriving DecidableEq, Repr

/-- Width of a store: the defined values 01, 00, 10 of `YL` (44_rrm.md R252). -/
inductive StoreType where
  /-- fullword -/
  | w
  /-- halfword -/
  | h
  /-- byte -/
  | b
deriving DecidableEq, Repr

/-- The instruction set. `f`: the instruction writes the flags. `h`: the constant is in the high halfword. `p`: the effective
address includes the second operand. `q`: Rs1 is updated. `e`: a part-word load zero-extends. Rd, Rs1, Rs2, Rs3 may be any
5-bit number here; `Instr.wellFormed` says which the spec admits. -/
inductive Instr where
  -- RI, Register Immediate: 30_encoding.md R102, 40_ri.md
  | addRi (rd rs1 : RegNum) (f h : Bool) (k : BitVec 16)
  | addcRi (rd rs1 : RegNum) (f h : Bool) (k : BitVec 16)
  | subRi (rd rs1 : RegNum) (f h : Bool) (k : BitVec 16)
  | subbRi (rd rs1 : RegNum) (f h : Bool) (k : BitVec 16)
  | andRi (rd rs1 : RegNum) (f h : Bool) (k : BitVec 16)
  | orRi (rd rs1 : RegNum) (f h : Bool) (k : BitVec 16)
  | xorRi (rd rs1 : RegNum) (f h : Bool) (k : BitVec 16)
  | shRi (rd rs1 : RegNum) (f : Bool) (k : BitVec 16)
  | shaRi (rd rs1 : RegNum) (f : Bool) (k : BitVec 16)
  -- RR, Register Register: R103, 41_rr.md
  | addRr (rd rs1 rs2 : RegNum) (f : Bool)
  | addcRr (rd rs1 rs2 : RegNum) (f : Bool)
  | subRr (rd rs1 rs2 : RegNum) (f : Bool)
  | subbRr (rd rs1 rs2 : RegNum) (f : Bool)
  | andRr (rd rs1 rs2 : RegNum) (f : Bool)
  | orRr (rd rs1 rs2 : RegNum) (f : Bool)
  | xorRr (rd rs1 rs2 : RegNum) (f : Bool)
  | shRr (rd rs1 rs2 : RegNum) (f : Bool)
  | shaRr (rd rs1 rs2 : RegNum) (f : Bool)
  -- RRR, three-register: R104, 42_rrr.md
  | addRrr (rd rs1 rs2 rs3 : RegNum) (op1 : Op1) (f : Bool)
  | addcRrr (rd rs1 rs2 rs3 : RegNum) (op1 : Op1) (f : Bool)
  | subRrr (rd rs1 rs2 rs3 : RegNum) (op1 : Op1) (f : Bool)
  | subbRrr (rd rs1 rs2 rs3 : RegNum) (op1 : Op1) (f : Bool)
  | andRrr (rd rs1 rs2 rs3 : RegNum) (op1 : Op1) (f : Bool)
  | orRrr (rd rs1 rs2 rs3 : RegNum) (op1 : Op1) (f : Bool)
  | xorRrr (rd rs1 rs2 rs3 : RegNum) (op1 : Op1) (f : Bool)
  | shRrr (rd rs1 rs2 rs3 : RegNum) (op1 : Op1) (f : Bool)
  | shaRrr (rd rs1 rs2 rs3 : RegNum) (op1 : Op1) (f : Bool)
  -- RM, Register Memory: R105, 43_rm.md
  | ldRm (rd rs1 : RegNum) (p q : Bool) (k : BitVec 16)
  | stRm (rd rs1 : RegNum) (p q : Bool) (k : BitVec 16)
  -- RRM, Register Register Memory: R106, 44_rrm.md
  | ldRrmAdd (rd rs1 rs2 : RegNum) (p q : Bool) (t : LoadType)
  | ldRrmAddc (rd rs1 rs2 : RegNum) (p q : Bool) (t : LoadType)
  | ldRrmSub (rd rs1 rs2 : RegNum) (p q : Bool) (t : LoadType)
  | ldRrmSubb (rd rs1 rs2 : RegNum) (p q : Bool) (t : LoadType)
  | ldRrmAnd (rd rs1 rs2 : RegNum) (p q : Bool) (t : LoadType)
  | ldRrmOr (rd rs1 rs2 : RegNum) (p q : Bool) (t : LoadType)
  | ldRrmXor (rd rs1 rs2 : RegNum) (p q : Bool) (t : LoadType)
  | ldRrmSh (rd rs1 rs2 : RegNum) (p q : Bool)
  | ldRrmSha (rd rs1 rs2 : RegNum) (p q : Bool)
  | stRrmAdd (rd rs1 rs2 : RegNum) (p q : Bool) (t : StoreType)
  | stRrmAddc (rd rs1 rs2 : RegNum) (p q : Bool) (t : StoreType)
  | stRrmSub (rd rs1 rs2 : RegNum) (p q : Bool) (t : StoreType)
  | stRrmSubb (rd rs1 rs2 : RegNum) (p q : Bool) (t : StoreType)
  | stRrmAnd (rd rs1 rs2 : RegNum) (p q : Bool) (t : StoreType)
  | stRrmOr (rd rs1 rs2 : RegNum) (p q : Bool) (t : StoreType)
  | stRrmXor (rd rs1 rs2 : RegNum) (p q : Bool) (t : StoreType)
  | stRrmSh (rd rs1 rs2 : RegNum) (p q : Bool)
  | stRrmSha (rd rs1 rs2 : RegNum) (p q : Bool)
  -- BR, Conditional Branch: R107, 45_br.md
  | brAbs (cond : Cond) (k : BitVec 23)
  | brRel (cond : Cond) (k : BitVec 23)
  -- PUNT, the context toggle: R108, 46_punt.md
  | punt
  -- SLS and SLI: R109, R110, 47_sls_sli.md
  | ldSls (rd : RegNum) (addr : BitVec 21)
  | stSls (rd : RegNum) (addr : BitVec 21)
  | sli (rd : RegNum) (k : BitVec 21)
  -- SPLS, part-word load and store: R111, 48_spls.md
  | ldhSpls (rd rs1 : RegNum) (e p q : Bool) (k : BitVec 10)
  | ldbSpls (rd rs1 : RegNum) (e p q : Bool) (k : BitVec 10)
  | sthSpls (rd rs1 : RegNum) (p q : Bool) (k : BitVec 10)
  | stbSpls (rd rs1 : RegNum) (p q : Bool) (k : BitVec 10)
  -- SBR, conditional branch to a register sum: R112, 49_sbr.md
  | sbr (cond : Cond) (rs1 rs3 : RegNum)
deriving DecidableEq, Repr

/-- Why a word is no instruction (60_exceptions.md R351 rows 1 to 4), each a `refuse` at decode. -/
inductive DecodeError where
  /-- fewer than the four bytes of an instruction word (R100) -/
  | truncated
  /-- a `1111` word that matches no diagram (R119) -/
  | unassignedWord
  /-- a reserved bit is set (R116) -/
  | reservedBit
  /-- RR or RRM with BBB = 111 and a reserved JJJJJ (R118, 41_rr.md R192) -/
  | reservedSpecial
  /-- RRM with BBB not 111 and `YL` = 11 (R118, 44_rrm.md R252) -/
  | reservedWidth
deriving DecidableEq, Repr

end Sys2Proof
end

