-- ==== Sys2Proof/Decode.lean ====
section
/-! DEFINITION. The decoder and the encoder of the instruction word (30_encoding.md), and the byte order that lays a word out
in memory (20_memory.md R62, R65). The decoder is total: a word that is no instruction is rejected by name (R116, R118, R119). -/

namespace Sys2Proof

/-! ### Fields (30_encoding.md R102 to R114) -/

/-- Rd, bits 27:23. -/
def rdField (w : Word) : RegNum := w.extractLsb' 23 5

/-- Rs1, bits 22:18. -/
def rs1Field (w : Word) : RegNum := w.extractLsb' 18 5

/-- Rs2, bits 15:11. -/
def rs2Field (w : Word) : RegNum := w.extractLsb' 11 5

/-- Rs3, bits 7:3. -/
def rs3Field (w : Word) : RegNum := w.extractLsb' 3 5

/-- Bit 17: `F`, or `P` in RM and RRM. -/
def fBit (w : Word) : Bool := w.getLsbD 17

/-- Bit 16: `H`, or `Q` in RM and RRM. -/
def hBit (w : Word) : Bool := w.getLsbD 16

/-- Bits 22:18 and 15:0, the 21-bit address of SLS and constant of SLI (R109, R110). -/
def field21 (w : Word) : BitVec 21 := w.extractLsb' 18 5 ++ w.extractLsb' 0 16

/-- `DDDI`: bits 27:25 and bit 0 (45_br.md R292). -/
def condField (w : Word) : BitVec 4 := w.extractLsb' 25 3 ++ w.extractLsb' 0 1

/-- The condition a `DDDI` value names (R292). -/
def condOfCode (c : BitVec 4) : Cond :=
  match c.toNat with
  | 0 => .t
  | 1 => .f
  | 2 => .hi
  | 3 => .ls
  | 4 => .cc
  | 5 => .cs
  | 6 => .ne
  | 7 => .eq
  | 8 => .vc
  | 9 => .vs
  | 10 => .pl
  | 11 => .mi
  | 12 => .ge
  | 13 => .lt
  | 14 => .gt
  | _ => .le

/-- The `DDDI` value of a condition (R292). -/
def codeOfCond : Cond → BitVec 4
  | .t => 0#4
  | .f => 1#4
  | .hi => 2#4
  | .ls => 3#4
  | .cc => 4#4
  | .cs => 5#4
  | .ne => 6#4
  | .eq => 7#4
  | .vc => 8#4
  | .vs => 9#4
  | .pl => 10#4
  | .mi => 11#4
  | .ge => 12#4
  | .lt => 13#4
  | .gt => 14#4
  | .le => 15#4

/-- op1 of RRR, the field CCC (R104, 42_rrr.md R202). -/
def op1OfCode (c : BitVec 3) : Op1 :=
  match c.toNat with
  | 0 => .add
  | 1 => .addc
  | 2 => .sub
  | 3 => .subb
  | 4 => .and
  | 5 => .or
  | 6 => .xor
  | _ => .sha

/-- The CCC value of op1 (R202). -/
def codeOfOp1 : Op1 → BitVec 3
  | .add => 0#3
  | .addc => 1#3
  | .sub => 2#3
  | .subb => 3#3
  | .and => 4#3
  | .or => 5#3
  | .xor => 6#3
  | .sha => 7#3

/-- `YLE` of a load whose BBB is not 111; `YL` = 11 is not listed, and `E` is ignored on a fullword (44_rrm.md R252). -/
def loadTypeOfCode (c : BitVec 3) : Option LoadType :=
  match c.toNat with
  | 0 => some .h
  | 1 => some .hz
  | 2 => some .w
  | 3 => some .w
  | 4 => some .b
  | 5 => some .bz
  | _ => none

/-- `YLE` of a load as the encoder writes it (30_encoding.md R123). -/
def codeOfLoadType : LoadType → BitVec 3
  | .w => 2#3
  | .h => 0#3
  | .hz => 1#3
  | .b => 4#3
  | .bz => 5#3

/-- `YLE` of a store whose BBB is not 111; `E` is ignored (R252). -/
def storeTypeOfCode (c : BitVec 3) : Option StoreType :=
  match c.toNat with
  | 0 => some .h
  | 1 => some .h
  | 2 => some .w
  | 3 => some .w
  | 4 => some .b
  | 5 => some .b
  | _ => none

/-- `YLE` of a store, `E` written 0 (R120, R123). -/
def codeOfStoreType : StoreType → BitVec 3
  | .w => 2#3
  | .h => 0#3
  | .b => 4#3

/-! ### The decoder (30_encoding.md R101) -/

/-- RI: `w[31]` = 0; AAA in bits 30:28, and for the shifts H chooses the kind (R102). -/
def decodeRi (w : Word) : Instr :=
  match (w.extractLsb' 28 3).toNat with
  | 0 => .addRi (rdField w) (rs1Field w) (fBit w) (hBit w) (w.extractLsb' 0 16)
  | 1 => .addcRi (rdField w) (rs1Field w) (fBit w) (hBit w) (w.extractLsb' 0 16)
  | 2 => .subRi (rdField w) (rs1Field w) (fBit w) (hBit w) (w.extractLsb' 0 16)
  | 3 => .subbRi (rdField w) (rs1Field w) (fBit w) (hBit w) (w.extractLsb' 0 16)
  | 4 => .andRi (rdField w) (rs1Field w) (fBit w) (hBit w) (w.extractLsb' 0 16)
  | 5 => .orRi (rdField w) (rs1Field w) (fBit w) (hBit w) (w.extractLsb' 0 16)
  | 6 => .xorRi (rdField w) (rs1Field w) (fBit w) (hBit w) (w.extractLsb' 0 16)
  | _ =>
    if hBit w then .shaRi (rdField w) (rs1Field w) (fBit w) (w.extractLsb' 0 16)
    else .shRi (rdField w) (rs1Field w) (fBit w) (w.extractLsb' 0 16)

/-- Which shift a special JJJJJ names: `10---` logical, `11---` arithmetic, every other value reserved, and the three dashes
reserved bits (R103, R116, R118). -/
def specialShift (j : BitVec 5) : Except DecodeError Bool :=
  if j.getLsbD 4 = false then .error .reservedSpecial
  else if j.extractLsb' 0 3 ≠ 0#3 then .error .reservedBit
  else .ok (j.getLsbD 3)

/-- RR: bit 16 and bits 2:0 are reserved, JJJJJ is ignored unless BBB = 111 (R103, R116, R117). -/
def decodeRr (w : Word) : Except DecodeError Instr :=
  if hBit w = true ∨ w.extractLsb' 0 3 ≠ 0#3 then .error .reservedBit
  else
    match (w.extractLsb' 8 3).toNat with
    | 0 => .ok (.addRr (rdField w) (rs1Field w) (rs2Field w) (fBit w))
    | 1 => .ok (.addcRr (rdField w) (rs1Field w) (rs2Field w) (fBit w))
    | 2 => .ok (.subRr (rdField w) (rs1Field w) (rs2Field w) (fBit w))
    | 3 => .ok (.subbRr (rdField w) (rs1Field w) (rs2Field w) (fBit w))
    | 4 => .ok (.andRr (rdField w) (rs1Field w) (rs2Field w) (fBit w))
    | 5 => .ok (.orRr (rdField w) (rs1Field w) (rs2Field w) (fBit w))
    | 6 => .ok (.xorRr (rdField w) (rs1Field w) (rs2Field w) (fBit w))
    | _ =>
      match specialShift (w.extractLsb' 3 5) with
      | .error e => .error e
      | .ok true => .ok (.shaRr (rdField w) (rs1Field w) (rs2Field w) (fBit w))
      | .ok false => .ok (.shRr (rdField w) (rs1Field w) (rs2Field w) (fBit w))

/-- RRR: op2 in bits 10:8, op1 in bits 2:0; H is ignored unless op2 is a shift (R104, R120). -/
def decodeRrr (w : Word) : Instr :=
  match (w.extractLsb' 8 3).toNat with
  | 0 => .addRrr (rdField w) (rs1Field w) (rs2Field w) (rs3Field w) (op1OfCode (w.extractLsb' 0 3)) (fBit w)
  | 1 => .addcRrr (rdField w) (rs1Field w) (rs2Field w) (rs3Field w) (op1OfCode (w.extractLsb' 0 3)) (fBit w)
  | 2 => .subRrr (rdField w) (rs1Field w) (rs2Field w) (rs3Field w) (op1OfCode (w.extractLsb' 0 3)) (fBit w)
  | 3 => .subbRrr (rdField w) (rs1Field w) (rs2Field w) (rs3Field w) (op1OfCode (w.extractLsb' 0 3)) (fBit w)
  | 4 => .andRrr (rdField w) (rs1Field w) (rs2Field w) (rs3Field w) (op1OfCode (w.extractLsb' 0 3)) (fBit w)
  | 5 => .orRrr (rdField w) (rs1Field w) (rs2Field w) (rs3Field w) (op1OfCode (w.extractLsb' 0 3)) (fBit w)
  | 6 => .xorRrr (rdField w) (rs1Field w) (rs2Field w) (rs3Field w) (op1OfCode (w.extractLsb' 0 3)) (fBit w)
  | _ =>
    if hBit w then .shaRrr (rdField w) (rs1Field w) (rs2Field w) (rs3Field w) (op1OfCode (w.extractLsb' 0 3)) (fBit w)
    else .shRrr (rdField w) (rs1Field w) (rs2Field w) (rs3Field w) (op1OfCode (w.extractLsb' 0 3)) (fBit w)

/-- The RRM load whose address operation is the non-shift BBB of `w` (44_rrm.md R251). -/
def rrmLoadOf (w : Word) (t : LoadType) : Instr :=
  match (w.extractLsb' 8 3).toNat with
  | 0 => .ldRrmAdd (rdField w) (rs1Field w) (rs2Field w) (fBit w) (hBit w) t
  | 1 => .ldRrmAddc (rdField w) (rs1Field w) (rs2Field w) (fBit w) (hBit w) t
  | 2 => .ldRrmSub (rdField w) (rs1Field w) (rs2Field w) (fBit w) (hBit w) t
  | 3 => .ldRrmSubb (rdField w) (rs1Field w) (rs2Field w) (fBit w) (hBit w) t
  | 4 => .ldRrmAnd (rdField w) (rs1Field w) (rs2Field w) (fBit w) (hBit w) t
  | 5 => .ldRrmOr (rdField w) (rs1Field w) (rs2Field w) (fBit w) (hBit w) t
  | _ => .ldRrmXor (rdField w) (rs1Field w) (rs2Field w) (fBit w) (hBit w) t

/-- The RRM store whose address operation is the non-shift BBB of `w` (R251). -/
def rrmStoreOf (w : Word) (t : StoreType) : Instr :=
  match (w.extractLsb' 8 3).toNat with
  | 0 => .stRrmAdd (rdField w) (rs1Field w) (rs2Field w) (fBit w) (hBit w) t
  | 1 => .stRrmAddc (rdField w) (rs1Field w) (rs2Field w) (fBit w) (hBit w) t
  | 2 => .stRrmSub (rdField w) (rs1Field w) (rs2Field w) (fBit w) (hBit w) t
  | 3 => .stRrmSubb (rdField w) (rs1Field w) (rs2Field w) (fBit w) (hBit w) t
  | 4 => .stRrmAnd (rdField w) (rs1Field w) (rs2Field w) (fBit w) (hBit w) t
  | 5 => .stRrmOr (rdField w) (rs1Field w) (rs2Field w) (fBit w) (hBit w) t
  | _ => .stRrmXor (rdField w) (rs1Field w) (rs2Field w) (fBit w) (hBit w) t

/-- RRM load, `w[31:28]` = 1010 (R106): with BBB = 111 `YLE` is ignored, otherwise JJJJJ is (R117, R118, R120). -/
def decodeRrmLoad (w : Word) : Except DecodeError Instr :=
  if w.extractLsb' 8 3 = 7#3 then
    match specialShift (w.extractLsb' 3 5) with
    | .error e => .error e
    | .ok true => .ok (.ldRrmSha (rdField w) (rs1Field w) (rs2Field w) (fBit w) (hBit w))
    | .ok false => .ok (.ldRrmSh (rdField w) (rs1Field w) (rs2Field w) (fBit w) (hBit w))
  else
    match loadTypeOfCode (w.extractLsb' 0 3) with
    | none => .error .reservedWidth
    | some t => .ok (rrmLoadOf w t)

/-- RRM store, `w[31:28]` = 1011 (R106). -/
def decodeRrmStore (w : Word) : Except DecodeError Instr :=
  if w.extractLsb' 8 3 = 7#3 then
    match specialShift (w.extractLsb' 3 5) with
    | .error e => .error e
    | .ok true => .ok (.stRrmSha (rdField w) (rs1Field w) (rs2Field w) (fBit w) (hBit w))
    | .ok false => .ok (.stRrmSh (rdField w) (rs1Field w) (rs2Field w) (fBit w) (hBit w))
  else
    match storeTypeOfCode (w.extractLsb' 0 3) with
    | none => .error .reservedWidth
    | some t => .ok (rrmStoreOf w t)

/-- BR: bit 1 is R, the constant is bits 24:2 (R107). -/
def decodeBr (w : Word) : Instr :=
  if w.getLsbD 1 then .brRel (condOfCode (condField w)) (w.extractLsb' 2 23)
  else .brAbs (condOfCode (condField w)) (w.extractLsb' 2 23)

/-- SPLS: `Y` in bit 14, `S` in bit 13; `E` is ignored on a store (R111, R120). -/
def decodeSpls (w : Word) : Instr :=
  match w.getLsbD 14, w.getLsbD 13 with
  | false, false => .ldhSpls (rdField w) (rs1Field w) (w.getLsbD 12) (w.getLsbD 11) (w.getLsbD 10) (w.extractLsb' 0 10)
  | true, false => .ldbSpls (rdField w) (rs1Field w) (w.getLsbD 12) (w.getLsbD 11) (w.getLsbD 10) (w.extractLsb' 0 10)
  | false, true => .sthSpls (rdField w) (rs1Field w) (w.getLsbD 11) (w.getLsbD 10) (w.extractLsb' 0 10)
  | true, true => .stbSpls (rdField w) (rs1Field w) (w.getLsbD 11) (w.getLsbD 10) (w.extractLsb' 0 10)

/-- The `1111` words with `w[17:15]` = 111: SBR, PUNT, or no instruction (R101, R108, R112, R119, 49_sbr.md R346). -/
def decodeSbrPunt (w : Word) : Except DecodeError Instr :=
  if w.extractLsb' 8 10 = 960#10 ∧ w.extractLsb' 1 2 = 0#2 then
    if w.extractLsb' 23 2 ≠ 0#2 then .error .reservedBit
    else .ok (.sbr (condOfCode (condField w)) (rs1Field w) (rs3Field w))
  else if w.extractLsb' 8 10 = 1023#10 ∧ w.getLsbD 6 = true ∧ w.extractLsb' 0 3 = 7#3 then
    if w.extractLsb' 18 10 ≠ 0#10 ∨ w.getLsbD 7 = true ∨ w.extractLsb' 3 3 ≠ 0#3 then .error .reservedBit
    else .ok .punt
  else .error .unassignedWord

/-- The `1111` words, told apart by bits 17:15 (R101, 90_conflicts.md C8). -/
def decodeF (w : Word) : Except DecodeError Instr :=
  if w.getLsbD 17 = false then
    .ok (if w.getLsbD 16 then .stSls (rdField w) (field21 w) else .ldSls (rdField w) (field21 w))
  else if w.getLsbD 16 = false then .ok (.sli (rdField w) (field21 w))
  else if w.getLsbD 15 = false then .ok (decodeSpls w)
  else decodeSbrPunt w

/-- The instruction a word is, or why it is none: the decode tree of R101 over bits 31:28. -/
def decodeWord (w : Word) : Except DecodeError Instr :=
  match (w.extractLsb' 28 4).toNat with
  | 8 => .ok (.ldRm (rdField w) (rs1Field w) (fBit w) (hBit w) (w.extractLsb' 0 16))
  | 9 => .ok (.stRm (rdField w) (rs1Field w) (fBit w) (hBit w) (w.extractLsb' 0 16))
  | 10 => decodeRrmLoad w
  | 11 => decodeRrmStore w
  | 12 => decodeRr w
  | 13 => .ok (decodeRrr w)
  | 14 => .ok (decodeBr w)
  | 15 => decodeF w
  | _ => .ok (decodeRi w)

/-! ### Byte order (20_memory.md R62 to R65) -/

/-- A halfword from its two bytes, the one at the lower address first (R62). -/
def joinHalf (e : Endian) (b0 b1 : Byte) : BitVec 16 :=
  match e with
  | .big => b0 ++ b1
  | .little => b1 ++ b0

/-- A fullword from its four bytes, in address order (R62). -/
def joinWord (e : Endian) (b0 b1 b2 b3 : Byte) : Word :=
  match e with
  | .big => b0 ++ b1 ++ b2 ++ b3
  | .little => b3 ++ b2 ++ b1 ++ b0

/-- The bytes of a halfword, in address order (R63). -/
def splitHalf (e : Endian) (v : BitVec 16) : List Byte :=
  match e with
  | .big => [v.extractLsb' 8 8, v.extractLsb' 0 8]
  | .little => [v.extractLsb' 0 8, v.extractLsb' 8 8]

/-- The bytes of a fullword, in address order (R63). -/
def splitWord (e : Endian) (v : Word) : List Byte :=
  match e with
  | .big => [v.extractLsb' 24 8, v.extractLsb' 16 8, v.extractLsb' 8 8, v.extractLsb' 0 8]
  | .little => [v.extractLsb' 0 8, v.extractLsb' 8 8, v.extractLsb' 16 8, v.extractLsb' 24 8]

/-- The instruction at the head of a run of bytes, and the bytes after it (R64, R100). -/
def decode (e : Endian) : List Byte → Except DecodeError (Instr × List Byte)
  | b0 :: b1 :: b2 :: b3 :: rest =>
    match decodeWord (joinWord e b0 b1 b2 b3) with
    | .ok i => .ok (i, rest)
    | .error r => .error r
  | _ => .error .truncated

/-! ### The encoder (30_encoding.md R102 to R112, R123) -/

/-- A word with a 16-bit field in bits 15:0: RM, SLS, SLI (R105, R109, R110). -/
def encConst (op : BitVec 4) (rd rs1 : RegNum) (b17 b16 : Bool) (k : BitVec 16) : Word :=
  op ++ rd ++ rs1 ++ BitVec.ofBool b17 ++ BitVec.ofBool b16 ++ k

/-- An RI word (R102). -/
def encRi (aaa : BitVec 3) (rd rs1 : RegNum) (f h : Bool) (k : BitVec 16) : Word :=
  0#1 ++ aaa ++ rd ++ rs1 ++ BitVec.ofBool f ++ BitVec.ofBool h ++ k

/-- A word with Rs2, a 3-bit operation, a 5-bit and a 3-bit field: RR, RRR, RRM (R103, R104, R106). -/
def encReg (op : BitVec 4) (rd rs1 : RegNum) (b17 b16 : Bool) (rs2 : RegNum) (bbb : BitVec 3) (j : BitVec 5) (low : BitVec 3) : Word :=
  op ++ rd ++ rs1 ++ BitVec.ofBool b17 ++ BitVec.ofBool b16 ++ rs2 ++ bbb ++ j ++ low

/-- A BR word (R107). -/
def encBr (cond : Cond) (k : BitVec 23) (r : Bool) : Word :=
  14#4 ++ (codeOfCond cond).extractLsb' 1 3 ++ k ++ BitVec.ofBool r ++ (codeOfCond cond).extractLsb' 0 1

/-- An SPLS word (R111). -/
def encSpls (rd rs1 : RegNum) (y s e p q : Bool) (k : BitVec 10) : Word :=
  15#4 ++ rd ++ rs1 ++ 6#3 ++ BitVec.ofBool y ++ BitVec.ofBool s ++ BitVec.ofBool e ++ BitVec.ofBool p ++ BitVec.ofBool q ++ k

/-- An SBR word (R112, 49_sbr.md R345). -/
def encSbr (cond : Cond) (rs1 rs3 : RegNum) : Word :=
  15#4 ++ (codeOfCond cond).extractLsb' 1 3 ++ 0#2 ++ rs1 ++ 960#10 ++ rs3 ++ 0#2 ++ (codeOfCond cond).extractLsb' 0 1

/-- The instruction with its unused fields 0 (R120): with `PQ` = 00 the constant of RM and SPLS, and Rs2, BBB and JJJJJ of RRM; the two
low address bits of SLS. With `PQ` = 00 and BBB = 111 the fullword access that BBB = 111 stands for is kept by `YL` = 01 (R252,
DEDUCED, log 23). No other instruction keeps an unused field. -/
def Instr.clean : Instr → Instr
  | .ldRm rd rs1 p q k => .ldRm rd rs1 p q (if p || q then k else 0#16)
  | .stRm rd rs1 p q k => .stRm rd rs1 p q (if p || q then k else 0#16)
  | .ldRrmAdd rd rs1 rs2 p q t => if p || q then .ldRrmAdd rd rs1 rs2 p q t else .ldRrmAdd rd rs1 0#5 false false t
  | .ldRrmAddc rd rs1 rs2 p q t => if p || q then .ldRrmAddc rd rs1 rs2 p q t else .ldRrmAdd rd rs1 0#5 false false t
  | .ldRrmSub rd rs1 rs2 p q t => if p || q then .ldRrmSub rd rs1 rs2 p q t else .ldRrmAdd rd rs1 0#5 false false t
  | .ldRrmSubb rd rs1 rs2 p q t => if p || q then .ldRrmSubb rd rs1 rs2 p q t else .ldRrmAdd rd rs1 0#5 false false t
  | .ldRrmAnd rd rs1 rs2 p q t => if p || q then .ldRrmAnd rd rs1 rs2 p q t else .ldRrmAdd rd rs1 0#5 false false t
  | .ldRrmOr rd rs1 rs2 p q t => if p || q then .ldRrmOr rd rs1 rs2 p q t else .ldRrmAdd rd rs1 0#5 false false t
  | .ldRrmXor rd rs1 rs2 p q t => if p || q then .ldRrmXor rd rs1 rs2 p q t else .ldRrmAdd rd rs1 0#5 false false t
  | .ldRrmSh rd rs1 rs2 p q => if p || q then .ldRrmSh rd rs1 rs2 p q else .ldRrmAdd rd rs1 0#5 false false .w
  | .ldRrmSha rd rs1 rs2 p q => if p || q then .ldRrmSha rd rs1 rs2 p q else .ldRrmAdd rd rs1 0#5 false false .w
  | .stRrmAdd rd rs1 rs2 p q t => if p || q then .stRrmAdd rd rs1 rs2 p q t else .stRrmAdd rd rs1 0#5 false false t
  | .stRrmAddc rd rs1 rs2 p q t => if p || q then .stRrmAddc rd rs1 rs2 p q t else .stRrmAdd rd rs1 0#5 false false t
  | .stRrmSub rd rs1 rs2 p q t => if p || q then .stRrmSub rd rs1 rs2 p q t else .stRrmAdd rd rs1 0#5 false false t
  | .stRrmSubb rd rs1 rs2 p q t => if p || q then .stRrmSubb rd rs1 rs2 p q t else .stRrmAdd rd rs1 0#5 false false t
  | .stRrmAnd rd rs1 rs2 p q t => if p || q then .stRrmAnd rd rs1 rs2 p q t else .stRrmAdd rd rs1 0#5 false false t
  | .stRrmOr rd rs1 rs2 p q t => if p || q then .stRrmOr rd rs1 rs2 p q t else .stRrmAdd rd rs1 0#5 false false t
  | .stRrmXor rd rs1 rs2 p q t => if p || q then .stRrmXor rd rs1 rs2 p q t else .stRrmAdd rd rs1 0#5 false false t
  | .stRrmSh rd rs1 rs2 p q => if p || q then .stRrmSh rd rs1 rs2 p q else .stRrmAdd rd rs1 0#5 false false .w
  | .stRrmSha rd rs1 rs2 p q => if p || q then .stRrmSha rd rs1 rs2 p q else .stRrmAdd rd rs1 0#5 false false .w
  | .ldSls rd addr => .ldSls rd (addr &&& 0x1FFFFC#21)
  | .stSls rd addr => .stSls rd (addr &&& 0x1FFFFC#21)
  | .ldhSpls rd rs1 e p q k => .ldhSpls rd rs1 e p q (if p || q then k else 0#10)
  | .ldbSpls rd rs1 e p q k => .ldbSpls rd rs1 e p q (if p || q then k else 0#10)
  | .sthSpls rd rs1 p q k => .sthSpls rd rs1 p q (if p || q then k else 0#10)
  | .stbSpls rd rs1 p q k => .stbSpls rd rs1 p q (if p || q then k else 0#10)
  | i => i

/-- The fields of an instruction in their places. Bits that no constructor holds are 0 (R117, R120). -/
def encodeFields : Instr → Word
  | .addRi rd rs1 f h k => encRi 0#3 rd rs1 f h k
  | .addcRi rd rs1 f h k => encRi 1#3 rd rs1 f h k
  | .subRi rd rs1 f h k => encRi 2#3 rd rs1 f h k
  | .subbRi rd rs1 f h k => encRi 3#3 rd rs1 f h k
  | .andRi rd rs1 f h k => encRi 4#3 rd rs1 f h k
  | .orRi rd rs1 f h k => encRi 5#3 rd rs1 f h k
  | .xorRi rd rs1 f h k => encRi 6#3 rd rs1 f h k
  | .shRi rd rs1 f k => encRi 7#3 rd rs1 f false k
  | .shaRi rd rs1 f k => encRi 7#3 rd rs1 f true k
  | .addRr rd rs1 rs2 f => encReg 12#4 rd rs1 f false rs2 0#3 0#5 0#3
  | .addcRr rd rs1 rs2 f => encReg 12#4 rd rs1 f false rs2 1#3 0#5 0#3
  | .subRr rd rs1 rs2 f => encReg 12#4 rd rs1 f false rs2 2#3 0#5 0#3
  | .subbRr rd rs1 rs2 f => encReg 12#4 rd rs1 f false rs2 3#3 0#5 0#3
  | .andRr rd rs1 rs2 f => encReg 12#4 rd rs1 f false rs2 4#3 0#5 0#3
  | .orRr rd rs1 rs2 f => encReg 12#4 rd rs1 f false rs2 5#3 0#5 0#3
  | .xorRr rd rs1 rs2 f => encReg 12#4 rd rs1 f false rs2 6#3 0#5 0#3
  | .shRr rd rs1 rs2 f => encReg 12#4 rd rs1 f false rs2 7#3 16#5 0#3
  | .shaRr rd rs1 rs2 f => encReg 12#4 rd rs1 f false rs2 7#3 24#5 0#3
  | .addRrr rd rs1 rs2 rs3 op1 f => encReg 13#4 rd rs1 f false rs2 0#3 rs3 (codeOfOp1 op1)
  | .addcRrr rd rs1 rs2 rs3 op1 f => encReg 13#4 rd rs1 f false rs2 1#3 rs3 (codeOfOp1 op1)
  | .subRrr rd rs1 rs2 rs3 op1 f => encReg 13#4 rd rs1 f false rs2 2#3 rs3 (codeOfOp1 op1)
  | .subbRrr rd rs1 rs2 rs3 op1 f => encReg 13#4 rd rs1 f false rs2 3#3 rs3 (codeOfOp1 op1)
  | .andRrr rd rs1 rs2 rs3 op1 f => encReg 13#4 rd rs1 f false rs2 4#3 rs3 (codeOfOp1 op1)
  | .orRrr rd rs1 rs2 rs3 op1 f => encReg 13#4 rd rs1 f false rs2 5#3 rs3 (codeOfOp1 op1)
  | .xorRrr rd rs1 rs2 rs3 op1 f => encReg 13#4 rd rs1 f false rs2 6#3 rs3 (codeOfOp1 op1)
  | .shRrr rd rs1 rs2 rs3 op1 f => encReg 13#4 rd rs1 f false rs2 7#3 rs3 (codeOfOp1 op1)
  | .shaRrr rd rs1 rs2 rs3 op1 f => encReg 13#4 rd rs1 f true rs2 7#3 rs3 (codeOfOp1 op1)
  | .ldRm rd rs1 p q k => encConst 8#4 rd rs1 p q k
  | .stRm rd rs1 p q k => encConst 9#4 rd rs1 p q k
  | .ldRrmAdd rd rs1 rs2 p q t => encReg 10#4 rd rs1 p q rs2 0#3 0#5 (codeOfLoadType t)
  | .ldRrmAddc rd rs1 rs2 p q t => encReg 10#4 rd rs1 p q rs2 1#3 0#5 (codeOfLoadType t)
  | .ldRrmSub rd rs1 rs2 p q t => encReg 10#4 rd rs1 p q rs2 2#3 0#5 (codeOfLoadType t)
  | .ldRrmSubb rd rs1 rs2 p q t => encReg 10#4 rd rs1 p q rs2 3#3 0#5 (codeOfLoadType t)
  | .ldRrmAnd rd rs1 rs2 p q t => encReg 10#4 rd rs1 p q rs2 4#3 0#5 (codeOfLoadType t)
  | .ldRrmOr rd rs1 rs2 p q t => encReg 10#4 rd rs1 p q rs2 5#3 0#5 (codeOfLoadType t)
  | .ldRrmXor rd rs1 rs2 p q t => encReg 10#4 rd rs1 p q rs2 6#3 0#5 (codeOfLoadType t)
  | .ldRrmSh rd rs1 rs2 p q => encReg 10#4 rd rs1 p q rs2 7#3 16#5 0#3
  | .ldRrmSha rd rs1 rs2 p q => encReg 10#4 rd rs1 p q rs2 7#3 24#5 0#3
  | .stRrmAdd rd rs1 rs2 p q t => encReg 11#4 rd rs1 p q rs2 0#3 0#5 (codeOfStoreType t)
  | .stRrmAddc rd rs1 rs2 p q t => encReg 11#4 rd rs1 p q rs2 1#3 0#5 (codeOfStoreType t)
  | .stRrmSub rd rs1 rs2 p q t => encReg 11#4 rd rs1 p q rs2 2#3 0#5 (codeOfStoreType t)
  | .stRrmSubb rd rs1 rs2 p q t => encReg 11#4 rd rs1 p q rs2 3#3 0#5 (codeOfStoreType t)
  | .stRrmAnd rd rs1 rs2 p q t => encReg 11#4 rd rs1 p q rs2 4#3 0#5 (codeOfStoreType t)
  | .stRrmOr rd rs1 rs2 p q t => encReg 11#4 rd rs1 p q rs2 5#3 0#5 (codeOfStoreType t)
  | .stRrmXor rd rs1 rs2 p q t => encReg 11#4 rd rs1 p q rs2 6#3 0#5 (codeOfStoreType t)
  | .stRrmSh rd rs1 rs2 p q => encReg 11#4 rd rs1 p q rs2 7#3 16#5 0#3
  | .stRrmSha rd rs1 rs2 p q => encReg 11#4 rd rs1 p q rs2 7#3 24#5 0#3
  | .brAbs cond k => encBr cond k false
  | .brRel cond k => encBr cond k true
  | .punt => 4026793799#32
  | .ldSls rd a => encConst 15#4 rd (a.extractLsb' 16 5) false false (a.extractLsb' 0 16)
  | .stSls rd a => encConst 15#4 rd (a.extractLsb' 16 5) false true (a.extractLsb' 0 16)
  | .sli rd k => encConst 15#4 rd (k.extractLsb' 16 5) true false (k.extractLsb' 0 16)
  | .ldhSpls rd rs1 e p q k => encSpls rd rs1 false false e p q k
  | .ldbSpls rd rs1 e p q k => encSpls rd rs1 true false e p q k
  | .sthSpls rd rs1 p q k => encSpls rd rs1 false true false p q k
  | .stbSpls rd rs1 p q k => encSpls rd rs1 true true false p q k
  | .sbr cond rs1 rs3 => encSbr cond rs1 rs3

/-- The word of an instruction: the encoder writes 0 in every bit that the decoder ignores (R117, R120, D17). -/
def encode (i : Instr) : Word := encodeFields i.clean

/-! ### The host's way in -/

/-- The instruction the decoder reads from a word numbered as `spec/opcode_table.json` numbers it: bits above `nbits` are 0,
the four bytes lie in big-endian order and are decoded in that order (R8, R64). -/
def decodeTableWord (nbits w : Nat) : Option Instr :=
  match decode .big (splitWord .big (BitVec.ofNat 32 (w % 2 ^ nbits))) with
  | .ok (i, _) => some i
  | .error _ => none

end Sys2Proof
end

