-- ==== Sys2Proof/Machine/State.lean ====
section
/-! DEFINITION. The machine's state as plain data (10_state.md, 20_memory.md R74), the reasons a step can stop
(60_exceptions.md R351), and the state after reset (10_state.md R40). -/

namespace Sys2Proof.Machine

/-- Stops the model reports about memory. The hardware has no fault (60_exceptions.md R350): a fault here is the model's
stop, as a refusal is, and the state it leaves is not claimed. -/
inductive Fault where
  /-- A fetch, load or store touches an address outside `MEM_MAP` (R351 row 12, 20_memory.md R72). Raised by every access.
  Safe: nothing is claimed of such a run. -/
  | outsideMemMap
  /-- A fetch or load reads a byte that neither the launch nor a store has given a value (U24). Raised by every read.
  Safe. -/
  | unwrittenByte
deriving DecidableEq, Repr

/-- The refusals of 60_exceptions.md R351, each a case the source gives no behaviour. All are safe: the step has no
successor and nothing is claimed of it (R352). -/
inductive Refusal where
  /-- An instruction without a meaning, refused by its arm of `exec`. No arm does so. -/
  | notModelled (mnemonic : String)
  /-- The fetched word is no instruction (rows 1 to 4). Raised by `step`. -/
  | undecodable (e : DecodeError)
  /-- Rd is 2 or 31 in a form whose Rd "may not be 2 (pc) or 31 (isr)" (row 5). Raised by RRR, RM, RRM, SLS, SPLS. -/
  | prohibitedRd
  /-- A register field names register 31, of which the source says nothing (row 6). Raised by every form with one. -/
  | register31
  /-- `Q` = 1 with Rs1 = 2 (row 7). Raised by RM, RRM, SPLS. -/
  | pcBaseUpdate
  /-- PUNT switches to a context that no source describes (row 8). Raised by PUNT. -/
  | contextSwitch
  /-- A shift amount outside -31 to 31 (row 9). Raised by the shifts and by every operation that shifts. -/
  | shiftRange
  /-- A data access whose address is not a multiple of its width, or a misaligned fetch (row 10). -/
  | misaligned
  /-- A value whose two low bits are not 00 written to the pc (row 11). -/
  | pcMisaligned
  /-- The pending late write and a time-2 write name one register (row 13). -/
  | writeCollision
  /-- The fetched word was stored to by one of the two preceding instructions (row 14). Raised by the fetch. -/
  | fetchAfterStore
  /-- An instruction that writes register 2 while `fa1` is not `fa0` + 4, under `SHADOW_JUMP_POLICY` = refuse (10_state.md R38,
  D27). Raised by RI and RR with Rd = 2, SLI with Rd = 2, taken BR and SBR. -/
  | shadowJump
  /-- SLI with Rd = 2, under `SLI_PC_POLICY` = refuse (47_sls_sli.md R320, D28). Raised by SLI. -/
  | sliToPc
  /-- A result for R0 or R1 that differs from the register's content, under `REG_CONST` = `zeroOnes` (R24, D2). Raised by every
  form that writes a register. -/
  | constantRegister
deriving DecidableEq, Repr

/-- Why an instruction has no next state. -/
inductive Stop where
  | fault (r : Fault)
  | refuse (r : Refusal)
deriving DecidableEq, Repr

/-- The four condition flags (10_state.md R26). -/
structure Flags where
  z : Bool
  n : Bool
  v : Bool
  c : Bool
deriving DecidableEq, Repr

/-- A register write: the register's number and the value (10_state.md R30). -/
structure RegWrite where
  reg : RegNum
  val : Word
deriving DecidableEq, Repr

/-- The bytes a store wrote: `len` bytes from `addr` on (20_memory.md R74). -/
structure Span where
  addr : Word
  len : Nat
deriving DecidableEq, Repr

/-- Memory: the bytes that have a value, by address, addresses strictly rising (`Memory.wf`). An address that is not listed
has no value yet (10_state.md R40, U24, log 4). -/
abbrev Memory := List Host.Cell

/-- The state of the machine. Register 2 has no cell: it is read from `fa0` and `fa1` and written through `fa1`
(10_state.md R30, R32, R36). -/
structure State where
  /-- R0, R1, R3 to R31 in this order, R31 being isr (R20, R23, R24); `slot` gives a register's place -/
  regs : Vector Word 31
  /-- Z, N, V, C (R26) -/
  flags : Flags
  /-- which context runs (R28) -/
  ctx : Bool
  /-- the address the current instruction is fetched from (R30) -/
  fa0 : Word
  /-- the address the next instruction will be fetched from (R30) -/
  fa1 : Word
  /-- the register write of the previous instruction's time 3 that has not landed yet (R30, R34) -/
  late : Option RegWrite
  /-- the bytes the preceding instruction stored (20_memory.md R74) -/
  store1 : Option Span
  /-- the bytes the instruction before the preceding one stored (R74) -/
  store2 : Option Span
  /-- the one memory (R39) -/
  mem : Memory
  /-- the model's own: how many free values the run has drawn (60_exceptions.md R353, log 9) -/
  draws : Nat
  /-- the launch parameters, never written by a step (70_reset_and_hazards.md R392) -/
  cfg : Config
deriving DecidableEq, Repr

/-- What a launch gives (70_reset_and_hazards.md R392): the first fetch address, the content of every register, flag and memory
byte, `ctx`, and the parameters. A claim about a run quantifies over what it does not fix. -/
structure Launch where
  /-- `fa0`, which at reset is `RESET_PC` (10_state.md R40) -/
  pc : Word
  regs : Vector Word 31
  flags : Flags
  ctx : Bool
  mem : Memory
  cfg : Config
deriving DecidableEq, Repr

/-- The launch state (R392): `fa1` = `fa0` + 4, `late` empty, no instruction has stored (DEDUCED, log 21) and none has drawn. -/
def Launch.state (l : Launch) : State where
  regs := l.regs
  flags := l.flags
  ctx := l.ctx
  fa0 := l.pc
  fa1 := l.pc + 4#32
  late := none
  store1 := none
  store2 := none
  mem := l.mem
  draws := 0
  cfg := l.cfg

/-- The launch that stands for reset (R40): registers, flags, `ctx` and `RESET_PC` have no reset value in any source; the model
takes 0 (DESIGN CHOICE, unsafe, logs 1, 2, 3). Memory lists nothing (log 4). -/
def Launch.atReset : Launch where
  pc := Config.resetPc
  regs := Vector.replicate 31 0#32
  flags := ⟨false, false, false, false⟩
  ctx := false
  mem := []
  cfg := Config.atReset

/-- The state after reset (10_state.md R40). -/
def State.reset : State := Launch.atReset.state

end Sys2Proof.Machine
end

