-- ==== Sys2Proof/Machine/Ops.lean ====
section
/-! DEFINITION. The named operations every meaning is made of: reading and writing registers, reading and writing memory,
the fetch, and the end of a step, where the writes of R31 steps 5 to 8 land together. The hardware takes no exception and
returns from none (60_exceptions.md R350), so there is no operation for either. -/

namespace Sys2Proof.Machine

/-- The outcome a stop has. -/
def Stop.outcome : Stop → Host.Outcome State Fault Refusal
  | .fault r => .fault r
  | .refuse r => .refused r

/-- Go on if `ok`, otherwise `refuse(r)` (60_exceptions.md R352). -/
def require (ok : Bool) (r : Refusal) : Except Stop Unit :=
  if ok then .ok () else .error (.refuse r)

/-! ### Registers (10_state.md R20 to R36) -/

/-- Where register `r` other than 2 lies in `State.regs`. -/
def slot (r : RegNum) : Fin 31 :=
  ⟨if r.toNat < 2 then r.toNat else r.toNat - 1, by have := r.isLt; split <;> omega⟩

/-- The content of register `r` other than 2. -/
def State.reg (s : State) (r : RegNum) : Word := s.regs[slot r]

/-- `PC_READ(fa0, fa1)`: the value read from register 2 (10_state.md R32). The spec's decision D4 is the address of the next
instruction to be fetched, `fa1` (UNVERIFIED, unsafe, log 8). -/
def pcRead (m : PcRead) (fa0 fa1 : Word) : Word := (if m.fromNext then fa1 else fa0) + m.offset

/-- `x[r]`: what the executing instruction reads from register `r` (R32). The pending late write is not in it. -/
def State.x (s : State) (r : RegNum) : Word :=
  if r = pcReg then pcRead s.cfg.pcRead s.fa0 s.fa1 else s.reg r

/-- The register cells after one write; a write to register 2 changes none of them (R33, R36). -/
def writeReg (regs : Vector Word 31) (w : RegWrite) : Vector Word 31 :=
  if w.reg = pcReg then regs else regs.set (slot w.reg) w.val

/-- The register cells after a write that may be absent. -/
def writeReg? (regs : Vector Word 31) : Option RegWrite → Vector Word 31
  | none => regs
  | some w => writeReg regs w

/-- The value a write gives register 2, if it is a write to register 2: the jump target (R36). -/
def pcTarget : Option RegWrite → Option Word
  | none => none
  | some w => if w.reg = pcReg then some w.val else none

/-- Two writes to one register at one time (R35). -/
def collide : Option RegWrite → Option RegWrite → Bool
  | some a, some b => a.reg == b.reg
  | _, _ => false

/-! ### Memory (20_memory.md) -/

/-- The byte at an address, if it has a value. -/
def Memory.get (m : Memory) (a : Nat) : Option Byte :=
  match m with
  | [] => none
  | (k, b) :: m => if k = a then some b else Memory.get m a

/-- Memory with the byte at an address replaced, in the canonical form. -/
def Memory.set (m : Memory) (a : Nat) (b : Byte) : Memory :=
  match m with
  | [] => [(a, b)]
  | (k, c) :: m =>
    if a < k then (a, b) :: (k, c) :: m
    else if a = k then (a, b) :: m
    else (k, c) :: Memory.set m a b

/-- Memory with a run of bytes stored from an address on (R63). -/
def Memory.setBytes (m : Memory) (a : Nat) : List Byte → Memory
  | [] => m
  | b :: bs => Memory.setBytes (m.set a b) (a + 1) bs

/-- Every address of the memory lies above `lo` and the addresses rise strictly. -/
def Memory.risesFrom (lo : Nat) : Memory → Bool
  | [] => true
  | (k, _) :: m => decide (lo ≤ k) && Memory.risesFrom (k + 1) m

/-- The canonical form: addresses strictly rising, all of them 32-bit addresses (R60). -/
def Memory.wf (m : Memory) : Bool := Memory.risesFrom 0 m && m.all (fun c => decide (c.1 < 4294967296))

/-- `MEM_MAP` admits the address (R72). -/
def Config.admits (c : Config) (a : Nat) : Bool :=
  c.memMap.any (fun r => decide (r.base ≤ a ∧ a < r.base + r.size))

/-- `MEM_MAP` admits the `n` bytes from an address on. -/
def Config.admitsRun (c : Config) (a : Nat) : Nat → Bool
  | 0 => true
  | n + 1 => Config.admits c a && Config.admitsRun c (a + 1) n

/-- Alignment to `n` bytes (R66). -/
def aligned (a : Word) (n : Nat) : Bool := a.toNat % n == 0

/-- An access of `n` bytes at `ea` is aligned and admitted (R62, R63, R66, R72). -/
def State.access (s : State) (ea : Word) (n : Nat) : Except Stop Unit := do
  require (aligned ea n) .misaligned
  if Config.admitsRun s.cfg ea.toNat n then .ok () else .error (.fault .outsideMemMap)

/-- The value of the byte at an address, which must have one (U24, log 4). -/
def State.byteAt (s : State) (a : Nat) : Except Stop Byte :=
  match s.mem.get a with
  | some b => .ok b
  | none => .error (.fault .unwrittenByte)

/-- `MemRead(ea, 1)` (R62). -/
def State.readByte (s : State) (ea : Word) : Except Stop (BitVec 8) := do
  s.access ea 1
  s.byteAt ea.toNat

/-- `MemRead(ea, 2)` (R62). -/
def State.readHalf (s : State) (ea : Word) : Except Stop (BitVec 16) := do
  s.access ea 2
  let b0 ← s.byteAt ea.toNat
  let b1 ← s.byteAt (ea.toNat + 1)
  .ok (joinHalf s.cfg.endian b0 b1)

/-- `MemRead(ea, 4)` (R62). -/
def State.readWord (s : State) (ea : Word) : Except Stop Word := do
  s.access ea 4
  let b0 ← s.byteAt ea.toNat
  let b1 ← s.byteAt (ea.toNat + 1)
  let b2 ← s.byteAt (ea.toNat + 2)
  let b3 ← s.byteAt (ea.toNat + 3)
  .ok (joinWord s.cfg.endian b0 b1 b2 b3)

/-- The value a load gives its register: a part-word datum is extended (20_memory.md R67, 44_rrm.md R252). -/
def State.memLoad (s : State) (ea : Word) (t : LoadType) : Except Stop Word :=
  match t with
  | .w => s.readWord ea
  | .h => do let m ← s.readHalf ea; .ok (m.signExtend 32)
  | .hz => do let m ← s.readHalf ea; .ok (m.setWidth 32)
  | .b => do let m ← s.readByte ea; .ok (m.signExtend 32)
  | .bz => do let m ← s.readByte ea; .ok (m.setWidth 32)

/-- The bytes a store has ready for memory. -/
structure Store where
  addr : Word
  bytes : List Byte
deriving DecidableEq, Repr

/-- The bytes of a store occupy (R74). -/
def Store.span (st : Store) : Span := ⟨st.addr, st.bytes.length⟩

/-- How many bytes a store of a width writes (R61). -/
def storeLen : StoreType → Nat
  | .w => 4
  | .h => 2
  | .b => 1

/-- The bytes a store of a width takes from its register, in address order: the least significant part-word (R63, R68). -/
def storeBytes (e : Endian) (t : StoreType) (v : Word) : List Byte :=
  match t with
  | .w => splitWord e v
  | .h => splitHalf e (v.extractLsb' 0 16)
  | .b => [v.extractLsb' 0 8]

/-- `MemWrite(ea, n, v)` made ready: aligned, admitted, its bytes laid out (R63, R66, R68, R72). -/
def State.memStore (s : State) (ea : Word) (t : StoreType) (v : Word) : Except Stop Store := do
  s.access ea (storeLen t)
  .ok ⟨ea, storeBytes s.cfg.endian t v⟩

/-! ### The end of a step (10_state.md R31 steps 4 to 8) -/

/-- What an instruction's rule yields (R31 step 4): at most one time-2 register write, a flag write, one late write, one
store. A jump is a write to register 2. `drew` says that the flag write used a free value (60_exceptions.md R353). -/
structure Effect where
  write : Option RegWrite := none
  flags : Option Flags := none
  late : Option RegWrite := none
  store : Option Store := none
  drew : Bool := false
deriving DecidableEq, Repr

/-- The memory after a step (R31 step 5). -/
def memAfter (m : Memory) : Option Store → Memory
  | none => m
  | some st => m.setBytes st.addr.toNat st.bytes

/-- The fetch address of the instruction after next: the jump target if a write to register 2 lands, else the next in
sequence, modulo 2^32 (R31 step 7, R36, R37). -/
def nextFetch (fa1 : Word) (late write : Option RegWrite) : Word :=
  match pcTarget write with
  | some t => t
  | none =>
    match pcTarget late with
    | some t => t
    | none => fa1 + 4#32

/-- The state after a step that is not refused: the pending late write and the instruction's time-2 writes land together,
fetch advances, the instruction's late write becomes the pending one (R31 steps 5 to 8, 20_memory.md R74). -/
def State.advance (s : State) (e : Effect) : State :=
  { s with
    regs := writeReg? (writeReg? s.regs s.late) e.write
    flags := e.flags.getD s.flags
    fa0 := s.fa1
    fa1 := nextFetch s.fa1 s.late e.write
    late := e.late
    store1 := e.store.map Store.span
    store2 := s.store1
    mem := memAfter s.mem e.store
    draws := if e.drew then s.draws + 1 else s.draws }

/-- A write to register 2 gives it a multiple of 4 (R36). -/
def pcAligned (w : Option RegWrite) : Bool :=
  match pcTarget w with
  | some t => aligned t 4
  | none => true

/-- A write to register 2 that `SHADOW_JUMP_POLICY` refuses: `fa1` is not `fa0` + 4, so the instruction stands in the shadow of a
taken jump (R38, D27). -/
def State.barsJump (s : State) (w : Option RegWrite) : Bool :=
  (pcTarget w).isSome && s.cfg.shadowJump == .refuse && s.fa1 != s.fa0 + 4#32

/-- A write that `REG_CONST` refuses: it gives R0 or R1 a value that differs from the register's content (R24, D2). -/
def State.barsConst (s : State) (w : Option RegWrite) : Bool :=
  s.cfg.regConst == .zeroOnes && w.any (fun w => (w.reg == 0#5 || w.reg == 1#5) && w.val != s.reg w.reg)

/-- Why the writes of an effect are refused, if they are: two meet in one register (R35), the pc would be misaligned (R36), a jump
stands in a shadow (R38), R0 or R1 would change (R24). A late write is checked when it is issued (log 11). -/
def State.objection (s : State) (e : Effect) : Option Refusal :=
  if collide s.late e.write then some .writeCollision
  else if !pcAligned e.write || !pcAligned e.late then some .pcMisaligned
  else if s.barsJump e.write || s.barsJump e.late then some .shadowJump
  else if s.barsConst e.write || s.barsConst e.late then some .constantRegister
  else none

/-- The end of a step: `refuse` if there is an objection to its writes, else the next state (R31 steps 6 to 8). -/
def State.commit (s : State) (e : Effect) : Host.Outcome State Fault Refusal :=
  match s.objection e with
  | some r => .refused r
  | none => .next (s.advance e)

/-- A meaning: its effect commits, or the step stops with no effect at all (60_exceptions.md R354). -/
def State.finish (s : State) (e : Except Stop Effect) : Host.Outcome State Fault Refusal :=
  match e with
  | .ok e => s.commit e
  | .error r => r.outcome

/-! ### Register fields that are refused (60_exceptions.md R351 rows 5 to 7) -/

/-- No field names register 31 (10_state.md R23). -/
def allowRegs (rs : List RegNum) : Except Stop Unit := require (rs.all (· != isrReg)) .register31

/-- Rd "may not be 2 (pc) or 31 (isr)" (42_rrr.md R213, 43_rm.md R233). -/
def allowRd (rd : RegNum) : Except Stop Unit := require (rd != pcReg && rd != isrReg) .prohibitedRd

/-- `Q` = 1 with Rs1 = 2 is refused (43_rm.md R233, D39). -/
def allowBase (q : Bool) (rs1 : RegNum) : Except Stop Unit := require (!(q && rs1 == pcReg)) .pcBaseUpdate

/-! ### Fetch (20_memory.md R64, R74) -/

/-- The bytes of a span overlap the four bytes of the word at `a`. -/
def Span.overlaps (sp : Span) (a : Word) : Bool :=
  decide (sp.addr.toNat < a.toNat + 4 ∧ a.toNat < sp.addr.toNat + sp.len)

/-- One of the two preceding instructions stored to the word at `a` (R74). -/
def State.storedRecently (s : State) (a : Word) : Bool :=
  s.store1.any (·.overlaps a) || s.store2.any (·.overlaps a)

/-- The instruction word at `fa0` (R31 step 1, R64, R74). -/
def State.fetch (s : State) : Except Stop Word := do
  require (!s.storedRecently s.fa0) .fetchAfterStore
  s.readWord s.fa0

/-- The state with a word stored where the next fetch reads, and what the fetch needs for it to be read: `fa0` a multiple
of 4, its bytes admitted by `MEM_MAP`, and no store of the two preceding instructions over them. -/
def State.placeWord (s : State) (w : Word) : State :=
  let a := s.fa0 &&& 0xFFFFFFFC#32
  { s with
    fa0 := a
    mem := s.mem.setBytes a.toNat (splitWord s.cfg.endian w)
    cfg := if Config.admitsRun s.cfg a.toNat 4 then s.cfg else { s.cfg with memMap := ⟨a.toNat, 4⟩ :: s.cfg.memMap }
    store1 := s.store1.filter (fun sp => !sp.overlaps a)
    store2 := s.store2.filter (fun sp => !sp.overlaps a) }

end Sys2Proof.Machine
end

