-- ==== Sys2Proof/Machine/Flags.lean ====
section
/-! DEFINITION. The ALU operations every format shares and the flags they give (40_ri.md R141 to R148, 41_rr.md R181,
42_rrr.md R201). -/

namespace Sys2Proof.Machine

/-- The nine operations of RR and of the address operation of RRM (41_rr.md R180 to R190). -/
inductive AluOp where
  | add | addc | sub | subb | and | or | xor
  /-- logical shift -/
  | sh
  /-- arithmetic shift -/
  | sha
deriving DecidableEq, Repr

/-- What an operation makes of the C flag when the flags are written (R146). -/
inductive CarryRule where
  /-- C becomes this bit -/
  | is (b : Bool)
  /-- C is left as it was (RR logic) -/
  | keep
  /-- `draw` from both values: left shift by 0 (`SHL0_C`, D10) -/
  | anyBit
  /-- `draw` from 0 and the old C: RRR logic (`RRR_LOGIC_C`, D12) -/
  | zeroOrOld
deriving DecidableEq, Repr

/-- The C flag a rule gives, from the old C and a free bit (60_exceptions.md R353). -/
def CarryRule.apply (old free : Bool) : CarryRule → Bool
  | .is b => b
  | .keep => old
  | .anyBit => free
  | .zeroOrOld => free && old

/-- The rule uses a free bit. -/
def CarryRule.draws : CarryRule → Bool
  | .is _ => false
  | .keep => false
  | .anyBit => true
  | .zeroOrOld => true

/-- The result of an operation, its overflow and its carry rule. -/
structure AluOut where
  r : Word
  ovf : Bool
  carry : CarryRule
deriving DecidableEq, Repr

/-- `a + b' + cin` as an integer, wrapped; carry out and overflow of that sum (R141, R145; D6, D7, log 25). -/
def addWithCarry (a b' : Word) (cin : Bool) : AluOut :=
  let t := a.toNat + b'.toNat + cin.toNat
  let r := BitVec.ofNat 32 t
  ⟨r, a.msb == b'.msb && r.msb != a.msb, .is (decide (4294967296 ≤ t))⟩

/-- A shift by the signed amount `b`: left for 0 to 31, right for -1 to -31, no other amount defined (R142). An arithmetic
right shift copies bit 31 down (D9, log 26). -/
def shift (arithmetic : Bool) (a b : Word) : Option AluOut :=
  if 0 ≤ b.toInt ∧ b.toInt ≤ 31 then
    let n := b.toInt.toNat
    some ⟨a <<< n, false, if n = 0 then .anyBit else .is (a.getLsbD (32 - n))⟩
  else if -31 ≤ b.toInt ∧ b.toInt ≤ -1 then
    let m := (-b.toInt).toNat
    some ⟨if arithmetic then a.sshiftRight m else a >>> m, false, .is false⟩
  else none

/-- An operation on `a` and `b` with the C flag `c`; `logic` is the format's carry rule for and, or, xor (R141, R142, R146,
R148). -/
def alu (op : AluOp) (logic : CarryRule) (a b : Word) (c : Bool) : Option AluOut :=
  match op with
  | .add => some (addWithCarry a b false)
  | .addc => some (addWithCarry a b c)
  | .sub => some (addWithCarry a (~~~b) true)
  | .subb => some (addWithCarry a (~~~b) c)
  | .and => some ⟨a &&& b, false, logic⟩
  | .or => some ⟨a ||| b, false, logic⟩
  | .xor => some ⟨a ^^^ b, false, logic⟩
  | .sh => shift false a b
  | .sha => shift true a b

/-- The operation's value only, as op1 of RRR and the address operation of RRM use it: its carry and overflow go nowhere
(42_rrr.md R201, 44_rrm.md R251). -/
def aluValue (op : AluOp) (a b : Word) (c : Bool) : Except Stop Word :=
  match alu op .keep a b c with
  | some o => .ok o.r
  | none => .error (.refuse .shiftRange)

/-- The flags an operation's result writes (R143 to R146). -/
def AluOut.flags (o : AluOut) (old : Flags) (free : Bool) : Flags :=
  ⟨o.r == 0#32, o.r.msb, o.ovf, o.carry.apply old.c free⟩

/-- The effect of an ALU instruction: `Rd <- a op b` at time 2 and, if and only if `F` is 1, the flags (R140, R147). -/
def State.aluEffect (s : State) (logic : CarryRule) (op : AluOp) (rd : RegNum) (f : Bool) (a b : Word) : Except Stop Effect :=
  match alu op logic a b s.flags.c with
  | none => .error (.refuse .shiftRange)
  | some o =>
    .ok { write := some ⟨rd, o.r⟩
          flags := if f then some (o.flags s.flags (Config.freeBit s.draws)) else none
          drew := f && o.carry.draws }

/-- The condition table (45_br.md R292). -/
def Cond.holds (c : Cond) (fl : Flags) : Bool :=
  match c with
  | .t => true
  | .f => false
  | .hi => fl.c && !fl.z
  | .ls => !fl.c || fl.z
  | .cc => !fl.c
  | .cs => fl.c
  | .ne => !fl.z
  | .eq => fl.z
  | .vc => !fl.v
  | .vs => fl.v
  | .pl => !fl.n
  | .mi => fl.n
  | .ge => (fl.n && fl.v) || (!fl.n && !fl.v)
  | .lt => (fl.n && !fl.v) || (!fl.n && fl.v)
  | .gt => (fl.n && fl.v && !fl.z) || (!fl.n && !fl.v && !fl.z)
  | .le => fl.z || (fl.n && !fl.v) || (!fl.n && fl.v)

end Sys2Proof.Machine
end

