-- ==== Sys2Proof/Machine/Operands.lean ====
section
/-! DEFINITION. How operands, effective addresses and branch targets are formed (30_encoding.md R113, 43_rm.md R231,
44_rrm.md R251, 45_br.md R290, 47_sls_sli.md R315), and the shape each family of instructions shares. -/

namespace Sys2Proof.Machine

/-! ### Constants (30_encoding.md R113) -/

/-- The constant of add, addc, sub, subb, or, xor in RI: the other halfword is 0x0000. -/
def riConst (h : Bool) (k : BitVec 16) : Word := if h then k ++ 0#16 else 0#16 ++ k

/-- The constant of and in RI: the other halfword is 0xFFFF. -/
def riConstAnd (h : Bool) (k : BitVec 16) : Word := if h then k ++ 0xFFFF#16 else 0xFFFF#16 ++ k

/-- The target of an absolute branch: 4 times the zero-extended constant. -/
def absTarget (k : BitVec 23) : Word := (k ++ 0#2).setWidth 32

/-- The offset of a relative branch: 4 times the sign-extended constant. -/
def relOffset (k : BitVec 23) : Word := (k ++ 0#2).signExtend 32

/-- The address of SLS: zero-extended, its two low-order bits ignored (47_sls_sli.md R315). -/
def slsAddr (a : BitVec 21) : Word := a.setWidth 32 &&& 0xFFFFFFFC#32

/-! ### Effective address and base update (43_rm.md R231) -/

/-- `P` puts the sum into the effective address. -/
def effAddr (p : Bool) (base sum : Word) : Word := if p then sum else base

/-- `Q` writes the sum back to Rs1 at time 2. -/
def baseUpdate (q : Bool) (rs1 : RegNum) (sum : Word) : Option RegWrite := if q then some ⟨rs1, sum⟩ else none

/-- The address sum of RRM; with `PQ` = 00 the operation is not performed (44_rrm.md R251). -/
def State.addrSum (s : State) (op : AluOp) (p q : Bool) (a b : Word) : Except Stop Word :=
  if p || q then aluValue op a b s.flags.c else .ok a

/-! ### Families -/

/-- An RI instruction: and, or, xor clear C (40_ri.md R140, R146). -/
def State.ri (s : State) (op : AluOp) (rd rs1 : RegNum) (f : Bool) (b : Word) : Host.Outcome State Fault Refusal :=
  s.finish do
    allowRegs [rd, rs1]
    s.aluEffect (.is false) op rd f (s.x rs1) b

/-- An RR instruction: and, or, xor leave C (41_rr.md R180, R181). -/
def State.rr (s : State) (op : AluOp) (rd rs1 rs2 : RegNum) (f : Bool) : Host.Outcome State Fault Refusal :=
  s.finish do
    allowRegs [rd, rs1, rs2]
    s.aluEffect .keep op rd f (s.x rs1) (s.x rs2)

/-- The ALU operation op1 names (42_rrr.md R202). -/
def Op1.alu : Op1 → AluOp
  | .add => .add
  | .addc => .addc
  | .sub => .sub
  | .subb => .subb
  | .and => .and
  | .or => .or
  | .xor => .xor
  | .sha => .sha

/-- An RRR instruction: the right operand is `Rs2 op1 Rs3`, both operations read the same C, op1 writes no flag, and after
and, or, xor C is 0 or the old C (42_rrr.md R200 to R203). -/
def State.rrr (s : State) (op2 : AluOp) (rd rs1 rs2 rs3 : RegNum) (op1 : Op1) (f : Bool) : Host.Outcome State Fault Refusal :=
  s.finish do
    allowRd rd
    allowRegs [rs1, rs2, rs3]
    let t ← aluValue (Op1.alu op1) (s.x rs2) (s.x rs3) s.flags.c
    s.aluEffect .zeroOrOld op2 rd f (s.x rs1) t

/-- The effect of a load: the base update at time 2, the datum at time 3 (43_rm.md R232, R234). -/
def State.loadEffect (s : State) (rd rs1 : RegNum) (p q : Bool) (sum : Word) (t : LoadType) : Except Stop Effect := do
  let v ← s.memLoad (effAddr p (s.x rs1) sum) t
  .ok { write := baseUpdate q rs1 sum, late := some ⟨rd, v⟩ }

/-- The effect of a store: Rd is read after time 1, the base update is at time 2 (43_rm.md R232, R235). -/
def State.storeEffect (s : State) (rd rs1 : RegNum) (p q : Bool) (sum : Word) (t : StoreType) : Except Stop Effect := do
  let st ← s.memStore (effAddr p (s.x rs1) sum) t (s.x rd)
  .ok { write := baseUpdate q rs1 sum, store := some st }

/-- A load at Rs1 and a constant: RM and SPLS (43_rm.md R234, 48_spls.md R333). -/
def State.loadConst (s : State) (rd rs1 : RegNum) (p q : Bool) (k : Word) (t : LoadType) : Host.Outcome State Fault Refusal :=
  s.finish do
    allowRd rd
    allowRegs [rs1]
    allowBase q rs1
    s.loadEffect rd rs1 p q (s.x rs1 + k) t

/-- A store at Rs1 and a constant: RM and SPLS (43_rm.md R235, 48_spls.md R333). -/
def State.storeConst (s : State) (rd rs1 : RegNum) (p q : Bool) (k : Word) (t : StoreType) : Host.Outcome State Fault Refusal :=
  s.finish do
    allowRd rd
    allowRegs [rs1]
    allowBase q rs1
    s.storeEffect rd rs1 p q (s.x rs1 + k) t

/-- `rrm(0, op)` (44_rrm.md R254). -/
def State.rrmLoad (s : State) (op : AluOp) (rd rs1 rs2 : RegNum) (p q : Bool) (t : LoadType) : Host.Outcome State Fault Refusal :=
  s.finish do
    allowRd rd
    allowRegs [rs1, rs2]
    allowBase q rs1
    let sum ← s.addrSum op p q (s.x rs1) (s.x rs2)
    s.loadEffect rd rs1 p q sum t

/-- `rrm(1, op)` (44_rrm.md R254). -/
def State.rrmStore (s : State) (op : AluOp) (rd rs1 rs2 : RegNum) (p q : Bool) (t : StoreType) : Host.Outcome State Fault Refusal :=
  s.finish do
    allowRd rd
    allowRegs [rs1, rs2]
    allowBase q rs1
    let sum ← s.addrSum op p q (s.x rs1) (s.x rs2)
    s.storeEffect rd rs1 p q sum t

/-- A write to the pc if the condition holds, one shadow (45_br.md R291, R294, 10_state.md R36). -/
def State.branchEffect (s : State) (cond : Cond) (target : Word) : Effect :=
  { write := if Cond.holds cond s.flags then some ⟨pcReg, target⟩ else none }

end Sys2Proof.Machine
end

