-- ==== Sys2Proof/Machine/Br.lean ====
section
/-! DEFINITION. The meanings of the conditional branches: BR (45_br.md R294, R295) and SBR (49_sbr.md R345). -/

namespace Sys2Proof.Machine

/-- BR_ABS (R294). -/
def execBrAbs (cond : Cond) (k : BitVec 23) (s : State) : Host.Outcome State Fault Refusal :=
  s.finish (.ok (s.branchEffect cond (absTarget k)))

/-- BR_REL (R295): relative to the value read from register 2. -/
def execBrRel (cond : Cond) (k : BitVec 23) (s : State) : Host.Outcome State Fault Refusal :=
  s.finish (.ok (s.branchEffect cond (s.x pcReg + relOffset k)))

/-- SBR (R345): a misaligned sum is refused only when the branch is taken. -/
def execSbr (cond : Cond) (rs1 rs3 : RegNum) (s : State) : Host.Outcome State Fault Refusal :=
  s.finish do
    allowRegs [rs1, rs3]
    .ok (s.branchEffect cond (s.x rs1 + s.x rs3))

end Sys2Proof.Machine
end

