-- ==== Sys2Proof/Machine/Punt.lean ====
section
/-! DEFINITION. The meaning of PUNT (46_punt.md R310): the context it switches to is in no source, so "the model must
refuse PUNT". `State.ctx` keeps the one bit the source gives (10_state.md R28). -/

namespace Sys2Proof.Machine

/-- PUNT (R310, R351 row 8). -/
def execPunt (s : State) : Host.Outcome State Fault Refusal :=
  s.finish (.error (.refuse .contextSwitch))

end Sys2Proof.Machine
end

