-- ==== Sys2Proof/Machine/Ri.lean ====
section
/-! DEFINITION. The meanings of the Register Immediate instructions (40_ri.md R150 to R160). With Rd = 2 each is a jump with one
shadow (R160): its write to register 2 lands as `State.advance` says. -/

namespace Sys2Proof.Machine

/-- ADD_RI (R150). -/
def execAddRi (rd rs1 : RegNum) (f h : Bool) (k : BitVec 16) (s : State) : Host.Outcome State Fault Refusal :=
  s.ri .add rd rs1 f (riConst h k)

/-- ADDC_RI (R151). -/
def execAddcRi (rd rs1 : RegNum) (f h : Bool) (k : BitVec 16) (s : State) : Host.Outcome State Fault Refusal :=
  s.ri .addc rd rs1 f (riConst h k)

/-- SUB_RI (R152). -/
def execSubRi (rd rs1 : RegNum) (f h : Bool) (k : BitVec 16) (s : State) : Host.Outcome State Fault Refusal :=
  s.ri .sub rd rs1 f (riConst h k)

/-- SUBB_RI (R153). -/
def execSubbRi (rd rs1 : RegNum) (f h : Bool) (k : BitVec 16) (s : State) : Host.Outcome State Fault Refusal :=
  s.ri .subb rd rs1 f (riConst h k)

/-- AND_RI (R154). -/
def execAndRi (rd rs1 : RegNum) (f h : Bool) (k : BitVec 16) (s : State) : Host.Outcome State Fault Refusal :=
  s.ri .and rd rs1 f (riConstAnd h k)

/-- OR_RI (R155). -/
def execOrRi (rd rs1 : RegNum) (f h : Bool) (k : BitVec 16) (s : State) : Host.Outcome State Fault Refusal :=
  s.ri .or rd rs1 f (riConst h k)

/-- XOR_RI (R156). -/
def execXorRi (rd rs1 : RegNum) (f h : Bool) (k : BitVec 16) (s : State) : Host.Outcome State Fault Refusal :=
  s.ri .xor rd rs1 f (riConst h k)

/-- SH_RI (R157): the amount is the sign-extended constant. -/
def execShRi (rd rs1 : RegNum) (f : Bool) (k : BitVec 16) (s : State) : Host.Outcome State Fault Refusal :=
  s.ri .sh rd rs1 f (k.signExtend 32)

/-- SHA_RI (R158): the amount is the sign-extended constant. -/
def execShaRi (rd rs1 : RegNum) (f : Bool) (k : BitVec 16) (s : State) : Host.Outcome State Fault Refusal :=
  s.ri .sha rd rs1 f (k.signExtend 32)

end Sys2Proof.Machine
end

