-- ==== Sys2Proof/Machine/Rm.lean ====
section
/-! DEFINITION. The meanings of the Register Memory load and store (43_rm.md R234, R235): a fullword (R230). -/

namespace Sys2Proof.Machine

/-- LD_RM (R234). -/
def execLdRm (rd rs1 : RegNum) (p q : Bool) (k : BitVec 16) (s : State) : Host.Outcome State Fault Refusal :=
  s.loadConst rd rs1 p q (k.signExtend 32) .w

/-- ST_RM (R235). -/
def execStRm (rd rs1 : RegNum) (p q : Bool) (k : BitVec 16) (s : State) : Host.Outcome State Fault Refusal :=
  s.storeConst rd rs1 p q (k.signExtend 32) .w

end Sys2Proof.Machine
end

