-- ==== Sys2Proof/Machine/Rr.lean ====
section
/-! DEFINITION. The meanings of the Register Register instructions (41_rr.md R182 to R191). With Rd = 2 each is a jump with one
shadow (R191). -/

namespace Sys2Proof.Machine

/-- ADD_RR (R182). -/
def execAddRr (rd rs1 rs2 : RegNum) (f : Bool) (s : State) : Host.Outcome State Fault Refusal :=
  s.rr .add rd rs1 rs2 f

/-- ADDC_RR (R183). -/
def execAddcRr (rd rs1 rs2 : RegNum) (f : Bool) (s : State) : Host.Outcome State Fault Refusal :=
  s.rr .addc rd rs1 rs2 f

/-- SUB_RR (R184). -/
def execSubRr (rd rs1 rs2 : RegNum) (f : Bool) (s : State) : Host.Outcome State Fault Refusal :=
  s.rr .sub rd rs1 rs2 f

/-- SUBB_RR (R185). -/
def execSubbRr (rd rs1 rs2 : RegNum) (f : Bool) (s : State) : Host.Outcome State Fault Refusal :=
  s.rr .subb rd rs1 rs2 f

/-- AND_RR (R186). -/
def execAndRr (rd rs1 rs2 : RegNum) (f : Bool) (s : State) : Host.Outcome State Fault Refusal :=
  s.rr .and rd rs1 rs2 f

/-- OR_RR (R187). -/
def execOrRr (rd rs1 rs2 : RegNum) (f : Bool) (s : State) : Host.Outcome State Fault Refusal :=
  s.rr .or rd rs1 rs2 f

/-- XOR_RR (R188). -/
def execXorRr (rd rs1 rs2 : RegNum) (f : Bool) (s : State) : Host.Outcome State Fault Refusal :=
  s.rr .xor rd rs1 rs2 f

/-- SH_RR (R189). -/
def execShRr (rd rs1 rs2 : RegNum) (f : Bool) (s : State) : Host.Outcome State Fault Refusal :=
  s.rr .sh rd rs1 rs2 f

/-- SHA_RR (R190). -/
def execShaRr (rd rs1 rs2 : RegNum) (f : Bool) (s : State) : Host.Outcome State Fault Refusal :=
  s.rr .sha rd rs1 rs2 f

end Sys2Proof.Machine
end

