-- ==== Sys2Proof/Machine/Rrm.lean ====
section
/-! DEFINITION. The meanings of the Register Register Memory loads and stores (44_rrm.md R254 to R273). With a shift as the
address operation the access is a fullword (R252). -/

namespace Sys2Proof.Machine

/-- LD_RRM_ADD (R256). -/
def execLdRrmAdd (rd rs1 rs2 : RegNum) (p q : Bool) (t : LoadType) (s : State) : Host.Outcome State Fault Refusal :=
  s.rrmLoad .add rd rs1 rs2 p q t

/-- LD_RRM_ADDC (R257). -/
def execLdRrmAddc (rd rs1 rs2 : RegNum) (p q : Bool) (t : LoadType) (s : State) : Host.Outcome State Fault Refusal :=
  s.rrmLoad .addc rd rs1 rs2 p q t

/-- LD_RRM_SUB (R258). -/
def execLdRrmSub (rd rs1 rs2 : RegNum) (p q : Bool) (t : LoadType) (s : State) : Host.Outcome State Fault Refusal :=
  s.rrmLoad .sub rd rs1 rs2 p q t

/-- LD_RRM_SUBB (R259). -/
def execLdRrmSubb (rd rs1 rs2 : RegNum) (p q : Bool) (t : LoadType) (s : State) : Host.Outcome State Fault Refusal :=
  s.rrmLoad .subb rd rs1 rs2 p q t

/-- LD_RRM_AND (R260). -/
def execLdRrmAnd (rd rs1 rs2 : RegNum) (p q : Bool) (t : LoadType) (s : State) : Host.Outcome State Fault Refusal :=
  s.rrmLoad .and rd rs1 rs2 p q t

/-- LD_RRM_OR (R261). -/
def execLdRrmOr (rd rs1 rs2 : RegNum) (p q : Bool) (t : LoadType) (s : State) : Host.Outcome State Fault Refusal :=
  s.rrmLoad .or rd rs1 rs2 p q t

/-- LD_RRM_XOR (R262). -/
def execLdRrmXor (rd rs1 rs2 : RegNum) (p q : Bool) (t : LoadType) (s : State) : Host.Outcome State Fault Refusal :=
  s.rrmLoad .xor rd rs1 rs2 p q t

/-- LD_RRM_SH (R263). -/
def execLdRrmSh (rd rs1 rs2 : RegNum) (p q : Bool) (s : State) : Host.Outcome State Fault Refusal :=
  s.rrmLoad .sh rd rs1 rs2 p q .w

/-- LD_RRM_SHA (R264). -/
def execLdRrmSha (rd rs1 rs2 : RegNum) (p q : Bool) (s : State) : Host.Outcome State Fault Refusal :=
  s.rrmLoad .sha rd rs1 rs2 p q .w

/-- ST_RRM_ADD (R265). -/
def execStRrmAdd (rd rs1 rs2 : RegNum) (p q : Bool) (t : StoreType) (s : State) : Host.Outcome State Fault Refusal :=
  s.rrmStore .add rd rs1 rs2 p q t

/-- ST_RRM_ADDC (R266). -/
def execStRrmAddc (rd rs1 rs2 : RegNum) (p q : Bool) (t : StoreType) (s : State) : Host.Outcome State Fault Refusal :=
  s.rrmStore .addc rd rs1 rs2 p q t

/-- ST_RRM_SUB (R267). -/
def execStRrmSub (rd rs1 rs2 : RegNum) (p q : Bool) (t : StoreType) (s : State) : Host.Outcome State Fault Refusal :=
  s.rrmStore .sub rd rs1 rs2 p q t

/-- ST_RRM_SUBB (R268). -/
def execStRrmSubb (rd rs1 rs2 : RegNum) (p q : Bool) (t : StoreType) (s : State) : Host.Outcome State Fault Refusal :=
  s.rrmStore .subb rd rs1 rs2 p q t

/-- ST_RRM_AND (R269). -/
def execStRrmAnd (rd rs1 rs2 : RegNum) (p q : Bool) (t : StoreType) (s : State) : Host.Outcome State Fault Refusal :=
  s.rrmStore .and rd rs1 rs2 p q t

/-- ST_RRM_OR (R270). -/
def execStRrmOr (rd rs1 rs2 : RegNum) (p q : Bool) (t : StoreType) (s : State) : Host.Outcome State Fault Refusal :=
  s.rrmStore .or rd rs1 rs2 p q t

/-- ST_RRM_XOR (R271). -/
def execStRrmXor (rd rs1 rs2 : RegNum) (p q : Bool) (t : StoreType) (s : State) : Host.Outcome State Fault Refusal :=
  s.rrmStore .xor rd rs1 rs2 p q t

/-- ST_RRM_SH (R272). -/
def execStRrmSh (rd rs1 rs2 : RegNum) (p q : Bool) (s : State) : Host.Outcome State Fault Refusal :=
  s.rrmStore .sh rd rs1 rs2 p q .w

/-- ST_RRM_SHA (R273). -/
def execStRrmSha (rd rs1 rs2 : RegNum) (p q : Bool) (s : State) : Host.Outcome State Fault Refusal :=
  s.rrmStore .sha rd rs1 rs2 p q .w

end Sys2Proof.Machine
end

