-- ==== Sys2Proof/Machine/Rrr.lean ====
section
/-! DEFINITION. The meanings of the three-register instructions (42_rrr.md R204 to R213), named by op2. -/

namespace Sys2Proof.Machine

/-- ADD_RRR (R204). -/
def execAddRrr (rd rs1 rs2 rs3 : RegNum) (op1 : Op1) (f : Bool) (s : State) : Host.Outcome State Fault Refusal :=
  s.rrr .add rd rs1 rs2 rs3 op1 f

/-- ADDC_RRR (R205). -/
def execAddcRrr (rd rs1 rs2 rs3 : RegNum) (op1 : Op1) (f : Bool) (s : State) : Host.Outcome State Fault Refusal :=
  s.rrr .addc rd rs1 rs2 rs3 op1 f

/-- SUB_RRR (R206). -/
def execSubRrr (rd rs1 rs2 rs3 : RegNum) (op1 : Op1) (f : Bool) (s : State) : Host.Outcome State Fault Refusal :=
  s.rrr .sub rd rs1 rs2 rs3 op1 f

/-- SUBB_RRR (R207). -/
def execSubbRrr (rd rs1 rs2 rs3 : RegNum) (op1 : Op1) (f : Bool) (s : State) : Host.Outcome State Fault Refusal :=
  s.rrr .subb rd rs1 rs2 rs3 op1 f

/-- AND_RRR (R208). -/
def execAndRrr (rd rs1 rs2 rs3 : RegNum) (op1 : Op1) (f : Bool) (s : State) : Host.Outcome State Fault Refusal :=
  s.rrr .and rd rs1 rs2 rs3 op1 f

/-- OR_RRR (R209). -/
def execOrRrr (rd rs1 rs2 rs3 : RegNum) (op1 : Op1) (f : Bool) (s : State) : Host.Outcome State Fault Refusal :=
  s.rrr .or rd rs1 rs2 rs3 op1 f

/-- XOR_RRR (R210). -/
def execXorRrr (rd rs1 rs2 rs3 : RegNum) (op1 : Op1) (f : Bool) (s : State) : Host.Outcome State Fault Refusal :=
  s.rrr .xor rd rs1 rs2 rs3 op1 f

/-- SH_RRR (R211). -/
def execShRrr (rd rs1 rs2 rs3 : RegNum) (op1 : Op1) (f : Bool) (s : State) : Host.Outcome State Fault Refusal :=
  s.rrr .sh rd rs1 rs2 rs3 op1 f

/-- SHA_RRR (R212). -/
def execShaRrr (rd rs1 rs2 rs3 : RegNum) (op1 : Op1) (f : Bool) (s : State) : Host.Outcome State Fault Refusal :=
  s.rrr .sha rd rs1 rs2 rs3 op1 f

end Sys2Proof.Machine
end

