-- ==== Sys2Proof/Machine/Sls.lean ====
section
/-! DEFINITION. The meanings of SLS, the fullword load and store at a 21-bit address, and of SLI, the load of a 21-bit
constant (47_sls_sli.md R316, R317, R320). -/

namespace Sys2Proof.Machine

/-- LD_SLS (R316). -/
def execLdSls (rd : RegNum) (addr : BitVec 21) (s : State) : Host.Outcome State Fault Refusal :=
  s.finish do
    allowRd rd
    let v ← s.memLoad (slsAddr addr) .w
    .ok { late := some ⟨rd, v⟩ }

/-- ST_SLS (R317). -/
def execStSls (rd : RegNum) (addr : BitVec 21) (s : State) : Host.Outcome State Fault Refusal :=
  s.finish do
    allowRd rd
    let st ← s.memStore (slsAddr addr) .w (s.x rd)
    .ok { store := some st }

/-- SLI (R320): a late write, as an RM load (D28, log 12); with Rd = 2 a jump with two shadows, or a refusal, as `SLI_PC_POLICY`
says (log 11). -/
def execSli (rd : RegNum) (k : BitVec 21) (s : State) : Host.Outcome State Fault Refusal :=
  s.finish do
    allowRegs [rd]
    require (!(rd == pcReg && s.cfg.sliPc == .refuse)) .sliToPc
    .ok { late := some ⟨rd, k.setWidth 32⟩ }

end Sys2Proof.Machine
end

