-- ==== Sys2Proof/Machine/Spls.lean ====
section
/-! DEFINITION. The meanings of the part-word loads and stores with a 10-bit constant (48_spls.md R333 to R337). -/

namespace Sys2Proof.Machine

/-- LDH_SPLS (R334). -/
def execLdhSpls (rd rs1 : RegNum) (e p q : Bool) (k : BitVec 10) (s : State) : Host.Outcome State Fault Refusal :=
  s.loadConst rd rs1 p q (k.signExtend 32) (if e then .hz else .h)

/-- LDB_SPLS (R335). -/
def execLdbSpls (rd rs1 : RegNum) (e p q : Bool) (k : BitVec 10) (s : State) : Host.Outcome State Fault Refusal :=
  s.loadConst rd rs1 p q (k.signExtend 32) (if e then .bz else .b)

/-- STH_SPLS (R336). -/
def execSthSpls (rd rs1 : RegNum) (p q : Bool) (k : BitVec 10) (s : State) : Host.Outcome State Fault Refusal :=
  s.storeConst rd rs1 p q (k.signExtend 32) .h

/-- STB_SPLS (R337). -/
def execStbSpls (rd rs1 : RegNum) (p q : Bool) (k : BitVec 10) (s : State) : Host.Outcome State Fault Refusal :=
  s.storeConst rd rs1 p q (k.signExtend 32) .b

end Sys2Proof.Machine
end

