-- ==== Sys2Proof/Machine/Dispatch.lean ====
section
/-! DEFINITION. The meaning of every instruction: one arm for each row of `spec/opcode_table.json`. -/

namespace Sys2Proof.Machine

/-- What an instruction does to the state (10_state.md R31 steps 3 to 8). -/
def exec (i : Instr) (s : State) : Host.Outcome State Fault Refusal :=
  match i with
    -- RI, Register Immediate: 30_encoding.md R102, 40_ri.md
  | .addRi rd rs1 f h k => Sys2Proof.Machine.execAddRi rd rs1 f h k s
  | .addcRi rd rs1 f h k => Sys2Proof.Machine.execAddcRi rd rs1 f h k s
  | .subRi rd rs1 f h k => Sys2Proof.Machine.execSubRi rd rs1 f h k s
  | .subbRi rd rs1 f h k => Sys2Proof.Machine.execSubbRi rd rs1 f h k s
  | .andRi rd rs1 f h k => Sys2Proof.Machine.execAndRi rd rs1 f h k s
  | .orRi rd rs1 f h k => Sys2Proof.Machine.execOrRi rd rs1 f h k s
  | .xorRi rd rs1 f h k => Sys2Proof.Machine.execXorRi rd rs1 f h k s
  | .shRi rd rs1 f k => Sys2Proof.Machine.execShRi rd rs1 f k s
  | .shaRi rd rs1 f k => Sys2Proof.Machine.execShaRi rd rs1 f k s
    -- RR, Register Register: R103, 41_rr.md
  | .addRr rd rs1 rs2 f => Sys2Proof.Machine.execAddRr rd rs1 rs2 f s
  | .addcRr rd rs1 rs2 f => Sys2Proof.Machine.execAddcRr rd rs1 rs2 f s
  | .subRr rd rs1 rs2 f => Sys2Proof.Machine.execSubRr rd rs1 rs2 f s
  | .subbRr rd rs1 rs2 f => Sys2Proof.Machine.execSubbRr rd rs1 rs2 f s
  | .andRr rd rs1 rs2 f => Sys2Proof.Machine.execAndRr rd rs1 rs2 f s
  | .orRr rd rs1 rs2 f => Sys2Proof.Machine.execOrRr rd rs1 rs2 f s
  | .xorRr rd rs1 rs2 f => Sys2Proof.Machine.execXorRr rd rs1 rs2 f s
  | .shRr rd rs1 rs2 f => Sys2Proof.Machine.execShRr rd rs1 rs2 f s
  | .shaRr rd rs1 rs2 f => Sys2Proof.Machine.execShaRr rd rs1 rs2 f s
    -- RRR, three-register: R104, 42_rrr.md
  | .addRrr rd rs1 rs2 rs3 op1 f => Sys2Proof.Machine.execAddRrr rd rs1 rs2 rs3 op1 f s
  | .addcRrr rd rs1 rs2 rs3 op1 f => Sys2Proof.Machine.execAddcRrr rd rs1 rs2 rs3 op1 f s
  | .subRrr rd rs1 rs2 rs3 op1 f => Sys2Proof.Machine.execSubRrr rd rs1 rs2 rs3 op1 f s
  | .subbRrr rd rs1 rs2 rs3 op1 f => Sys2Proof.Machine.execSubbRrr rd rs1 rs2 rs3 op1 f s
  | .andRrr rd rs1 rs2 rs3 op1 f => Sys2Proof.Machine.execAndRrr rd rs1 rs2 rs3 op1 f s
  | .orRrr rd rs1 rs2 rs3 op1 f => Sys2Proof.Machine.execOrRrr rd rs1 rs2 rs3 op1 f s
  | .xorRrr rd rs1 rs2 rs3 op1 f => Sys2Proof.Machine.execXorRrr rd rs1 rs2 rs3 op1 f s
  | .shRrr rd rs1 rs2 rs3 op1 f => Sys2Proof.Machine.execShRrr rd rs1 rs2 rs3 op1 f s
  | .shaRrr rd rs1 rs2 rs3 op1 f => Sys2Proof.Machine.execShaRrr rd rs1 rs2 rs3 op1 f s
    -- RM, Register Memory: R105, 43_rm.md
  | .ldRm rd rs1 p q k => Sys2Proof.Machine.execLdRm rd rs1 p q k s
  | .stRm rd rs1 p q k => Sys2Proof.Machine.execStRm rd rs1 p q k s
    -- RRM, Register Register Memory: R106, 44_rrm.md
  | .ldRrmAdd rd rs1 rs2 p q t => Sys2Proof.Machine.execLdRrmAdd rd rs1 rs2 p q t s
  | .ldRrmAddc rd rs1 rs2 p q t => Sys2Proof.Machine.execLdRrmAddc rd rs1 rs2 p q t s
  | .ldRrmSub rd rs1 rs2 p q t => Sys2Proof.Machine.execLdRrmSub rd rs1 rs2 p q t s
  | .ldRrmSubb rd rs1 rs2 p q t => Sys2Proof.Machine.execLdRrmSubb rd rs1 rs2 p q t s
  | .ldRrmAnd rd rs1 rs2 p q t => Sys2Proof.Machine.execLdRrmAnd rd rs1 rs2 p q t s
  | .ldRrmOr rd rs1 rs2 p q t => Sys2Proof.Machine.execLdRrmOr rd rs1 rs2 p q t s
  | .ldRrmXor rd rs1 rs2 p q t => Sys2Proof.Machine.execLdRrmXor rd rs1 rs2 p q t s
  | .ldRrmSh rd rs1 rs2 p q => Sys2Proof.Machine.execLdRrmSh rd rs1 rs2 p q s
  | .ldRrmSha rd rs1 rs2 p q => Sys2Proof.Machine.execLdRrmSha rd rs1 rs2 p q s
  | .stRrmAdd rd rs1 rs2 p q t => Sys2Proof.Machine.execStRrmAdd rd rs1 rs2 p q t s
  | .stRrmAddc rd rs1 rs2 p q t => Sys2Proof.Machine.execStRrmAddc rd rs1 rs2 p q t s
  | .stRrmSub rd rs1 rs2 p q t => Sys2Proof.Machine.execStRrmSub rd rs1 rs2 p q t s
  | .stRrmSubb rd rs1 rs2 p q t => Sys2Proof.Machine.execStRrmSubb rd rs1 rs2 p q t s
  | .stRrmAnd rd rs1 rs2 p q t => Sys2Proof.Machine.execStRrmAnd rd rs1 rs2 p q t s
  | .stRrmOr rd rs1 rs2 p q t => Sys2Proof.Machine.execStRrmOr rd rs1 rs2 p q t s
  | .stRrmXor rd rs1 rs2 p q t => Sys2Proof.Machine.execStRrmXor rd rs1 rs2 p q t s
  | .stRrmSh rd rs1 rs2 p q => Sys2Proof.Machine.execStRrmSh rd rs1 rs2 p q s
  | .stRrmSha rd rs1 rs2 p q => Sys2Proof.Machine.execStRrmSha rd rs1 rs2 p q s
    -- BR, Conditional Branch: R107, 45_br.md
  | .brAbs cond k => Sys2Proof.Machine.execBrAbs cond k s
  | .brRel cond k => Sys2Proof.Machine.execBrRel cond k s
    -- PUNT, the context toggle: R108, 46_punt.md
  | .punt => Sys2Proof.Machine.execPunt s
    -- SLS and SLI: R109, R110, 47_sls_sli.md
  | .ldSls rd addr => Sys2Proof.Machine.execLdSls rd addr s
  | .stSls rd addr => Sys2Proof.Machine.execStSls rd addr s
  | .sli rd k => Sys2Proof.Machine.execSli rd k s
    -- SPLS, part-word load and store: R111, 48_spls.md
  | .ldhSpls rd rs1 e p q k => Sys2Proof.Machine.execLdhSpls rd rs1 e p q k s
  | .ldbSpls rd rs1 e p q k => Sys2Proof.Machine.execLdbSpls rd rs1 e p q k s
  | .sthSpls rd rs1 p q k => Sys2Proof.Machine.execSthSpls rd rs1 p q k s
  | .stbSpls rd rs1 p q k => Sys2Proof.Machine.execStbSpls rd rs1 p q k s
    -- SBR, conditional branch to a register sum: R112, 49_sbr.md
  | .sbr cond rs1 rs3 => Sys2Proof.Machine.execSbr cond rs1 rs3 s

end Sys2Proof.Machine
end

