-- ==== Sys2Proof/Machine/Step.lean ====
section
/-! DEFINITION. One step of the machine (10_state.md R31), and the host's way to place the next instruction. -/

namespace Sys2Proof.Machine

/-- Fetch the word at `fa0`, decode it, execute it (R31); a word that is no instruction is refused (R31 step 2). -/
def step (s : State) : Host.Outcome State Fault Refusal :=
  match s.fetch with
  | .error r => r.outcome
  | .ok w =>
    match decodeWord w with
    | .error e => .refused (.undecodable e)
    | .ok i => exec i s

/-- The state with the word `w` (bits above `nbits` zero) where the next step fetches it. It stands for the loading of a
program from outside the machine (70_reset_and_hazards.md R392, log 7). -/
def State.withFetchWord (s : State) (nbits w : Nat) : State :=
  s.placeWord (BitVec.ofNat 32 (w % 2 ^ nbits))

end Sys2Proof.Machine
end

