-- ==== Sys2Proof/Machine/Run.lean ====
section
/-! DEFINITION. A run: steps from a launch until `END_OF_RUN` (60_exceptions.md R369, 70_reset_and_hazards.md R392). The hardware
has no halt, so `step` itself never ends a run. -/

namespace Sys2Proof.Machine

/-- `END_OF_RUN` is reached in state `s` after `n` steps: the step count, or the fetch address about to be fetched from (R369). -/
def State.over (s : State) (n : Nat) : Bool :=
  match s.cfg.endOfRun with
  | none => false
  | some (.steps k) => k == n
  | some (.fetch a) => s.fa0 == a

/-- Where a run stands. -/
inductive RunResult where
  /-- the run is over; its end state -/
  | ended (s : State)
  /-- the fuel ran out first -/
  | running (s : State)
  /-- a step stopped: nothing is claimed of the run (60_exceptions.md R352) -/
  | stopped (r : Stop)
deriving DecidableEq, Repr

/-- At most `fuel` more steps of a run that has taken `n`, ending where `END_OF_RUN` says (R369). -/
def State.runFrom (fuel n : Nat) (s : State) : RunResult :=
  if s.over n then .ended s
  else
    match fuel with
    | 0 => .running s
    | fuel + 1 =>
      match step s with
      | .next t => State.runFrom fuel (n + 1) t
      | .fault r => .stopped (.fault r)
      | .refused r => .stopped (.refuse r)

/-- A run of at most `fuel` steps from a launch (R392). -/
def Launch.run (l : Launch) (fuel : Nat) : RunResult := l.state.runFrom fuel 0

end Sys2Proof.Machine
end

