-- ==== Sys2Proof/WellFormed.lean ====
section
/-! DEFINITION. Which instruction terms the spec admits: the conditions of 60_exceptions.md R351 rows 5 to 7, which no field
width can express, and unused fields at 0 (30_encoding.md R120). The meanings refuse a term whose registers this file does not
admit, each under the name of its row; an unused field has no effect. -/

namespace Sys2Proof

/-- Every register the instruction names in a register field (10_state.md R25, 30_encoding.md R114). -/
def Instr.regFields : Instr → List RegNum
  | .addRi rd rs1 _ _ _ => [rd, rs1]
  | .addcRi rd rs1 _ _ _ => [rd, rs1]
  | .subRi rd rs1 _ _ _ => [rd, rs1]
  | .subbRi rd rs1 _ _ _ => [rd, rs1]
  | .andRi rd rs1 _ _ _ => [rd, rs1]
  | .orRi rd rs1 _ _ _ => [rd, rs1]
  | .xorRi rd rs1 _ _ _ => [rd, rs1]
  | .shRi rd rs1 _ _ => [rd, rs1]
  | .shaRi rd rs1 _ _ => [rd, rs1]
  | .addRr rd rs1 rs2 _ => [rd, rs1, rs2]
  | .addcRr rd rs1 rs2 _ => [rd, rs1, rs2]
  | .subRr rd rs1 rs2 _ => [rd, rs1, rs2]
  | .subbRr rd rs1 rs2 _ => [rd, rs1, rs2]
  | .andRr rd rs1 rs2 _ => [rd, rs1, rs2]
  | .orRr rd rs1 rs2 _ => [rd, rs1, rs2]
  | .xorRr rd rs1 rs2 _ => [rd, rs1, rs2]
  | .shRr rd rs1 rs2 _ => [rd, rs1, rs2]
  | .shaRr rd rs1 rs2 _ => [rd, rs1, rs2]
  | .addRrr rd rs1 rs2 rs3 _ _ => [rd, rs1, rs2, rs3]
  | .addcRrr rd rs1 rs2 rs3 _ _ => [rd, rs1, rs2, rs3]
  | .subRrr rd rs1 rs2 rs3 _ _ => [rd, rs1, rs2, rs3]
  | .subbRrr rd rs1 rs2 rs3 _ _ => [rd, rs1, rs2, rs3]
  | .andRrr rd rs1 rs2 rs3 _ _ => [rd, rs1, rs2, rs3]
  | .orRrr rd rs1 rs2 rs3 _ _ => [rd, rs1, rs2, rs3]
  | .xorRrr rd rs1 rs2 rs3 _ _ => [rd, rs1, rs2, rs3]
  | .shRrr rd rs1 rs2 rs3 _ _ => [rd, rs1, rs2, rs3]
  | .shaRrr rd rs1 rs2 rs3 _ _ => [rd, rs1, rs2, rs3]
  | .ldRm rd rs1 _ _ _ => [rd, rs1]
  | .stRm rd rs1 _ _ _ => [rd, rs1]
  | .ldRrmAdd rd rs1 rs2 _ _ _ => [rd, rs1, rs2]
  | .ldRrmAddc rd rs1 rs2 _ _ _ => [rd, rs1, rs2]
  | .ldRrmSub rd rs1 rs2 _ _ _ => [rd, rs1, rs2]
  | .ldRrmSubb rd rs1 rs2 _ _ _ => [rd, rs1, rs2]
  | .ldRrmAnd rd rs1 rs2 _ _ _ => [rd, rs1, rs2]
  | .ldRrmOr rd rs1 rs2 _ _ _ => [rd, rs1, rs2]
  | .ldRrmXor rd rs1 rs2 _ _ _ => [rd, rs1, rs2]
  | .ldRrmSh rd rs1 rs2 _ _ => [rd, rs1, rs2]
  | .ldRrmSha rd rs1 rs2 _ _ => [rd, rs1, rs2]
  | .stRrmAdd rd rs1 rs2 _ _ _ => [rd, rs1, rs2]
  | .stRrmAddc rd rs1 rs2 _ _ _ => [rd, rs1, rs2]
  | .stRrmSub rd rs1 rs2 _ _ _ => [rd, rs1, rs2]
  | .stRrmSubb rd rs1 rs2 _ _ _ => [rd, rs1, rs2]
  | .stRrmAnd rd rs1 rs2 _ _ _ => [rd, rs1, rs2]
  | .stRrmOr rd rs1 rs2 _ _ _ => [rd, rs1, rs2]
  | .stRrmXor rd rs1 rs2 _ _ _ => [rd, rs1, rs2]
  | .stRrmSh rd rs1 rs2 _ _ => [rd, rs1, rs2]
  | .stRrmSha rd rs1 rs2 _ _ => [rd, rs1, rs2]
  | .brAbs _ _ => []
  | .brRel _ _ => []
  | .punt => []
  | .ldSls rd _ => [rd]
  | .stSls rd _ => [rd]
  | .sli rd _ => [rd]
  | .ldhSpls rd rs1 _ _ _ _ => [rd, rs1]
  | .ldbSpls rd rs1 _ _ _ _ => [rd, rs1]
  | .sthSpls rd rs1 _ _ _ => [rd, rs1]
  | .stbSpls rd rs1 _ _ _ => [rd, rs1]
  | .sbr _ rs1 rs3 => [rs1, rs3]

/-- Rd, for the forms whose Rd "may not be 2 (pc) or 31 (isr)": RRR, RM, RRM, SLS, SPLS (R25). -/
def Instr.restrictedRd : Instr → Option RegNum
  | .addRi _ _ _ _ _ => none
  | .addcRi _ _ _ _ _ => none
  | .subRi _ _ _ _ _ => none
  | .subbRi _ _ _ _ _ => none
  | .andRi _ _ _ _ _ => none
  | .orRi _ _ _ _ _ => none
  | .xorRi _ _ _ _ _ => none
  | .shRi _ _ _ _ => none
  | .shaRi _ _ _ _ => none
  | .addRr _ _ _ _ => none
  | .addcRr _ _ _ _ => none
  | .subRr _ _ _ _ => none
  | .subbRr _ _ _ _ => none
  | .andRr _ _ _ _ => none
  | .orRr _ _ _ _ => none
  | .xorRr _ _ _ _ => none
  | .shRr _ _ _ _ => none
  | .shaRr _ _ _ _ => none
  | .addRrr rd _ _ _ _ _ => some rd
  | .addcRrr rd _ _ _ _ _ => some rd
  | .subRrr rd _ _ _ _ _ => some rd
  | .subbRrr rd _ _ _ _ _ => some rd
  | .andRrr rd _ _ _ _ _ => some rd
  | .orRrr rd _ _ _ _ _ => some rd
  | .xorRrr rd _ _ _ _ _ => some rd
  | .shRrr rd _ _ _ _ _ => some rd
  | .shaRrr rd _ _ _ _ _ => some rd
  | .ldRm rd _ _ _ _ => some rd
  | .stRm rd _ _ _ _ => some rd
  | .ldRrmAdd rd _ _ _ _ _ => some rd
  | .ldRrmAddc rd _ _ _ _ _ => some rd
  | .ldRrmSub rd _ _ _ _ _ => some rd
  | .ldRrmSubb rd _ _ _ _ _ => some rd
  | .ldRrmAnd rd _ _ _ _ _ => some rd
  | .ldRrmOr rd _ _ _ _ _ => some rd
  | .ldRrmXor rd _ _ _ _ _ => some rd
  | .ldRrmSh rd _ _ _ _ => some rd
  | .ldRrmSha rd _ _ _ _ => some rd
  | .stRrmAdd rd _ _ _ _ _ => some rd
  | .stRrmAddc rd _ _ _ _ _ => some rd
  | .stRrmSub rd _ _ _ _ _ => some rd
  | .stRrmSubb rd _ _ _ _ _ => some rd
  | .stRrmAnd rd _ _ _ _ _ => some rd
  | .stRrmOr rd _ _ _ _ _ => some rd
  | .stRrmXor rd _ _ _ _ _ => some rd
  | .stRrmSh rd _ _ _ _ => some rd
  | .stRrmSha rd _ _ _ _ => some rd
  | .brAbs _ _ => none
  | .brRel _ _ => none
  | .punt => none
  | .ldSls rd _ => some rd
  | .stSls rd _ => some rd
  | .sli _ _ => none
  | .ldhSpls rd _ _ _ _ _ => some rd
  | .ldbSpls rd _ _ _ _ _ => some rd
  | .sthSpls rd _ _ _ _ => some rd
  | .stbSpls rd _ _ _ _ => some rd
  | .sbr _ _ _ => none

/-- The base register the instruction updates: Rs1, when `Q` = 1 (43_rm.md R231). -/
def Instr.updatedBase : Instr → Option RegNum
  | .addRi _ _ _ _ _ => none
  | .addcRi _ _ _ _ _ => none
  | .subRi _ _ _ _ _ => none
  | .subbRi _ _ _ _ _ => none
  | .andRi _ _ _ _ _ => none
  | .orRi _ _ _ _ _ => none
  | .xorRi _ _ _ _ _ => none
  | .shRi _ _ _ _ => none
  | .shaRi _ _ _ _ => none
  | .addRr _ _ _ _ => none
  | .addcRr _ _ _ _ => none
  | .subRr _ _ _ _ => none
  | .subbRr _ _ _ _ => none
  | .andRr _ _ _ _ => none
  | .orRr _ _ _ _ => none
  | .xorRr _ _ _ _ => none
  | .shRr _ _ _ _ => none
  | .shaRr _ _ _ _ => none
  | .addRrr _ _ _ _ _ _ => none
  | .addcRrr _ _ _ _ _ _ => none
  | .subRrr _ _ _ _ _ _ => none
  | .subbRrr _ _ _ _ _ _ => none
  | .andRrr _ _ _ _ _ _ => none
  | .orRrr _ _ _ _ _ _ => none
  | .xorRrr _ _ _ _ _ _ => none
  | .shRrr _ _ _ _ _ _ => none
  | .shaRrr _ _ _ _ _ _ => none
  | .ldRm _ rs1 _ q _ => if q then some rs1 else none
  | .stRm _ rs1 _ q _ => if q then some rs1 else none
  | .ldRrmAdd _ rs1 _ _ q _ => if q then some rs1 else none
  | .ldRrmAddc _ rs1 _ _ q _ => if q then some rs1 else none
  | .ldRrmSub _ rs1 _ _ q _ => if q then some rs1 else none
  | .ldRrmSubb _ rs1 _ _ q _ => if q then some rs1 else none
  | .ldRrmAnd _ rs1 _ _ q _ => if q then some rs1 else none
  | .ldRrmOr _ rs1 _ _ q _ => if q then some rs1 else none
  | .ldRrmXor _ rs1 _ _ q _ => if q then some rs1 else none
  | .ldRrmSh _ rs1 _ _ q => if q then some rs1 else none
  | .ldRrmSha _ rs1 _ _ q => if q then some rs1 else none
  | .stRrmAdd _ rs1 _ _ q _ => if q then some rs1 else none
  | .stRrmAddc _ rs1 _ _ q _ => if q then some rs1 else none
  | .stRrmSub _ rs1 _ _ q _ => if q then some rs1 else none
  | .stRrmSubb _ rs1 _ _ q _ => if q then some rs1 else none
  | .stRrmAnd _ rs1 _ _ q _ => if q then some rs1 else none
  | .stRrmOr _ rs1 _ _ q _ => if q then some rs1 else none
  | .stRrmXor _ rs1 _ _ q _ => if q then some rs1 else none
  | .stRrmSh _ rs1 _ _ q => if q then some rs1 else none
  | .stRrmSha _ rs1 _ _ q => if q then some rs1 else none
  | .brAbs _ _ => none
  | .brRel _ _ => none
  | .punt => none
  | .ldSls _ _ => none
  | .stSls _ _ => none
  | .sli _ _ => none
  | .ldhSpls _ rs1 _ _ q _ => if q then some rs1 else none
  | .ldbSpls _ rs1 _ _ q _ => if q then some rs1 else none
  | .sthSpls _ rs1 _ q _ => if q then some rs1 else none
  | .stbSpls _ rs1 _ q _ => if q then some rs1 else none
  | .sbr _ _ _ => none

/-- The fields R120 of 30_encoding.md calls unused hold 0, as the Note asks of undefined bits (R116): with `PQ` = 00 the constant of RM
and SPLS, and Rs2 and BBB of RRM; the two low address bits of SLS. The bits of R120 that no constructor holds are not here. -/
def Instr.unusedZero : Instr → Bool
  | .addRi _ _ _ _ _ => true
  | .addcRi _ _ _ _ _ => true
  | .subRi _ _ _ _ _ => true
  | .subbRi _ _ _ _ _ => true
  | .andRi _ _ _ _ _ => true
  | .orRi _ _ _ _ _ => true
  | .xorRi _ _ _ _ _ => true
  | .shRi _ _ _ _ => true
  | .shaRi _ _ _ _ => true
  | .addRr _ _ _ _ => true
  | .addcRr _ _ _ _ => true
  | .subRr _ _ _ _ => true
  | .subbRr _ _ _ _ => true
  | .andRr _ _ _ _ => true
  | .orRr _ _ _ _ => true
  | .xorRr _ _ _ _ => true
  | .shRr _ _ _ _ => true
  | .shaRr _ _ _ _ => true
  | .addRrr _ _ _ _ _ _ => true
  | .addcRrr _ _ _ _ _ _ => true
  | .subRrr _ _ _ _ _ _ => true
  | .subbRrr _ _ _ _ _ _ => true
  | .andRrr _ _ _ _ _ _ => true
  | .orRrr _ _ _ _ _ _ => true
  | .xorRrr _ _ _ _ _ _ => true
  | .shRrr _ _ _ _ _ _ => true
  | .shaRrr _ _ _ _ _ _ => true
  | .ldRm _ _ p q k => p || q || k == 0#16
  | .stRm _ _ p q k => p || q || k == 0#16
  | .ldRrmAdd _ _ rs2 p q _ => p || q || rs2 == 0#5
  | .ldRrmAddc _ _ _ p q _ => p || q
  | .ldRrmSub _ _ _ p q _ => p || q
  | .ldRrmSubb _ _ _ p q _ => p || q
  | .ldRrmAnd _ _ _ p q _ => p || q
  | .ldRrmOr _ _ _ p q _ => p || q
  | .ldRrmXor _ _ _ p q _ => p || q
  | .ldRrmSh _ _ _ p q => p || q
  | .ldRrmSha _ _ _ p q => p || q
  | .stRrmAdd _ _ rs2 p q _ => p || q || rs2 == 0#5
  | .stRrmAddc _ _ _ p q _ => p || q
  | .stRrmSub _ _ _ p q _ => p || q
  | .stRrmSubb _ _ _ p q _ => p || q
  | .stRrmAnd _ _ _ p q _ => p || q
  | .stRrmOr _ _ _ p q _ => p || q
  | .stRrmXor _ _ _ p q _ => p || q
  | .stRrmSh _ _ _ p q => p || q
  | .stRrmSha _ _ _ p q => p || q
  | .brAbs _ _ => true
  | .brRel _ _ => true
  | .punt => true
  | .ldSls _ addr => addr.extractLsb' 0 2 == 0#2
  | .stSls _ addr => addr.extractLsb' 0 2 == 0#2
  | .sli _ _ => true
  | .ldhSpls _ _ _ p q k => p || q || k == 0#10
  | .ldbSpls _ _ _ p q k => p || q || k == 0#10
  | .sthSpls _ _ p q k => p || q || k == 0#10
  | .stbSpls _ _ p q k => p || q || k == 0#10
  | .sbr _ _ _ => true

/-- No field names register 31 (10_state.md R23). -/
def Instr.avoidsIsr (i : Instr) : Bool := i.regFields.all (· != isrReg)

/-- Rd is none of the prohibited registers (42_rrr.md R213, 43_rm.md R233). -/
def Instr.rdAllowed (i : Instr) : Bool :=
  match i.restrictedRd with
  | some rd => rd != pcReg && rd != isrReg
  | none => true

/-- The updated base register is not the pc (43_rm.md R233, D39). -/
def Instr.baseAllowed (i : Instr) : Bool := i.updatedBase != some pcReg

/-- The instruction meets every condition on its register fields, and its unused fields hold 0. -/
def Instr.wellFormed (i : Instr) : Bool := i.avoidsIsr && i.rdAllowed && i.baseAllowed && i.unusedZero

end Sys2Proof
end

