-- ==== Sys2Proof/Safety.lean ====
section
/-! DEFINITION. The terms claims are made in: the invariant of the machine, what a register holds once the pending late write
has landed, and the next state of each kind of instruction with its frame. -/

namespace Sys2Proof

/-! ### What instructions are (10_state.md R27, R34, R36) -/

/-- The instruction writes the flags: an ALU instruction whose `F` is 1 (R27, 40_ri.md R147). -/
def Instr.writesFlags : Instr → Bool
  | .addRi _ _ f _ _ | .addcRi _ _ f _ _ | .subRi _ _ f _ _ | .subbRi _ _ f _ _ => f
  | .andRi _ _ f _ _ | .orRi _ _ f _ _ | .xorRi _ _ f _ _ => f
  | .shRi _ _ f _ | .shaRi _ _ f _ => f
  | .addRr _ _ _ f | .addcRr _ _ _ f | .subRr _ _ _ f | .subbRr _ _ _ f => f
  | .andRr _ _ _ f | .orRr _ _ _ f | .xorRr _ _ _ f | .shRr _ _ _ f | .shaRr _ _ _ f => f
  | .addRrr _ _ _ _ _ f | .addcRrr _ _ _ _ _ f | .subRrr _ _ _ _ _ f | .subbRrr _ _ _ _ _ f => f
  | .andRrr _ _ _ _ _ f | .orRrr _ _ _ _ _ f | .xorRrr _ _ _ _ _ f | .shRrr _ _ _ _ _ f | .shaRrr _ _ _ _ _ f => f
  | _ => false

/-- The instruction stores (R39). -/
def Instr.stores : Instr → Bool
  | .stRm .. | .stRrmAdd .. | .stRrmAddc .. | .stRrmSub .. | .stRrmSubb .. | .stRrmAnd .. | .stRrmOr .. | .stRrmXor ..
  | .stRrmSh .. | .stRrmSha .. | .stSls .. | .sthSpls .. | .stbSpls .. => true
  | _ => false

/-- The instruction reads memory (R39): the loads of RM, RRM, SLS and SPLS. -/
def Instr.loads : Instr → Bool
  | .ldRm .. | .ldRrmAdd .. | .ldRrmAddc .. | .ldRrmSub .. | .ldRrmSubb .. | .ldRrmAnd .. | .ldRrmOr .. | .ldRrmXor ..
  | .ldRrmSh .. | .ldRrmSha .. | .ldSls .. | .ldhSpls .. | .ldbSpls .. => true
  | _ => false

/-- The instruction may write the pc at time 2: RI and RR with Rd = 2, BR, SBR (R36). -/
def Instr.jumps : Instr → Bool
  | .addRi rd .. | .addcRi rd .. | .subRi rd .. | .subbRi rd .. | .andRi rd .. | .orRi rd .. | .xorRi rd .. => rd == pcReg
  | .shRi rd .. | .shaRi rd .. => rd == pcReg
  | .addRr rd .. | .addcRr rd .. | .subRr rd .. | .subbRr rd .. | .andRr rd .. | .orRr rd .. | .xorRr rd .. => rd == pcReg
  | .shRr rd .. | .shaRr rd .. => rd == pcReg
  | .brAbs .. | .brRel .. | .sbr .. => true
  | _ => false

/-- The instruction may write the pc, at time 2 or late: a jump, or SLI with Rd = 2 (R36). -/
def Instr.mayWritePc (i : Instr) : Bool :=
  i.jumps || match i with
    | .sli rd _ => rd == pcReg
    | _ => false

/-- The instruction may shift: a shift, an RRR instruction whose op1 is sha, an RRM instruction that performs a shift as its address
operation (40_ri.md R142, 42_rrr.md R202, 44_rrm.md R251). -/
def Instr.mayShift : Instr → Bool
  | .shRi .. | .shaRi .. | .shRr .. | .shaRr .. | .shRrr .. | .shaRrr .. => true
  | .addRrr _ _ _ _ op1 _ | .addcRrr _ _ _ _ op1 _ | .subRrr _ _ _ _ op1 _ | .subbRrr _ _ _ _ op1 _ => op1 == .sha
  | .andRrr _ _ _ _ op1 _ | .orRrr _ _ _ _ op1 _ | .xorRrr _ _ _ _ op1 _ => op1 == .sha
  | .ldRrmSh _ _ _ p q | .ldRrmSha _ _ _ p q | .stRrmSh _ _ _ p q | .stRrmSha _ _ _ p q => p || q
  | _ => false

/-- The register and the datum of a load (43_rm.md R232, 44_rrm.md R252, 47_sls_sli.md R315, 48_spls.md R331). -/
def Instr.loadOf : Instr → Option (RegNum × LoadType)
  | .ldRm rd _ _ _ _ => some (rd, .w)
  | .ldRrmAdd rd _ _ _ _ t => some (rd, t)
  | .ldRrmAddc rd _ _ _ _ t => some (rd, t)
  | .ldRrmSub rd _ _ _ _ t => some (rd, t)
  | .ldRrmSubb rd _ _ _ _ t => some (rd, t)
  | .ldRrmAnd rd _ _ _ _ t => some (rd, t)
  | .ldRrmOr rd _ _ _ _ t => some (rd, t)
  | .ldRrmXor rd _ _ _ _ t => some (rd, t)
  | .ldRrmSh rd _ _ _ _ => some (rd, .w)
  | .ldRrmSha rd _ _ _ _ => some (rd, .w)
  | .ldSls rd _ => some (rd, .w)
  | .ldhSpls rd _ e _ _ _ => some (rd, if e then .hz else .h)
  | .ldbSpls rd _ e _ _ _ => some (rd, if e then .bz else .b)
  | _ => none

/-- The register and the width of a store. -/
def Instr.storeOf : Instr → Option (RegNum × StoreType)
  | .stRm rd _ _ _ _ => some (rd, .w)
  | .stRrmAdd rd _ _ _ _ t => some (rd, t)
  | .stRrmAddc rd _ _ _ _ t => some (rd, t)
  | .stRrmSub rd _ _ _ _ t => some (rd, t)
  | .stRrmSubb rd _ _ _ _ t => some (rd, t)
  | .stRrmAnd rd _ _ _ _ t => some (rd, t)
  | .stRrmOr rd _ _ _ _ t => some (rd, t)
  | .stRrmXor rd _ _ _ _ t => some (rd, t)
  | .stRrmSh rd _ _ _ _ => some (rd, .w)
  | .stRrmSha rd _ _ _ _ => some (rd, .w)
  | .stSls rd _ => some (rd, .w)
  | .sthSpls rd _ _ _ _ => some (rd, .h)
  | .stbSpls rd _ _ _ _ => some (rd, .b)
  | _ => none

/-- The bits of an instruction's word that the decoder ignores (30_encoding.md R117, R120): JJJJJ when BBB is not 111, `H` of a
non-shift RRR, `YLE` of an RRM shift, `E` of a store and of a fullword load, the two low address bits of SLS, and with `PQ` = 00 the
constant of RM and SPLS and Rs2, BBB and JJJJJ of RRM. -/
def Instr.ignoredBits : Instr → Word
  | .addRr .. | .addcRr .. | .subRr .. | .subbRr .. | .andRr .. | .orRr .. | .xorRr .. => 0xF8#32
  | .addRrr .. | .addcRrr .. | .subRrr .. | .subbRrr .. | .andRrr .. | .orRrr .. | .xorRrr .. => 0x10000#32
  | .ldRm _ _ p q _ | .stRm _ _ p q _ => if p || q then 0#32 else 0xFFFF#32
  | .ldRrmAdd _ _ _ p q t | .ldRrmAddc _ _ _ p q t | .ldRrmSub _ _ _ p q t | .ldRrmSubb _ _ _ p q t
  | .ldRrmAnd _ _ _ p q t | .ldRrmOr _ _ _ p q t | .ldRrmXor _ _ _ p q t =>
    (if p || q then 0xF8#32 else 0xFFF8#32) ||| (if t = .w then 1#32 else 0#32)
  | .stRrmAdd _ _ _ p q _ | .stRrmAddc _ _ _ p q _ | .stRrmSub _ _ _ p q _ | .stRrmSubb _ _ _ p q _
  | .stRrmAnd _ _ _ p q _ | .stRrmOr _ _ _ p q _ | .stRrmXor _ _ _ p q _ => if p || q then 0xF9#32 else 0xFFF9#32
  | .ldRrmSh _ _ _ p q | .ldRrmSha _ _ _ p q | .stRrmSh _ _ _ p q | .stRrmSha _ _ _ p q =>
    if p || q then 0x7#32 else 0xFFFF#32
  | .ldSls .. | .stSls .. => 0x3#32
  | .ldhSpls _ _ _ p q _ | .ldbSpls _ _ _ p q _ => if p || q then 0#32 else 0x3FF#32
  | .sthSpls _ _ p q _ | .stbSpls _ _ p q _ => if p || q then 0x1000#32 else 0x13FF#32
  | _ => 0#32

end Sys2Proof

namespace Sys2Proof.Machine

/-! ### The invariant -/

/-- The bytes of a remembered store: one, two or four, aligned to their number (20_memory.md R61, R66). -/
abbrev Span.ok (sp : Span) : Prop := (sp.len = 1 ∨ sp.len = 2 ∨ sp.len = 4) ∧ sp.addr.toNat % sp.len = 0

/-- What every run keeps: memory in canonical form and listing only admitted addresses (R39, R72), both fetch addresses
multiples of 4 (R64), a pending late write that aims neither at register 31 nor at a misaligned pc (10_state.md R23, R36),
remembered stores of a legal shape (R74), and R0 = 0, R1 = all ones where `REG_CONST` takes them as premises (R24). -/
abbrev State.Inv (s : State) : Prop :=
  Memory.wf s.mem = true
  ∧ (∀ c ∈ s.mem, Config.admits s.cfg c.1 = true)
  ∧ s.fa0.toNat % 4 = 0
  ∧ s.fa1.toNat % 4 = 0
  ∧ (∀ w ∈ s.late, w.reg ≠ isrReg ∧ (w.reg = pcReg → w.val.toNat % 4 = 0))
  ∧ (∀ sp ∈ s.store1, sp.ok)
  ∧ (∀ sp ∈ s.store2, sp.ok)
  ∧ (s.cfg.regConst = .zeroOnes → s.reg 0 = 0#32 ∧ s.reg 1 = 0xFFFFFFFF#32
      ∧ ∀ w ∈ s.late, w.reg = 0 ∨ w.reg = 1 → w.val = s.reg w.reg)

/-- What a launch must give (70_reset_and_hazards.md R392, 10_state.md R24): an aligned first fetch address, memory in canonical form
and inside `MEM_MAP`, and the premises of `REG_CONST`. -/
abbrev Launch.ok (l : Launch) : Prop :=
  l.pc.toNat % 4 = 0 ∧ Memory.wf l.mem = true ∧ (∀ c ∈ l.mem, Config.admits l.cfg c.1 = true)
  ∧ (l.cfg.regConst = .zeroOnes → l.state.reg 0 = 0#32 ∧ l.state.reg 1 = 0xFFFFFFFF#32)

/-! ### Runs -/

/-- `n` steps of the machine lead from `s` to `t`. -/
def Steps : Nat → State → State → Prop
  | 0, s, t => t = s
  | n + 1, s, t => ∃ u, step s = .next u ∧ Steps n u t

/-- Executing the instructions one after the other leads from `s` to `t`. -/
def Executes : List Instr → State → State → Prop
  | [], s, t => t = s
  | i :: is, s, t => ∃ u, exec i s = .next u ∧ Executes is u t

/-! ### Writes the parameters refuse -/

/-- `SHADOW_JUMP_POLICY` refuses a write to register 2 now: the instruction stands in the shadow of a taken jump (10_state.md R38). -/
abbrev State.jumpBarred (s : State) : Prop := s.cfg.shadowJump = .refuse ∧ s.fa1 ≠ s.fa0 + 4#32

/-- `REG_CONST` refuses to write `v` to register `r`: R0 or R1 would change (R24). -/
abbrev State.constBarred (s : State) (r : RegNum) (v : Word) : Prop :=
  s.cfg.regConst = .zeroOnes ∧ (r = 0 ∨ r = 1) ∧ v ≠ s.reg r

/-! ### The pending late write (10_state.md R34, R35) -/

/-- A late write to register `r` is pending, so a time-2 write to `r` now is refused (R35). -/
abbrev State.pending (s : State) (r : RegNum) : Prop := ∃ w ∈ s.late, w.reg = r

/-- What register `r` holds once the pending late write has landed (R31 step 6, R34). -/
def State.landed (s : State) (r : RegNum) : Word :=
  match s.late with
  | some w => if w.reg = r then w.val else s.reg r
  | none => s.reg r

/-- The fetch address of the instruction after next when this instruction does not write the pc: the target of a pending
late write to register 2, else the next in sequence (R31 step 7, R36, R37). -/
def State.seqFetch (s : State) : Word :=
  match s.late with
  | some w => if w.reg = pcReg then w.val else s.fa1 + 4#32
  | none => s.fa1 + 4#32

/-! ### Next states -/

/-- What every completed instruction does: fetch advances to `fa1`, the window of remembered stores moves on, and `ctx` and
the launch parameters stay (R31 step 7, R74, R28, R392). -/
structure Advances (s t : State) : Prop where
  fetched : t.fa0 = s.fa1
  window : t.store2 = s.store1
  ctx : t.ctx = s.ctx
  cfg : t.cfg = s.cfg

/-- No byte of memory changes, and no store is remembered. -/
structure MemorySame (s t : State) : Prop where
  bytes : ∀ a, t.mem.get a = s.mem.get a
  noStore : t.store1 = none

/-- The `bytes` are stored from `ea` on and every other byte of memory stays (20_memory.md R63, R74). -/
structure MemoryStored (s t : State) (ea : Word) (bytes : List Byte) : Prop where
  stored : ∀ i (h : i < bytes.length), t.mem.get (ea.toNat + i) = some bytes[i]
  others : ∀ a, (a < ea.toNat ∨ ea.toNat + bytes.length ≤ a) → t.mem.get a = s.mem.get a
  remembered : t.store1 = some ⟨ea, bytes.length⟩

/-- Every stored register but `rd` holds what it held, once the pending late write has landed. -/
def OthersLanded (s t : State) (rd : RegNum) : Prop :=
  ∀ r, r ≠ pcReg → r ≠ rd → t.reg r = s.landed r

/-- Every stored register holds what it held, once the pending late write has landed. -/
def AllLanded (s t : State) : Prop := ∀ r, r ≠ pcReg → t.reg r = s.landed r

/-- The next state of an ALU instruction: `rd` holds `r` (register 2: execution goes on at `r` after one shadow), the flags
are `fl`, and nothing else changes (40_ri.md R140, R147, R160, 10_state.md R33, R36). `drew` says that a free value was used. -/
structure AluNext (s t : State) (rd : RegNum) (r : Word) (fl : Flags) (drew : Bool) : Prop where
  advances : Advances s t
  memory : MemorySame s t
  dest : rd ≠ pcReg → t.reg rd = r
  sequence : rd ≠ pcReg → t.fa1 = s.seqFetch
  jump : rd = pcReg → t.fa1 = r
  others : OthersLanded s t rd
  flags : t.flags = fl
  noLate : t.late = none
  draws : t.draws = s.draws + drew.toNat

/-- The next state of a load: the data reaches `rd` late, Rs1 holds `sum` if `q`, and nothing else changes
(43_rm.md R231, R232). -/
structure LoadNext (s t : State) (rd rs1 : RegNum) (q : Bool) (sum v : Word) : Prop where
  advances : Advances s t
  memory : MemorySame s t
  late : t.late = some ⟨rd, v⟩
  base : q = true → t.reg rs1 = sum
  others : ∀ r, r ≠ pcReg → (q = true → r ≠ rs1) → t.reg r = s.landed r
  sequence : t.fa1 = s.seqFetch
  flags : t.flags = s.flags
  draws : t.draws = s.draws

/-- The next state of a store: the bytes lie in memory from `ea` on, Rs1 holds `sum` if `q`, and nothing else changes
(43_rm.md R231, R232, R235). -/
structure StoreNext (s t : State) (rs1 : RegNum) (q : Bool) (sum ea : Word) (bytes : List Byte) : Prop where
  advances : Advances s t
  memory : MemoryStored s t ea bytes
  noLate : t.late = none
  base : q = true → t.reg rs1 = sum
  others : ∀ r, r ≠ pcReg → (q = true → r ≠ rs1) → t.reg r = s.landed r
  sequence : t.fa1 = s.seqFetch
  flags : t.flags = s.flags
  draws : t.draws = s.draws

/-- The next state of a conditional branch: execution goes on at `target` after one shadow if the condition holds, in
sequence otherwise; nothing else changes (45_br.md R290, R291). -/
structure BranchNext (s t : State) (taken : Bool) (target : Word) : Prop where
  advances : Advances s t
  memory : MemorySame s t
  jump : taken = true → t.fa1 = target
  sequence : taken = false → t.fa1 = s.seqFetch
  others : AllLanded s t
  flags : t.flags = s.flags
  noLate : t.late = none
  draws : t.draws = s.draws

/-! ### Readable and writable memory (20_memory.md R62, R63, R66, R72) -/

/-- `MEM_MAP` admits the `n` bytes at `ea`. -/
abbrev State.mapped (s : State) (ea : Word) (n : Nat) : Prop := ∀ i < n, Config.admits s.cfg (ea.toNat + i) = true

/-- The bytes at `ea`, lowest address first, are `bs`. -/
abbrev State.holds (s : State) (ea : Word) (bs : List Byte) : Prop :=
  ∀ i (h : i < bs.length), s.mem.get (ea.toNat + i) = some bs[i]

/-- How many bytes a load of a width reads (R61). -/
def loadLen : LoadType → Nat
  | .w => 4
  | .h => 2
  | .hz => 2
  | .b => 1
  | .bz => 1

/-- The bytes at `ea` make the datum `v` of a load, as the byte order and the extension say (R62, R67, 44_rrm.md R252). -/
def State.datum (s : State) (ea : Word) (t : LoadType) (v : Word) : Prop :=
  match t with
  | .w => ∃ b0 b1 b2 b3 : Byte, s.holds ea [b0, b1, b2, b3]
      ∧ v = (if s.cfg.endian = .big then b0 ++ b1 ++ b2 ++ b3 else b3 ++ b2 ++ b1 ++ b0)
  | .h => ∃ b0 b1 : Byte, s.holds ea [b0, b1] ∧ v = BitVec.signExtend 32 (if s.cfg.endian = .big then b0 ++ b1 else b1 ++ b0)
  | .hz => ∃ b0 b1 : Byte, s.holds ea [b0, b1] ∧ v = BitVec.setWidth 32 (if s.cfg.endian = .big then b0 ++ b1 else b1 ++ b0)
  | .b => ∃ b0 : Byte, s.holds ea [b0] ∧ v = BitVec.signExtend 32 b0
  | .bz => ∃ b0 : Byte, s.holds ea [b0] ∧ v = BitVec.setWidth 32 b0

/-- The bytes a store of a width lays out: the least significant part-word of the register, most significant byte first
in big-endian order (R63, R68). -/
def layout (e : Endian) (t : StoreType) (v : Word) : List Byte :=
  match e, t with
  | .big, .w => [v.extractLsb' 24 8, v.extractLsb' 16 8, v.extractLsb' 8 8, v.extractLsb' 0 8]
  | .little, .w => [v.extractLsb' 0 8, v.extractLsb' 8 8, v.extractLsb' 16 8, v.extractLsb' 24 8]
  | .big, .h => [v.extractLsb' 8 8, v.extractLsb' 0 8]
  | .little, .h => [v.extractLsb' 0 8, v.extractLsb' 8 8]
  | _, .b => [v.extractLsb' 0 8]

/-! ### Results and flags (40_ri.md R141 to R148) -/

/-- `r` is the value of an operation on `a` and `b` with the C flag `c` (R141, R142, R148, 42_rrr.md R202, 44_rrm.md R251). A
shift has a value only for an amount of 0 to 31 (left) or -1 to -31 (right). -/
def OpValue (op : AluOp) (a b : Word) (c : Bool) (r : Word) : Prop :=
  match op with
  | .add => r = a + b
  | .addc => r = a + b + BitVec.ofNat 32 c.toNat
  | .sub => r = a - b
  | .subb => r = a + ~~~b + BitVec.ofNat 32 c.toNat
  | .and => r = a &&& b
  | .or => r = a ||| b
  | .xor => r = a ^^^ b
  | .sh => (∃ n ≤ 31, b = BitVec.ofNat 32 n ∧ r = a <<< n)
      ∨ ∃ m ≤ 31, 1 ≤ m ∧ b = -BitVec.ofNat 32 m ∧ r = a >>> m
  | .sha => (∃ n ≤ 31, b = BitVec.ofNat 32 n ∧ r = a <<< n)
      ∨ ∃ m ≤ 31, 1 ≤ m ∧ b = -BitVec.ofNat 32 m ∧ r = a.sshiftRight m

/-- Z, N, V, C of the 33-bit sum `a + b' + cin`: `b'` is the second input of the adder, so the complement for sub and subb
(R141, R143 to R146). -/
def sumFlags (a b' : Word) (cin : Bool) : Flags where
  z := a + b' + BitVec.ofNat 32 cin.toNat == 0#32
  n := (a + b' + BitVec.ofNat 32 cin.toNat).getLsbD 31
  v := a.getLsbD 31 == b'.getLsbD 31 && (a + b' + BitVec.ofNat 32 cin.toNat).getLsbD 31 != a.getLsbD 31
  c := decide (4294967296 ≤ a.toNat + b'.toNat + cin.toNat)

/-- Z and N of a result, with V cleared and the C flag given: logical operations and shifts (R143 to R146). -/
def resultFlags (r : Word) (c : Bool) : Flags := ⟨r == 0#32, r.getLsbD 31, false, c⟩

/-- C after a left shift of `a` by `n`: the least significant bit discarded, or a free value when none is (R146). -/
def leftShiftCarry (a : Word) (n : Nat) (free : Bool) : Bool := if n = 0 then free else a.getLsbD (32 - n)

/-! ### Addresses and free values -/

/-- The effective address of RRM: the value of the address operation if `P`, else Rs1 (44_rrm.md R251). -/
def State.rrmAddr (s : State) (op : AluOp) (rs1 rs2 : RegNum) (p : Bool) : Option Word :=
  if p then
    match aluValue op (s.x rs1) (s.x rs2) s.flags.c with
    | .ok sum => some sum
    | .error _ => none
  else some (s.x rs1)

/-- The effective address of a load or a store (43_rm.md R231, 44_rrm.md R251, 47_sls_sli.md R315, 48_spls.md R331). -/
def State.eaOf (s : State) : Instr → Option Word
  | .ldRm _ rs1 p _ k | .stRm _ rs1 p _ k => some (effAddr p (s.x rs1) (s.x rs1 + k.signExtend 32))
  | .ldRrmAdd _ rs1 rs2 p _ _ => s.rrmAddr .add rs1 rs2 p
  | .ldRrmAddc _ rs1 rs2 p _ _ => s.rrmAddr .addc rs1 rs2 p
  | .ldRrmSub _ rs1 rs2 p _ _ => s.rrmAddr .sub rs1 rs2 p
  | .ldRrmSubb _ rs1 rs2 p _ _ => s.rrmAddr .subb rs1 rs2 p
  | .ldRrmAnd _ rs1 rs2 p _ _ => s.rrmAddr .and rs1 rs2 p
  | .ldRrmOr _ rs1 rs2 p _ _ => s.rrmAddr .or rs1 rs2 p
  | .ldRrmXor _ rs1 rs2 p _ _ => s.rrmAddr .xor rs1 rs2 p
  | .ldRrmSh _ rs1 rs2 p _ => s.rrmAddr .sh rs1 rs2 p
  | .ldRrmSha _ rs1 rs2 p _ => s.rrmAddr .sha rs1 rs2 p
  | .stRrmAdd _ rs1 rs2 p _ _ => s.rrmAddr .add rs1 rs2 p
  | .stRrmAddc _ rs1 rs2 p _ _ => s.rrmAddr .addc rs1 rs2 p
  | .stRrmSub _ rs1 rs2 p _ _ => s.rrmAddr .sub rs1 rs2 p
  | .stRrmSubb _ rs1 rs2 p _ _ => s.rrmAddr .subb rs1 rs2 p
  | .stRrmAnd _ rs1 rs2 p _ _ => s.rrmAddr .and rs1 rs2 p
  | .stRrmOr _ rs1 rs2 p _ _ => s.rrmAddr .or rs1 rs2 p
  | .stRrmXor _ rs1 rs2 p _ _ => s.rrmAddr .xor rs1 rs2 p
  | .stRrmSh _ rs1 rs2 p _ => s.rrmAddr .sh rs1 rs2 p
  | .stRrmSha _ rs1 rs2 p _ => s.rrmAddr .sha rs1 rs2 p
  | .ldSls _ addr | .stSls _ addr => some (slsAddr addr)
  | .ldhSpls _ rs1 _ p _ k | .ldbSpls _ rs1 _ p _ k => some (effAddr p (s.x rs1) (s.x rs1 + k.signExtend 32))
  | .sthSpls _ rs1 p _ k | .stbSpls _ rs1 p _ k => some (effAddr p (s.x rs1) (s.x rs1 + k.signExtend 32))
  | _ => none

/-- What a load of width and extension `t` makes of the bytes a store of the same width took from `v` (20_memory.md R67, R68). -/
def loadedBack (t : LoadType) (v : Word) : Word :=
  match t with
  | .w => v
  | .h => (v.extractLsb' 0 16).signExtend 32
  | .hz => (v.extractLsb' 0 16).setWidth 32
  | .b => (v.extractLsb' 0 8).signExtend 32
  | .bz => (v.extractLsb' 0 8).setWidth 32

/-- The instruction uses a free value in this state: a flag-setting shift by 0 (40_ri.md R146, `SHL0_C`), and a flag-setting and, or,
xor of RRR (42_rrr.md R201, `RRR_LOGIC_C`). -/
def State.drawsAt (s : State) : Instr → Bool
  | .shRi _ _ f k | .shaRi _ _ f k => f && k == 0#16
  | .shRr _ _ rs2 f | .shaRr _ _ rs2 f => f && s.x rs2 == 0#32
  | .andRrr _ _ _ _ _ f | .orRrr _ _ _ _ _ f | .xorRrr _ _ _ _ _ f => f
  | .shRrr _ _ rs2 rs3 op1 f | .shaRrr _ _ rs2 rs3 op1 f =>
    f && match aluValue (Op1.alu op1) (s.x rs2) (s.x rs3) s.flags.c with
      | .ok y => y == 0#32
      | .error _ => false
  | _ => false

/-! ### Outcomes, by kind of instruction -/

/-- What an ALU instruction with legal registers and result `r` does: two writes to `rd` at once are refused (10_state.md R35), so are a
misaligned jump (R36), a jump that `SHADOW_JUMP_POLICY` bars (R38) and a write that `REG_CONST` bars (R24); otherwise it completes
(R33, 40_ri.md R140, R147). -/
def AluOutcome (i : Instr) (s : State) (rd : RegNum) (r : Word) (f : Bool) (fl : Flags) (drew : Bool) : Prop :=
  (s.pending rd → exec i s = .refused .writeCollision)
  ∧ (¬ s.pending rd → rd = pcReg → r.toNat % 4 ≠ 0 → exec i s = .refused .pcMisaligned)
  ∧ (¬ s.pending rd → rd = pcReg → r.toNat % 4 = 0 → s.jumpBarred → exec i s = .refused .shadowJump)
  ∧ (¬ s.pending rd → s.constBarred rd r → exec i s = .refused .constantRegister)
  ∧ (¬ s.pending rd → (rd = pcReg → r.toNat % 4 = 0 ∧ ¬ s.jumpBarred) → ¬ s.constBarred rd r →
      ∃ t, exec i s = .next t ∧ AluNext s t rd r (if f then fl else s.flags) (f && drew))

/-- What a load with legal registers does: misaligned (20_memory.md R66), outside `MEM_MAP` (R72), a byte without a value (U24),
a base update that meets a late write (10_state.md R35), a datum or base update that `REG_CONST` bars (R24); otherwise it completes
(43_rm.md R231, R232). -/
def LoadOutcome (i : Instr) (s : State) (rd rs1 : RegNum) (q : Bool) (sum ea : Word) (t : LoadType) : Prop :=
  (ea.toNat % loadLen t ≠ 0 → exec i s = .refused .misaligned)
  ∧ (ea.toNat % loadLen t = 0 → ¬ s.mapped ea (loadLen t) → exec i s = .fault .outsideMemMap)
  ∧ (ea.toNat % loadLen t = 0 → s.mapped ea (loadLen t) → (∃ j < loadLen t, s.mem.get (ea.toNat + j) = none) →
      exec i s = .fault .unwrittenByte)
  ∧ ∀ v, ea.toNat % loadLen t = 0 → s.mapped ea (loadLen t) → s.datum ea t v →
      (q = true → s.pending rs1 → exec i s = .refused .writeCollision)
      ∧ ((q = true → ¬ s.pending rs1) → (q = true ∧ s.constBarred rs1 sum) ∨ s.constBarred rd v →
          exec i s = .refused .constantRegister)
      ∧ ((q = true → ¬ s.pending rs1) → (q = true → ¬ s.constBarred rs1 sum) → ¬ s.constBarred rd v →
          ∃ u, exec i s = .next u ∧ LoadNext s u rd rs1 q sum v)

/-- What a store with legal registers does: misaligned (R66), outside `MEM_MAP` (R72), a base update that meets a late write
(R35) or that `REG_CONST` bars (R24); otherwise it completes with the register's bytes in memory at `ea` (43_rm.md R231, R232,
R235). -/
def StoreOutcome (i : Instr) (s : State) (rd rs1 : RegNum) (q : Bool) (sum ea : Word) (t : StoreType) : Prop :=
  (ea.toNat % storeLen t ≠ 0 → exec i s = .refused .misaligned)
  ∧ (ea.toNat % storeLen t = 0 → ¬ s.mapped ea (storeLen t) → exec i s = .fault .outsideMemMap)
  ∧ (ea.toNat % storeLen t = 0 → s.mapped ea (storeLen t) →
      (q = true → s.pending rs1 → exec i s = .refused .writeCollision)
      ∧ (q = true → ¬ s.pending rs1 → s.constBarred rs1 sum → exec i s = .refused .constantRegister)
      ∧ ((q = true → ¬ s.pending rs1 ∧ ¬ s.constBarred rs1 sum) →
          ∃ u, exec i s = .next u ∧ StoreNext s u rs1 q sum ea (layout s.cfg.endian t (s.x rd))))

/-- What a branch with legal registers does: a taken branch that meets a late write to the pc is refused (R35), so is one to
a misaligned target (R36) and one that `SHADOW_JUMP_POLICY` bars (R38); otherwise it completes (45_br.md R290, R291). -/
def BranchOutcome (i : Instr) (s : State) (taken : Bool) (target : Word) : Prop :=
  (taken = true → s.pending pcReg → exec i s = .refused .writeCollision)
  ∧ (taken = true → ¬ s.pending pcReg → target.toNat % 4 ≠ 0 → exec i s = .refused .pcMisaligned)
  ∧ (taken = true → ¬ s.pending pcReg → target.toNat % 4 = 0 → s.jumpBarred → exec i s = .refused .shadowJump)
  ∧ ((taken = true → ¬ s.pending pcReg ∧ target.toNat % 4 = 0 ∧ ¬ s.jumpBarred) →
      ∃ t, exec i s = .next t ∧ BranchNext s t taken target)

/-- What the flags say of a subtraction `a - b` that wrote them (45_br.md R293). -/
structure Compares (fl : Flags) (a b : Word) : Prop where
  eq : Cond.holds .eq fl = true ↔ a = b
  ne : Cond.holds .ne fl = true ↔ a ≠ b
  hi : Cond.holds .hi fl = true ↔ b.toNat < a.toNat
  ls : Cond.holds .ls fl = true ↔ a.toNat ≤ b.toNat
  cs : Cond.holds .cs fl = true ↔ b.toNat ≤ a.toNat
  cc : Cond.holds .cc fl = true ↔ a.toNat < b.toNat
  ge : Cond.holds .ge fl = true ↔ b.toInt ≤ a.toInt
  lt : Cond.holds .lt fl = true ↔ a.toInt < b.toInt
  gt : Cond.holds .gt fl = true ↔ b.toInt < a.toInt
  le : Cond.holds .le fl = true ↔ a.toInt ≤ b.toInt
  mi : Cond.holds .mi fl = true ↔ (a - b).getLsbD 31 = true
  pl : Cond.holds .pl fl = true ↔ (a - b).getLsbD 31 = false
  vs : Cond.holds .vs fl = true ↔ (a.toInt - b.toInt < -2147483648 ∨ 2147483648 ≤ a.toInt - b.toInt)
  vc : Cond.holds .vc fl = true ↔ (-2147483648 ≤ a.toInt - b.toInt ∧ a.toInt - b.toInt < 2147483648)

end Sys2Proof.Machine
end

