-- ==== Sys2Proof/Certificates/Slice0/Obligations.lean ====
section
/-! DEFINITION. The statements for the provers. Each docstring cites the rule of spec/ it formalises; the vocabulary
(`AluOutcome`, `LoadNext`, `State.Inv`, ...) is in Sys2Proof/Safety.lean. -/

open Sys2Proof Sys2Proof.Machine

/-! ### Reset, invariant, step -/

/-- 10_state.md R40, 70_reset_and_hazards.md R392: at every launch, and so after reset, `late` is empty and `fa1` is four past `fa0`
(`RESET_PC` itself is the model's choice, log 3). -/
def Obligations.ResetFetchesInSequenceWithNothingLate : Prop :=
  (∀ l : Launch, l.state.late = none ∧ l.state.fa0 = l.pc ∧ l.state.fa1 = l.pc + 4#32)
  ∧ State.reset.late = none ∧ State.reset.fa1 = State.reset.fa0 + 4#32

/-- The model's choices at reset, no rule of the spec: every register 0 (log 1), flags and `ctx` 0 (log 2), `RESET_PC` 0 (log 3),
no byte of memory with a value (log 4), every 32-bit address admitted (log 5), no store remembered (log 21), no free value
used (log 9), no end of the run named (log 31); and of the open parameters the value that 00_scope.md R7 decides or, for the two
policies, the step rule (logs 6, 8, 10, 11, 13). -/
def Obligations.ResetHoldsTheChosenValues : Prop :=
  (∀ r, r ≠ pcReg → State.reset.reg r = 0#32) ∧ State.reset.flags = ⟨false, false, false, false⟩ ∧ State.reset.ctx = false
  ∧ State.reset.fa0 = 0#32 ∧ (∀ a, State.reset.mem.get a = none)
  ∧ (∀ a, Config.admits State.reset.cfg a = true ↔ a < 4294967296) ∧ State.reset.store1 = none ∧ State.reset.store2 = none
  ∧ State.reset.draws = 0 ∧ State.reset.cfg.endOfRun = none
  ∧ State.reset.cfg.endian = .big ∧ State.reset.cfg.regConst = .none ∧ State.reset.x pcReg = State.reset.fa1
  ∧ State.reset.cfg.shadowJump = .follow ∧ State.reset.cfg.sliPc = .follow

/-- The invariant of `Sys2Proof.Machine.State.Inv` holds at reset, and at every launch that gives what 70_reset_and_hazards.md R392
asks for, whatever its registers, memory and parameters are. -/
def Obligations.ResetMeetsInvariant : Prop :=
  State.reset.Inv ∧ ∀ l : Launch, l.ok → l.state.Inv

/-- Every step keeps the invariant: memory stays in canonical form and inside `MEM_MAP`, the fetch addresses stay multiples of 4
(20_memory.md R64), a pending late write aims neither at register 31 nor at a misaligned pc, and under `REG_CONST` = `zeroOnes` R0
stays 0 and R1 all ones (10_state.md R24). -/
def Obligations.EveryStepKeepsInvariant : Prop :=
  ∀ s t, s.Inv → step s = .next t → t.Inv

/-- 10_state.md R31: when the four bytes at `fa0` decode to an instruction, the step is that instruction's meaning at that state,
and nothing else (the meaning itself advances `fa0` and `fa1`). -/
def Obligations.StepExecutesDecodedInstruction : Prop :=
  ∀ (s : State) (b0 b1 b2 b3 : Byte) (i : Instr) (rest : List Byte),
    s.storedRecently s.fa0 = false → s.fa0.toNat % 4 = 0 → s.mapped s.fa0 4 → s.holds s.fa0 [b0, b1, b2, b3] →
    decode s.cfg.endian [b0, b1, b2, b3] = .ok (i, rest) → step s = exec i s

/-- 10_state.md R31 step 2: a fetched word that is no instruction is refused, under the decoder's name for it. -/
def Obligations.StepRefusesUndecodableWord : Prop :=
  ∀ (s : State) (b0 b1 b2 b3 : Byte) (e : DecodeError),
    s.storedRecently s.fa0 = false → s.fa0.toNat % 4 = 0 → s.mapped s.fa0 4 → s.holds s.fa0 [b0, b1, b2, b3] →
    decode s.cfg.endian [b0, b1, b2, b3] = .error e → step s = .refused (.undecodable e)

/-- 20_memory.md R74: a step whose word overlaps bytes stored by either of the two preceding instructions is refused. -/
def Obligations.FetchOfRecentlyStoredWordIsRefused : Prop :=
  ∀ (s : State) (sp : Span), s.store1 = some sp ∨ s.store2 = some sp →
    sp.addr.toNat < s.fa0.toNat + 4 → s.fa0.toNat < sp.addr.toNat + sp.len → step s = .refused .fetchAfterStore

/-- 20_memory.md R74, from the instruction on that changes memory: a byte it changed is not fetched by the next step, nor by the
step after whatever completes next. -/
def Obligations.ChangedBytesAreNotFetchedForTwoSteps : Prop :=
  ∀ (s t u : State) (i j : Instr) (a : Nat), exec i s = .next t → t.mem.get a ≠ s.mem.get a →
    (t.fa0.toNat ≤ a → a < t.fa0.toNat + 4 → step t = .refused .fetchAfterStore)
    ∧ (exec j t = .next u → u.fa0.toNat ≤ a → a < u.fa0.toNat + 4 → step u = .refused .fetchAfterStore)

/-- 20_memory.md R74, R70: from the third instruction after the store on, fetch returns the stored bytes. After any instruction and
then two or more that store nothing, a fetch reads the memory that instruction left; so the word a fullword store of any format
stored at `ea` is what a fetch at `ea` reads. -/
def Obligations.StoredWordIsFetchedFromTheThirdInstructionOn : Prop :=
  ∀ (s t v : State) (i : Instr) (is : List Instr),
    exec i s = .next t → Executes is t v → 2 ≤ is.length → (∀ j ∈ is, j.stores = false) →
    v.fetch = t.readWord v.fa0
    ∧ ∀ (rd : RegNum) (ea : Word), i.storeOf = some (rd, .w) → s.eaOf i = some ea → v.fa0 = ea → v.fetch = .ok (s.x rd)

/-- The host's way in: a word placed by `State.withFetchWord` is the next instruction the machine runs, from every state (log 7). -/
def Obligations.PlacedWordRunsNext : Prop :=
  ∀ (s : State) (w : Nat) (i : Instr), decodeTableWord 32 w = some i →
    step (s.withFetchWord 32 w) = exec i (s.withFetchWord 32 w)

/-! ### Decode and encode -/

/-- Decode and encode agree: the word of every instruction whose unused fields are 0, so of every well-formed one, decodes to it, with
every operand at every value. Of any other instruction, whose unused fields the encoder writes 0 (30_encoding.md R120), it decodes to
the instruction with these fields 0. -/
def Obligations.DecodeOfEncodeIsTheInstruction : Prop :=
  (∀ i : Instr, i.unusedZero = true → decodeWord (encode i) = .ok i)
  ∧ ∀ i : Instr, decodeWord (encode i) = .ok i.clean

/-- The same through memory's bytes, in either byte order, with whatever follows left over. -/
def Obligations.DecodeReadsBackEncodedBytes : Prop :=
  ∀ (e : Endian) (i : Instr) (rest : List Byte), i.unusedZero = true →
    decode e (splitWord e (encode i) ++ rest) = .ok (i, rest)

/-- 30_encoding.md R117, R120: a word that decodes to an instruction is that instruction's own word but for the ignored bits, the
encoder writes 0 in every ignored bit, and the bits that encoding clears have no effect: the instruction without them does the same
in every state, unless a field it clears names register 31 (10_state.md R23). That an RRM shift with `PQ` = 00 is encoded as the
fullword access it performs is the model's choice (log 23). -/
def Obligations.DecodedWordIsItsEncodingUpToIgnoredBits : Prop :=
  (∀ (w : Word) (i : Instr), decodeWord w = .ok i → w &&& ~~~i.ignoredBits = encode i &&& ~~~i.ignoredBits)
  ∧ (∀ i : Instr, encode i &&& i.clean.ignoredBits = 0#32)
  ∧ ∀ (i : Instr) (s : State), i.avoidsIsr = true → exec i.clean s = exec i s

/-- Words written out from the encoding tables decode to their instructions, one for each family. -/
def Obligations.SampleWordsDecode : Prop :=
  decodeWord 0x052E0001#32 = .ok (.addRi 10 11 true false 1#16)
  ∧ decodeWord 0xC52E6200#32 = .ok (.subRr 10 11 12 true)
  ∧ decodeWord 0xD52F676A#32 = .ok (.shaRrr 10 11 12 13 .sub true)
  ∧ decodeWord 0x95AD0004#32 = .ok (.stRm 11 11 false true 4#16)
  ∧ decodeWord 0xA52E6005#32 = .ok (.ldRrmAdd 10 11 12 true false .bz)
  ∧ decodeWord 0xE1FFFFEE#32 = .ok (.brRel .t 0x7FFFFB#23)
  ∧ decodeWord 0xF003FF47#32 = .ok .punt
  ∧ decodeWord 0xF57C2004#32 = .ok (.ldSls 10 0x1F2004#21)
  ∧ decodeWord 0xF57EFFFF#32 = .ok (.sli 10 0x1FFFFF#21)
  ∧ decodeWord 0xF52F6C0B#32 = .ok (.stbSpls 10 11 true true 11#10)
  ∧ decodeWord 0xF62FC060#32 = .ok (.sbr .ne 11 12)

/-- 41_rr.md R192: with BBB = 111, every JJJJJ with bit 7 = 0, and every 10xxx or 11xxx with one of bits 5:3 set, is not an
instruction. -/
def Obligations.ReservedRrSpecialsAreNoInstruction : Prop :=
  ∀ w : Word, w.extractLsb' 28 4 = 12#4 → w.extractLsb' 8 3 = 7#3 →
    (w.getLsbD 7 = false ∨ w.getLsbD 5 = true ∨ w.getLsbD 4 = true ∨ w.getLsbD 3 = true) → ∃ e, decodeWord w = .error e

/-- 30_encoding.md R116 (the spec's decision D16): a word with a reserved bit set is no instruction. The reserved bits: RR bit 16
and bits 2:0, RR and RRM bits 5:3 of a shift, PUNT bits 27:18, 7 and 5:3, SBR bits 24:23. -/
def Obligations.WordsWithReservedBitsAreNoInstruction : Prop :=
  ∀ w : Word,
    (w.extractLsb' 28 4 = 12#4 ∧ (w.getLsbD 16 = true ∨ w.extractLsb' 0 3 ≠ 0#3))
    ∨ ((w.extractLsb' 28 4 = 12#4 ∨ w.extractLsb' 29 3 = 5#3) ∧ w.extractLsb' 8 3 = 7#3 ∧ w.extractLsb' 3 3 ≠ 0#3)
    ∨ (w.extractLsb' 28 4 = 15#4 ∧ w.extractLsb' 8 10 = 1023#10 ∧ w.getLsbD 6 = true ∧ w.extractLsb' 0 3 = 7#3
        ∧ (w.extractLsb' 18 10 ≠ 0#10 ∨ w.getLsbD 7 = true ∨ w.extractLsb' 3 3 ≠ 0#3))
    ∨ (w.extractLsb' 28 4 = 15#4 ∧ w.extractLsb' 8 10 = 960#10 ∧ w.extractLsb' 1 2 = 0#2 ∧ w.extractLsb' 23 2 ≠ 0#2) →
    ∃ e, decodeWord w = .error e

/-- 30_encoding.md R118 (b), 44_rrm.md R252 (the spec's decision D22): an RRM word with BBB not 111 and `YL` = 11 is no instruction. -/
def Obligations.RrmWidthElevenIsNoInstruction : Prop :=
  ∀ w : Word, w.extractLsb' 29 3 = 5#3 → w.extractLsb' 8 3 ≠ 7#3 → w.extractLsb' 1 2 = 3#2 →
    decodeWord w = .error .reservedWidth

/-- 49_sbr.md R346: a word is SBR when `w & 0xF183FF06 = 0xF003C000`; a word with bits 17:8 = 1111000000 but bit 24, 23, 2 or 1
set matches no instruction. -/
def Obligations.SbrWordsAreExactlyTheMaskedOnes : Prop :=
  ∀ w : Word,
    (w &&& 0xF183FF06#32 = 0xF003C000#32 ↔ ∃ c rs1 rs3, decodeWord w = .ok (.sbr c rs1 rs3))
    ∧ (w.extractLsb' 28 4 = 15#4 → w.extractLsb' 8 10 = 960#10 →
        (w.getLsbD 24 = true ∨ w.getLsbD 23 = true ∨ w.getLsbD 2 = true ∨ w.getLsbD 1 = true) → ∃ e, decodeWord w = .error e)

/-- 30_encoding.md R119 (the spec's decision D16): of the `1111` words with bits 17:15 = 111 exactly the strict SBR words and the one
PUNT word are instructions. -/
def Obligations.UnassignedWordsAreNoInstruction : Prop :=
  ∀ w : Word, w.extractLsb' 28 4 = 15#4 → w.extractLsb' 15 3 = 7#3 →
    ((∃ i, decodeWord w = .ok i) ↔ (w &&& 0xF183FF06#32 = 0xF003C000#32 ∨ w = 0xF003FF47#32))

/-- 30_encoding.md R121: the all-zeros word is R0 <- R0 + 0; it writes R0 with the value it read from R0 and touches no flag. -/
def Obligations.AllZerosWordIsTheNoOp : Prop :=
  decodeWord 0#32 = .ok (.addRi 0 0 false false 0#16)
  ∧ ∀ s : State, ¬ s.pending 0 →
      ∃ t, exec (.addRi 0 0 false false 0#16) s = .next t ∧ AluNext s t 0 (s.x 0) s.flags false

/-! ### ALU instructions -/

/-- 40_ri.md R150 to R153, R141, R143 to R147, R160: add, addc, sub, subb with a 16-bit constant in the high or low halfword. -/
def Obligations.RiArithmeticOutcome : Prop :=
  ∀ (s : State) (rd rs1 : RegNum) (f h : Bool) (k : BitVec 16), rd ≠ isrReg → rs1 ≠ isrReg →
    let a := s.x rs1
    let b : Word := if h then k ++ 0#16 else 0#16 ++ k
    let c := s.flags.c
    AluOutcome (.addRi rd rs1 f h k) s rd (a + b) f (sumFlags a b false) false
    ∧ AluOutcome (.addcRi rd rs1 f h k) s rd (a + b + BitVec.ofNat 32 c.toNat) f (sumFlags a b c) false
    ∧ AluOutcome (.subRi rd rs1 f h k) s rd (a - b) f (sumFlags a (~~~b) true) false
    ∧ AluOutcome (.subbRi rd rs1 f h k) s rd (a + ~~~b + BitVec.ofNat 32 c.toNat) f (sumFlags a (~~~b) c) false

/-- 40_ri.md R154 to R156, R143 to R148, R160: and, or, xor with a constant; the other halfword is 0xFFFF for and, 0x0000 otherwise;
C and V are cleared. -/
def Obligations.RiLogicOutcome : Prop :=
  ∀ (s : State) (rd rs1 : RegNum) (f h : Bool) (k : BitVec 16), rd ≠ isrReg → rs1 ≠ isrReg →
    let a := s.x rs1
    let b : Word := if h then k ++ 0#16 else 0#16 ++ k
    let bAnd : Word := if h then k ++ 0xFFFF#16 else 0xFFFF#16 ++ k
    AluOutcome (.andRi rd rs1 f h k) s rd (a &&& bAnd) f (resultFlags (a &&& bAnd) false) false
    ∧ AluOutcome (.orRi rd rs1 f h k) s rd (a ||| b) f (resultFlags (a ||| b) false) false
    ∧ AluOutcome (.xorRi rd rs1 f h k) s rd (a ^^^ b) f (resultFlags (a ^^^ b) false) false

/-- 40_ri.md R157, R158, R142 to R147 (shift fills by the spec's decision D9): shifts by 0 to 31 to the left and by 1 to 31 to the
right. C after a flag-setting left shift by 0 is a free value (R146, D10). -/
def Obligations.RiShiftOutcome : Prop :=
  ∀ (s : State) (rd rs1 : RegNum) (f : Bool), rd ≠ isrReg → rs1 ≠ isrReg →
    let a := s.x rs1
    (∀ n ≤ 31,
      AluOutcome (.shRi rd rs1 f (BitVec.ofNat 16 n)) s rd (a <<< n) f
        (resultFlags (a <<< n) (leftShiftCarry a n (Config.freeBit s.draws))) (n == 0)
      ∧ AluOutcome (.shaRi rd rs1 f (BitVec.ofNat 16 n)) s rd (a <<< n) f
        (resultFlags (a <<< n) (leftShiftCarry a n (Config.freeBit s.draws))) (n == 0))
    ∧ (∀ m ≤ 31, 1 ≤ m →
      AluOutcome (.shRi rd rs1 f (-BitVec.ofNat 16 m)) s rd (a >>> m) f (resultFlags (a >>> m) false) false
      ∧ AluOutcome (.shaRi rd rs1 f (-BitVec.ofNat 16 m)) s rd (a.sshiftRight m) f
        (resultFlags (a.sshiftRight m) false) false)

/-- 41_rr.md R182 to R185, R181, R191: add, addc, sub, subb of two registers. -/
def Obligations.RrArithmeticOutcome : Prop :=
  ∀ (s : State) (rd rs1 rs2 : RegNum) (f : Bool), rd ≠ isrReg → rs1 ≠ isrReg → rs2 ≠ isrReg →
    let a := s.x rs1
    let b := s.x rs2
    let c := s.flags.c
    AluOutcome (.addRr rd rs1 rs2 f) s rd (a + b) f (sumFlags a b false) false
    ∧ AluOutcome (.addcRr rd rs1 rs2 f) s rd (a + b + BitVec.ofNat 32 c.toNat) f (sumFlags a b c) false
    ∧ AluOutcome (.subRr rd rs1 rs2 f) s rd (a - b) f (sumFlags a (~~~b) true) false
    ∧ AluOutcome (.subbRr rd rs1 rs2 f) s rd (a + ~~~b + BitVec.ofNat 32 c.toNat) f (sumFlags a (~~~b) c) false

/-- 41_rr.md R186 to R188, R181, R191: and, or, xor of two registers; V is cleared and C is left as it was. -/
def Obligations.RrLogicOutcome : Prop :=
  ∀ (s : State) (rd rs1 rs2 : RegNum) (f : Bool), rd ≠ isrReg → rs1 ≠ isrReg → rs2 ≠ isrReg →
    let a := s.x rs1
    let b := s.x rs2
    let c := s.flags.c
    AluOutcome (.andRr rd rs1 rs2 f) s rd (a &&& b) f (resultFlags (a &&& b) c) false
    ∧ AluOutcome (.orRr rd rs1 rs2 f) s rd (a ||| b) f (resultFlags (a ||| b) c) false
    ∧ AluOutcome (.xorRr rd rs1 rs2 f) s rd (a ^^^ b) f (resultFlags (a ^^^ b) c) false

/-- 41_rr.md R189 to R191, 40_ri.md R142 (fills by D9), R146: shifts by the signed amount in Rs2, all of its 32 bits. C after a
flag-setting left shift by 0 is a free value (D10). -/
def Obligations.RrShiftOutcome : Prop :=
  ∀ (s : State) (rd rs1 rs2 : RegNum) (f : Bool), rd ≠ isrReg → rs1 ≠ isrReg → rs2 ≠ isrReg →
    let a := s.x rs1
    (∀ n ≤ 31, s.x rs2 = BitVec.ofNat 32 n →
      AluOutcome (.shRr rd rs1 rs2 f) s rd (a <<< n) f
        (resultFlags (a <<< n) (leftShiftCarry a n (Config.freeBit s.draws))) (n == 0)
      ∧ AluOutcome (.shaRr rd rs1 rs2 f) s rd (a <<< n) f
        (resultFlags (a <<< n) (leftShiftCarry a n (Config.freeBit s.draws))) (n == 0))
    ∧ (∀ m ≤ 31, 1 ≤ m → s.x rs2 = -BitVec.ofNat 32 m →
      AluOutcome (.shRr rd rs1 rs2 f) s rd (a >>> m) f (resultFlags (a >>> m) false) false
      ∧ AluOutcome (.shaRr rd rs1 rs2 f) s rd (a.sshiftRight m) f (resultFlags (a.sshiftRight m) false) false)

/-- 42_rrr.md R202: the eight operations of op1. The fill of the right shift is the spec's decision D9, from general knowledge
(40_ri.md R142, log 26); the refusal of an amount outside -31 to 31 is its decision D11 (log 17). -/
def Obligations.Op1TableOfRrr : Prop :=
  ∀ (x y : Word) (c : Bool),
    aluValue (Op1.alu (op1OfCode 0#3)) x y c = .ok (x + y)
    ∧ aluValue (Op1.alu (op1OfCode 1#3)) x y c = .ok (x + y + BitVec.ofNat 32 c.toNat)
    ∧ aluValue (Op1.alu (op1OfCode 2#3)) x y c = .ok (x + ~~~y + 1#32)
    ∧ aluValue (Op1.alu (op1OfCode 3#3)) x y c = .ok (x + ~~~y + BitVec.ofNat 32 c.toNat)
    ∧ aluValue (Op1.alu (op1OfCode 4#3)) x y c = .ok (x &&& y)
    ∧ aluValue (Op1.alu (op1OfCode 5#3)) x y c = .ok (x ||| y)
    ∧ aluValue (Op1.alu (op1OfCode 6#3)) x y c = .ok (x ^^^ y)
    ∧ (∀ n ≤ 31, y = BitVec.ofNat 32 n → aluValue (Op1.alu (op1OfCode 7#3)) x y c = .ok (x <<< n))
    ∧ (∀ m ≤ 31, 1 ≤ m → y = -BitVec.ofNat 32 m → aluValue (Op1.alu (op1OfCode 7#3)) x y c = .ok (x.sshiftRight m))
    ∧ (y.toInt < -31 ∨ 31 < y.toInt → aluValue (Op1.alu (op1OfCode 7#3)) x y c = .error (.refuse .shiftRange))

/-- 42_rrr.md R200, R201, R203 to R207: op2 add, addc, sub, subb on Rs1 and the value `y` of op1; both operations read the same C
(the spec's decision D13), and only op2 writes flags. -/
def Obligations.RrrArithmeticOutcome : Prop :=
  ∀ (s : State) (rd rs1 rs2 rs3 : RegNum) (op1 : Op1) (f : Bool) (y : Word),
    rd ≠ pcReg → rd ≠ isrReg → rs1 ≠ isrReg → rs2 ≠ isrReg → rs3 ≠ isrReg →
    OpValue (Op1.alu op1) (s.x rs2) (s.x rs3) s.flags.c y →
    let a := s.x rs1
    let c := s.flags.c
    AluOutcome (.addRrr rd rs1 rs2 rs3 op1 f) s rd (a + y) f (sumFlags a y false) false
    ∧ AluOutcome (.addcRrr rd rs1 rs2 rs3 op1 f) s rd (a + y + BitVec.ofNat 32 c.toNat) f (sumFlags a y c) false
    ∧ AluOutcome (.subRrr rd rs1 rs2 rs3 op1 f) s rd (a - y) f (sumFlags a (~~~y) true) false
    ∧ AluOutcome (.subbRrr rd rs1 rs2 rs3 op1 f) s rd (a + ~~~y + BitVec.ofNat 32 c.toNat) f (sumFlags a (~~~y) c) false

/-- 42_rrr.md R200, R201, R208 to R210: op2 and, or, xor; with `F` = 1 C becomes 0 or stays, a free choice (the spec's decision
D12, log 32). -/
def Obligations.RrrLogicOutcome : Prop :=
  ∀ (s : State) (rd rs1 rs2 rs3 : RegNum) (op1 : Op1) (f : Bool) (y : Word),
    rd ≠ pcReg → rd ≠ isrReg → rs1 ≠ isrReg → rs2 ≠ isrReg → rs3 ≠ isrReg →
    OpValue (Op1.alu op1) (s.x rs2) (s.x rs3) s.flags.c y →
    let a := s.x rs1
    let c := Config.freeBit s.draws && s.flags.c
    AluOutcome (.andRrr rd rs1 rs2 rs3 op1 f) s rd (a &&& y) f (resultFlags (a &&& y) c) true
    ∧ AluOutcome (.orRrr rd rs1 rs2 rs3 op1 f) s rd (a ||| y) f (resultFlags (a ||| y) c) true
    ∧ AluOutcome (.xorRrr rd rs1 rs2 rs3 op1 f) s rd (a ^^^ y) f (resultFlags (a ^^^ y) c) true

/-- 42_rrr.md R200, R201, R211, R212: op2 a shift by the signed value of op1 (fills by D9, C after a left shift by 0 free, D10). -/
def Obligations.RrrShiftOutcome : Prop :=
  ∀ (s : State) (rd rs1 rs2 rs3 : RegNum) (op1 : Op1) (f : Bool) (y : Word),
    rd ≠ pcReg → rd ≠ isrReg → rs1 ≠ isrReg → rs2 ≠ isrReg → rs3 ≠ isrReg →
    OpValue (Op1.alu op1) (s.x rs2) (s.x rs3) s.flags.c y →
    let a := s.x rs1
    (∀ n ≤ 31, y = BitVec.ofNat 32 n →
      AluOutcome (.shRrr rd rs1 rs2 rs3 op1 f) s rd (a <<< n) f
        (resultFlags (a <<< n) (leftShiftCarry a n (Config.freeBit s.draws))) (n == 0)
      ∧ AluOutcome (.shaRrr rd rs1 rs2 rs3 op1 f) s rd (a <<< n) f
        (resultFlags (a <<< n) (leftShiftCarry a n (Config.freeBit s.draws))) (n == 0))
    ∧ (∀ m ≤ 31, 1 ≤ m → y = -BitVec.ofNat 32 m →
      AluOutcome (.shRrr rd rs1 rs2 rs3 op1 f) s rd (a >>> m) f (resultFlags (a >>> m) false) false
      ∧ AluOutcome (.shaRrr rd rs1 rs2 rs3 op1 f) s rd (a.sshiftRight m) f (resultFlags (a.sshiftRight m) false) false)

/-- 40_ri.md R142, 42_rrr.md R202, R211, 44_rrm.md R251 (the spec's decision D11): a shift by an amount outside -31 to 31 is refused, in
RI and RR; in RRR as op1, whatever op2 is, and as op2, where the amount is the value of op1; and as the address operation of RRM with
`P` or `Q` set (with `PQ` = 00 it is not performed: `RrmLoadOutcome`, `RrmStoreOutcome`). -/
def Obligations.ShiftsOutOfRangeAreRefused : Prop :=
  ∀ (s : State) (rd rs1 rs2 rs3 : RegNum) (op1 : Op1) (f p q : Bool) (k : BitVec 16) (y : Word),
    rd ≠ isrReg → rs1 ≠ isrReg → rs2 ≠ isrReg → rs3 ≠ isrReg →
    let out := fun v : Int => v < -31 ∨ 31 < v
    (out k.toInt →
      exec (.shRi rd rs1 f k) s = .refused .shiftRange ∧ exec (.shaRi rd rs1 f k) s = .refused .shiftRange)
    ∧ (out (s.x rs2).toInt →
      exec (.shRr rd rs1 rs2 f) s = .refused .shiftRange ∧ exec (.shaRr rd rs1 rs2 f) s = .refused .shiftRange)
    ∧ (rd ≠ pcReg → out (s.x rs3).toInt →
      exec (.addRrr rd rs1 rs2 rs3 .sha f) s = .refused .shiftRange
      ∧ exec (.addcRrr rd rs1 rs2 rs3 .sha f) s = .refused .shiftRange
      ∧ exec (.subRrr rd rs1 rs2 rs3 .sha f) s = .refused .shiftRange
      ∧ exec (.subbRrr rd rs1 rs2 rs3 .sha f) s = .refused .shiftRange
      ∧ exec (.andRrr rd rs1 rs2 rs3 .sha f) s = .refused .shiftRange
      ∧ exec (.orRrr rd rs1 rs2 rs3 .sha f) s = .refused .shiftRange
      ∧ exec (.xorRrr rd rs1 rs2 rs3 .sha f) s = .refused .shiftRange
      ∧ exec (.shRrr rd rs1 rs2 rs3 .sha f) s = .refused .shiftRange
      ∧ exec (.shaRrr rd rs1 rs2 rs3 .sha f) s = .refused .shiftRange)
    ∧ (rd ≠ pcReg → OpValue (Op1.alu op1) (s.x rs2) (s.x rs3) s.flags.c y → out y.toInt →
      exec (.shRrr rd rs1 rs2 rs3 op1 f) s = .refused .shiftRange
      ∧ exec (.shaRrr rd rs1 rs2 rs3 op1 f) s = .refused .shiftRange)
    ∧ (rd ≠ pcReg → (q = true → rs1 ≠ pcReg) → (p = true ∨ q = true) → out (s.x rs2).toInt →
      exec (.ldRrmSh rd rs1 rs2 p q) s = .refused .shiftRange
      ∧ exec (.ldRrmSha rd rs1 rs2 p q) s = .refused .shiftRange
      ∧ exec (.stRrmSh rd rs1 rs2 p q) s = .refused .shiftRange
      ∧ exec (.stRrmSha rd rs1 rs2 p q) s = .refused .shiftRange)

/-- 40_ri.md R148: and, or, xor act bit by bit over 32 bits and have no carry and no overflow (whatever carry rule the format has). -/
def Obligations.LogicalOperationsActBitByBit : Prop :=
  ∀ (a b : Word) (c : Bool) (rule : CarryRule),
    (∃ o, alu .and rule a b c = some o ∧ (∀ i < 32, o.r.getLsbD i = (a.getLsbD i && b.getLsbD i)) ∧ o.ovf = false ∧ o.carry = rule)
    ∧ (∃ o, alu .or rule a b c = some o ∧ (∀ i < 32, o.r.getLsbD i = (a.getLsbD i || b.getLsbD i)) ∧ o.ovf = false ∧ o.carry = rule)
    ∧ (∃ o, alu .xor rule a b c = some o ∧ (∀ i < 32, o.r.getLsbD i = (a.getLsbD i ^^ b.getLsbD i)) ∧ o.ovf = false
        ∧ o.carry = rule)

/-- 40_ri.md R145, R146 (the spec's decisions D6, D7): after a flag-setting RR add, addc, sub or subb V says that the exact signed
result does not fit 32 bits, and C that the exact unsigned sum carries out (for sub and subb, that nothing is borrowed). -/
def Obligations.RrOverflowAndCarryAreExact : Prop :=
  ∀ (s t : State) (rd rs1 rs2 : RegNum),
    let a := s.x rs1
    let b := s.x rs2
    let c : Int := s.flags.c.toNat
    let fits := fun v : Int => -2147483648 ≤ v ∧ v < 2147483648
    (exec (.addRr rd rs1 rs2 true) s = .next t →
      (t.flags.v = true ↔ ¬ fits (a.toInt + b.toInt)) ∧ (t.flags.c = true ↔ 4294967296 ≤ a.toNat + b.toNat))
    ∧ (exec (.addcRr rd rs1 rs2 true) s = .next t →
      (t.flags.v = true ↔ ¬ fits (a.toInt + b.toInt + c)) ∧ (t.flags.c = true ↔ 4294967296 ≤ (a.toNat + b.toNat : Int) + c))
    ∧ (exec (.subRr rd rs1 rs2 true) s = .next t →
      (t.flags.v = true ↔ ¬ fits (a.toInt - b.toInt)) ∧ (t.flags.c = true ↔ b.toNat ≤ a.toNat))
    ∧ (exec (.subbRr rd rs1 rs2 true) s = .next t →
      (t.flags.v = true ↔ ¬ fits (a.toInt - b.toInt - 1 + c)) ∧ (t.flags.c = true ↔ (b.toNat : Int) + 1 - c ≤ a.toNat))

/-- 45_br.md R292: the sixteen conditions, and the `I` bit inverting the sense. -/
def Obligations.ConditionTable : Prop :=
  ∀ fl : Flags,
    Cond.holds (condOfCode 0#4) fl = true
    ∧ Cond.holds (condOfCode 1#4) fl = false
    ∧ Cond.holds (condOfCode 2#4) fl = (fl.c && !fl.z)
    ∧ Cond.holds (condOfCode 3#4) fl = (!fl.c || fl.z)
    ∧ Cond.holds (condOfCode 4#4) fl = (!fl.c)
    ∧ Cond.holds (condOfCode 5#4) fl = fl.c
    ∧ Cond.holds (condOfCode 6#4) fl = (!fl.z)
    ∧ Cond.holds (condOfCode 7#4) fl = fl.z
    ∧ Cond.holds (condOfCode 8#4) fl = (!fl.v)
    ∧ Cond.holds (condOfCode 9#4) fl = fl.v
    ∧ Cond.holds (condOfCode 10#4) fl = (!fl.n)
    ∧ Cond.holds (condOfCode 11#4) fl = fl.n
    ∧ Cond.holds (condOfCode 12#4) fl = ((fl.n && fl.v) || (!fl.n && !fl.v))
    ∧ Cond.holds (condOfCode 13#4) fl = ((fl.n && !fl.v) || (!fl.n && fl.v))
    ∧ Cond.holds (condOfCode 14#4) fl = ((fl.n && fl.v && !fl.z) || (!fl.n && !fl.v && !fl.z))
    ∧ Cond.holds (condOfCode 15#4) fl = (fl.z || (fl.n && !fl.v) || (!fl.n && fl.v))
    ∧ (∀ d : BitVec 3, Cond.holds (condOfCode (d ++ 1#1)) fl = !Cond.holds (condOfCode (d ++ 0#1)) fl)

/-- 45_br.md R293: after a flag-setting sub in RI, RR or RRR the conditions mean what their names say of the two operands. -/
def Obligations.ConditionsCompareAfterSubtract : Prop :=
  ∀ (s t : State) (rd rs1 rs2 rs3 : RegNum) (op1 : Op1) (h : Bool) (k : BitVec 16) (y : Word),
    (exec (.subRi rd rs1 true h k) s = .next t → Compares t.flags (s.x rs1) (if h then k ++ 0#16 else 0#16 ++ k))
    ∧ (exec (.subRr rd rs1 rs2 true) s = .next t → Compares t.flags (s.x rs1) (s.x rs2))
    ∧ (exec (.subRrr rd rs1 rs2 rs3 op1 true) s = .next t → OpValue (Op1.alu op1) (s.x rs2) (s.x rs3) s.flags.c y →
        Compares t.flags (s.x rs1) y)

/-! ### Branches, the pc and PUNT -/

/-- 10_state.md R32: register 2 reads as the parameter `PC_READ(fa0, fa1)` says, which with the spec's decision D4 (log 8) is the next
fetch address; every other register reads as stored, without the pending late write. -/
def Obligations.RegisterReadGivesStoredValueOrNextFetch : Prop :=
  ∀ (s : State) (r : RegNum),
    (s.cfg.pcRead.fromNext = true → s.x pcReg = s.fa1 + s.cfg.pcRead.offset)
    ∧ (s.cfg.pcRead.fromNext = false → s.x pcReg = s.fa0 + s.cfg.pcRead.offset)
    ∧ (s.cfg.pcRead = Config.atReset.pcRead → s.x pcReg = s.fa1)
    ∧ (r ≠ pcReg → s.x r = s.reg r)

/-- 45_br.md R294: BR_ABS. The word is `0xE0000000 | DDD << 25 | A | I` with A four times the constant; if the condition holds
execution goes on at A after one shadow. -/
def Obligations.BrAbsOutcome : Prop :=
  ∀ (s : State) (cond : Cond) (k : BitVec 23),
    (encode (.brAbs cond k)).toNat
      = 0xE0000000 + (codeOfCond cond).toNat / 2 * 2 ^ 25 + 4 * k.toNat + (codeOfCond cond).toNat % 2
    ∧ BranchOutcome (.brAbs cond k) s (Cond.holds cond s.flags) (BitVec.ofNat 32 (4 * k.toNat))

/-- 45_br.md R295 (`PC_READ` by D4): BR_REL. The target is the value read from register 2 plus four times the signed constant,
modulo 2^32. -/
def Obligations.BrRelOutcome : Prop :=
  ∀ (s : State) (cond : Cond) (k : BitVec 23),
    BranchOutcome (.brRel cond k) s (Cond.holds cond s.flags) (s.x pcReg + BitVec.ofInt 32 (4 * k.toInt))

/-- 49_sbr.md R345 (`SBR_RS3_FIELD` by D29): SBR. The target is Rs1 + Rs3; a misaligned sum matters only when the branch is taken. -/
def Obligations.SbrOutcome : Prop :=
  ∀ (s : State) (cond : Cond) (rs1 rs3 : RegNum), rs1 ≠ isrReg → rs3 ≠ isrReg →
    BranchOutcome (.sbr cond rs1 rs3) s (Cond.holds cond s.flags) (s.x rs1 + s.x rs3)

/-- 46_punt.md R310 (the spec's decision D30): PUNT is refused in every state. -/
def Obligations.PuntIsRefused : Prop :=
  ∀ s : State, exec .punt s = .refused .contextSwitch

/-! ### Loads and stores -/

/-- 43_rm.md R231: the table of `P` and `Q` for LD_RM and ST_RM, with the fullword access and the times of R230, R232, R234 and R235. -/
def Obligations.RmLoadAndStoreOutcome : Prop :=
  ∀ (s : State) (rd rs1 : RegNum) (p q : Bool) (k : BitVec 16),
    rd ≠ pcReg → rd ≠ isrReg → rs1 ≠ isrReg → (q = true → rs1 ≠ pcReg) →
    let sum := s.x rs1 + k.signExtend 32
    let ea := if p then sum else s.x rs1
    LoadOutcome (.ldRm rd rs1 p q k) s rd rs1 q sum ea .w
    ∧ StoreOutcome (.stRm rd rs1 p q k) s rd rs1 q sum ea .w

/-- 44_rrm.md R250 to R252, R254, R256 to R264 (widths by D22): the nine RRM loads. `sum` is the value of the address operation; with
`PQ` = 00 it is used nowhere and the operation is not performed. A shift loads a fullword. -/
def Obligations.RrmLoadOutcome : Prop :=
  ∀ (s : State) (rd rs1 rs2 : RegNum) (p q : Bool) (t : LoadType) (sum : Word),
    rd ≠ pcReg → rd ≠ isrReg → rs1 ≠ isrReg → rs2 ≠ isrReg → (q = true → rs1 ≠ pcReg) →
    let ea := if p then sum else s.x rs1
    let adds := fun op : AluOp => (p = true ∨ q = true) → OpValue op (s.x rs1) (s.x rs2) s.flags.c sum
    (adds .add → LoadOutcome (.ldRrmAdd rd rs1 rs2 p q t) s rd rs1 q sum ea t)
    ∧ (adds .addc → LoadOutcome (.ldRrmAddc rd rs1 rs2 p q t) s rd rs1 q sum ea t)
    ∧ (adds .sub → LoadOutcome (.ldRrmSub rd rs1 rs2 p q t) s rd rs1 q sum ea t)
    ∧ (adds .subb → LoadOutcome (.ldRrmSubb rd rs1 rs2 p q t) s rd rs1 q sum ea t)
    ∧ (adds .and → LoadOutcome (.ldRrmAnd rd rs1 rs2 p q t) s rd rs1 q sum ea t)
    ∧ (adds .or → LoadOutcome (.ldRrmOr rd rs1 rs2 p q t) s rd rs1 q sum ea t)
    ∧ (adds .xor → LoadOutcome (.ldRrmXor rd rs1 rs2 p q t) s rd rs1 q sum ea t)
    ∧ (adds .sh → LoadOutcome (.ldRrmSh rd rs1 rs2 p q) s rd rs1 q sum ea .w)
    ∧ (adds .sha → LoadOutcome (.ldRrmSha rd rs1 rs2 p q) s rd rs1 q sum ea .w)

/-- 44_rrm.md R250 to R252, R254, R265 to R273: the nine RRM stores. -/
def Obligations.RrmStoreOutcome : Prop :=
  ∀ (s : State) (rd rs1 rs2 : RegNum) (p q : Bool) (t : StoreType) (sum : Word),
    rd ≠ pcReg → rd ≠ isrReg → rs1 ≠ isrReg → rs2 ≠ isrReg → (q = true → rs1 ≠ pcReg) →
    let ea := if p then sum else s.x rs1
    let adds := fun op : AluOp => (p = true ∨ q = true) → OpValue op (s.x rs1) (s.x rs2) s.flags.c sum
    (adds .add → StoreOutcome (.stRrmAdd rd rs1 rs2 p q t) s rd rs1 q sum ea t)
    ∧ (adds .addc → StoreOutcome (.stRrmAddc rd rs1 rs2 p q t) s rd rs1 q sum ea t)
    ∧ (adds .sub → StoreOutcome (.stRrmSub rd rs1 rs2 p q t) s rd rs1 q sum ea t)
    ∧ (adds .subb → StoreOutcome (.stRrmSubb rd rs1 rs2 p q t) s rd rs1 q sum ea t)
    ∧ (adds .and → StoreOutcome (.stRrmAnd rd rs1 rs2 p q t) s rd rs1 q sum ea t)
    ∧ (adds .or → StoreOutcome (.stRrmOr rd rs1 rs2 p q t) s rd rs1 q sum ea t)
    ∧ (adds .xor → StoreOutcome (.stRrmXor rd rs1 rs2 p q t) s rd rs1 q sum ea t)
    ∧ (adds .sh → StoreOutcome (.stRrmSh rd rs1 rs2 p q) s rd rs1 q sum ea .w)
    ∧ (adds .sha → StoreOutcome (.stRrmSha rd rs1 rs2 p q) s rd rs1 q sum ea .w)

/-- 47_sls_sli.md R316: LD_SLS. Rd = 2 or 31 is refused; the address is the 21-bit field with its two low bits dropped; the word of an
address whose two ignored bits are 0 (30_encoding.md R120) is `0xF0000000 | Rd << 23 | (A >> 16) << 18 | (A & 0xFFFF)`; the data
reaches Rd late. -/
def Obligations.LdSlsOutcome : Prop :=
  ∀ (s : State) (rd : RegNum) (addr : BitVec 21),
    (addr.toNat % 4 = 0 → (encode (.ldSls rd addr)).toNat
      = 0xF0000000 + rd.toNat * 2 ^ 23 + addr.toNat / 2 ^ 16 * 2 ^ 18 + addr.toNat % 2 ^ 16)
    ∧ (rd = pcReg ∨ rd = isrReg → exec (.ldSls rd addr) s = .refused .prohibitedRd)
    ∧ (rd ≠ pcReg → rd ≠ isrReg → ∀ sum,
        LoadOutcome (.ldSls rd addr) s rd rd false sum (BitVec.ofNat 32 (addr.toNat / 4 * 4)) .w)

/-- 47_sls_sli.md R317: ST_SLS. Rd = 2 or 31 is refused; the word of an address whose two ignored bits are 0 (30_encoding.md R120) is
`0xF0010000 | Rd << 23 | (A >> 16) << 18 | (A & 0xFFFF)`; Rd as read after time 1 is stored at the address with its two low bits
dropped. That an access outside `MEM_MAP` ends in a fault, not a refusal, is the model's choice (log 30). -/
def Obligations.StSlsOutcome : Prop :=
  ∀ (s : State) (rd : RegNum) (addr : BitVec 21),
    (addr.toNat % 4 = 0 → (encode (.stSls rd addr)).toNat
      = 0xF0010000 + rd.toNat * 2 ^ 23 + addr.toNat / 2 ^ 16 * 2 ^ 18 + addr.toNat % 2 ^ 16)
    ∧ (rd = pcReg ∨ rd = isrReg → exec (.stSls rd addr) s = .refused .prohibitedRd)
    ∧ (rd ≠ pcReg → rd ≠ isrReg → ∀ sum,
        StoreOutcome (.stSls rd addr) s rd rd false sum (BitVec.ofNat 32 (addr.toNat / 4 * 4)) .w)

/-- 47_sls_sli.md R320 (late write by the spec's decision D28), 70_reset_and_hazards.md R398: SLI writes the zero-extended constant late.
With Rd = 2 it is refused under `SLI_PC_POLICY` = refuse; under the step rule the constant must be a multiple of 4 (refused at the SLI
itself, log 11), `SHADOW_JUMP_POLICY` must admit the jump, and it has two shadows: the instructions at `fa1` and at the address after
it in sequence come next, then fetch goes on at the constant. -/
def Obligations.SliOutcome : Prop :=
  ∀ (s : State) (rd : RegNum) (k : BitVec 21),
    let v := BitVec.ofNat 32 k.toNat
    (rd = isrReg → exec (.sli rd k) s = .refused .register31)
    ∧ (rd = pcReg → s.cfg.sliPc = .refuse → exec (.sli rd k) s = .refused .sliToPc)
    ∧ (rd = pcReg → s.cfg.sliPc = .follow → k.toNat % 4 ≠ 0 → exec (.sli rd k) s = .refused .pcMisaligned)
    ∧ (rd = pcReg → s.cfg.sliPc = .follow → k.toNat % 4 = 0 → s.jumpBarred → exec (.sli rd k) s = .refused .shadowJump)
    ∧ (rd ≠ isrReg → s.constBarred rd v → exec (.sli rd k) s = .refused .constantRegister)
    ∧ (rd ≠ isrReg → (rd = pcReg → s.cfg.sliPc = .follow ∧ k.toNat % 4 = 0 ∧ ¬ s.jumpBarred) → ¬ s.constBarred rd v →
        ∃ t, exec (.sli rd k) s = .next t ∧ LoadNext s t rd rd false 0#32 v
          ∧ (rd = pcReg → ∀ (j : Instr) (u : State), exec j t = .next u → u.fa0 = t.fa1 ∧ u.fa1 = v))

/-- 48_spls.md R331, R333: the four SPLS instructions. The effective address and the base update are RM's with a 10-bit constant; a
form that names a prohibited register is refused. -/
def Obligations.SplsOutcome : Prop :=
  ∀ (s : State) (rd rs1 : RegNum) (e p q : Bool) (k : BitVec 10),
    let sum := s.x rs1 + k.signExtend 32
    let ea := if p then sum else s.x rs1
    (rd ≠ pcReg → rd ≠ isrReg → rs1 ≠ isrReg → (q = true → rs1 ≠ pcReg) →
      LoadOutcome (.ldhSpls rd rs1 e p q k) s rd rs1 q sum ea (if e then .hz else .h)
      ∧ LoadOutcome (.ldbSpls rd rs1 e p q k) s rd rs1 q sum ea (if e then .bz else .b)
      ∧ StoreOutcome (.sthSpls rd rs1 p q k) s rd rs1 q sum ea .h
      ∧ StoreOutcome (.stbSpls rd rs1 p q k) s rd rs1 q sum ea .b)
    ∧ (rd = pcReg ∨ rd = isrReg ∨ rs1 = isrReg ∨ (q = true ∧ rs1 = pcReg) →
      (∃ r, exec (.ldhSpls rd rs1 e p q k) s = .refused r) ∧ (∃ r, exec (.ldbSpls rd rs1 e p q k) s = .refused r)
      ∧ (∃ r, exec (.sthSpls rd rs1 p q k) s = .refused r) ∧ (∃ r, exec (.stbSpls rd rs1 p q k) s = .refused r))

/-- 20_memory.md R65: what a mixed-width access sees after a fullword store with `ENDIAN` = big; and a fullword read back is the
word stored under either byte order. -/
def Obligations.PartsReadBackAfterWordStore : Prop :=
  ∀ (s : State) (ea : Word) (v : Word) (st : Store), s.memStore ea .w v = .ok st →
    let t := { s with mem := memAfter s.mem (some st) }
    t.readWord ea = .ok v
    ∧ (s.cfg.endian = .big →
      t.readByte ea = .ok (v.extractLsb' 24 8) ∧ t.readByte (ea + 3#32) = .ok (v.extractLsb' 0 8)
      ∧ t.readHalf ea = .ok (v.extractLsb' 16 16) ∧ t.readHalf (ea + 2#32) = .ok (v.extractLsb' 0 16))

/-- 43_rm.md R232, 20_memory.md R70, R67, R68: a load right after a store, of any formats, at the same effective address and of the same
width, sees the store: its late datum is the stored part of the register the store read, extended as the load says. -/
def Obligations.LoadRightAfterStoreSeesIt : Prop :=
  ∀ (s t u : State) (i j : Instr) (rd rd' : RegNum) (ty : StoreType) (ty' : LoadType) (ea : Word),
    i.storeOf = some (rd, ty) → j.loadOf = some (rd', ty') → storeLen ty = loadLen ty' →
    s.eaOf i = some ea → t.eaOf j = some ea →
    exec i s = .next t → exec j t = .next u → u.late = some ⟨rd', loadedBack ty' (s.x rd)⟩

/-! ### Rules of the whole machine -/

/-- 60_exceptions.md R351 rows 5 to 7 (the spec's decisions D14, D15, D39): an instruction whose register fields the spec does not
admit is refused, under the name of its row. -/
def Obligations.IllFormedInstructionsAreRefused : Prop :=
  ∀ (i : Instr) (s : State),
    (i.rdAllowed = false → exec i s = .refused .prohibitedRd)
    ∧ (i.rdAllowed = true → i.avoidsIsr = false → exec i s = .refused .register31)
    ∧ (i.rdAllowed = true → i.avoidsIsr = true → i.baseAllowed = false → exec i s = .refused .pcBaseUpdate)

/-- 10_state.md R34, R36: when an instruction completes, the late write that was pending lands: its register holds the value, or
execution goes on there if it is register 2. -/
def Obligations.PendingLateWriteLands : Prop :=
  ∀ (i : Instr) (s t : State) (w : RegWrite), exec i s = .next t → s.late = some w →
    (w.reg ≠ pcReg → t.reg w.reg = w.val) ∧ (w.reg = pcReg → t.fa1 = w.val)

/-- 70_reset_and_hazards.md R397: the instruction right after a load into `rd` reads the old `rd`, the one after it reads the data, for
the loads of RM, RRM, SLS and SPLS: after the load completes `rd` still holds what it held (unless an older late write to it landed or
the base update wrote it), and after whatever completes next it holds the datum at the load's address. -/
def Obligations.LoadShadowIsOneInstruction : Prop :=
  ∀ (s t u : State) (i j : Instr) (rd : RegNum) (ty : LoadType),
    i.loadOf = some (rd, ty) → exec i s = .next t → exec j t = .next u →
    ∃ ea v, s.eaOf i = some ea ∧ s.datum ea ty v ∧ (i.updatedBase ≠ some rd → t.x rd = s.landed rd) ∧ u.reg rd = v

/-- 10_state.md R36, 70_reset_and_hazards.md R396, R398: which instruction redirects fetch, and when. An instruction that cannot write
the pc leaves the sequence (or a pending late jump) to decide; the next fetch is always the old `fa1`, the shadow. -/
def Obligations.OnlyJumpsRedirectFetch : Prop :=
  ∀ (i : Instr) (s t : State), exec i s = .next t →
    t.fa0 = s.fa1 ∧ (i.jumps = false → t.fa1 = s.seqFetch)

/-- 10_state.md R27, 40_ri.md R147 (D38 for the formats without `F`): only an RI, RR or RRR instruction with `F` = 1 changes a flag. -/
def Obligations.FlagsChangeOnlyUnderF : Prop :=
  ∀ (i : Instr) (s t : State), exec i s = .next t → i.writesFlags = false → t.flags = s.flags

/-- 20_memory.md R78, R63: only a store changes a byte of memory. -/
def Obligations.MemoryChangesOnlyByStores : Prop :=
  ∀ (i : Instr) (s t : State), exec i s = .next t → i.stores = false →
    (∀ a, t.mem.get a = s.mem.get a) ∧ t.store1 = none

/-- 10_state.md R23, R28, 60_exceptions.md R356, 70_reset_and_hazards.md R392: no instruction changes `ctx`, the launch parameters or,
unless a late write to it was pending (which the invariant rules out), register 31. -/
def Obligations.ContextIsrAndParametersNeverChange : Prop :=
  ∀ (i : Instr) (s t : State), exec i s = .next t →
    t.ctx = s.ctx ∧ t.cfg = s.cfg ∧ (¬ s.pending isrReg → t.reg isrReg = s.reg isrReg)

/-- 60_exceptions.md R353, 40_ri.md R146, 42_rrr.md R201: the spec draws after a flag-setting shift by 0 and after a flag-setting and, or,
xor of RRR, once a step, and nowhere else. It is said of the model's own counter of free values used, `State.draws` (DESIGN CHOICE,
log 9). -/
def Obligations.FreeValuesAreUsedOnlyWhereDrawn : Prop :=
  ∀ (i : Instr) (s t : State), exec i s = .next t → t.draws = s.draws + (s.drawsAt i).toNat

/-- 60_exceptions.md R350, R351, R354, 10_state.md R24, R35, R36, R38: for every reason an instruction can stop, what must hold of the
instruction and the state. The names of the stops, and that two of them are called faults, are the model's (logs 30, 34). -/
def Obligations.MeaningsStopOnlyForListedReasons : Prop :=
  ∀ (i : Instr) (s : State),
    (exec i s = .fault .outsideMemMap → i.loads = true ∨ i.stores = true)
    ∧ (exec i s = .fault .unwrittenByte → i.loads = true)
    ∧ (exec i s = .refused .misaligned → i.loads = true ∨ i.stores = true)
    ∧ (exec i s = .refused .prohibitedRd → i.rdAllowed = false)
    ∧ (exec i s = .refused .register31 → i.avoidsIsr = false)
    ∧ (exec i s = .refused .pcBaseUpdate → i.baseAllowed = false)
    ∧ (exec i s = .refused .contextSwitch → i = .punt)
    ∧ (exec i s = .refused .shiftRange → i.mayShift = true)
    ∧ (exec i s = .refused .pcMisaligned → i.mayWritePc = true)
    ∧ (exec i s = .refused .writeCollision →
        ∃ w, s.late = some w ∧ (w.reg ∈ i.regFields ∨ (w.reg = pcReg ∧ i.mayWritePc = true)))
    ∧ (exec i s = .refused .shadowJump → i.mayWritePc = true ∧ s.jumpBarred)
    ∧ (exec i s = .refused .sliToPc → (∃ k, i = .sli pcReg k) ∧ s.cfg.sliPc = .refuse)
    ∧ (exec i s = .refused .constantRegister → s.cfg.regConst = .zeroOnes ∧ (0 ∈ i.regFields ∨ 1 ∈ i.regFields))
    ∧ ∀ r, exec i s = .refused r →
        r ∈ [.misaligned, .prohibitedRd, .register31, .pcBaseUpdate, .contextSwitch, .shiftRange, .pcMisaligned, .writeCollision,
          .shadowJump, .sliToPc, .constantRegister]

/-! ### Runs -/

/-- 60_exceptions.md R369 (the spec's decision D35): a run ends where the launch parameter `END_OF_RUN` says, after its step count or in
the first state that fetches from its address, and nowhere else; where the launch names no end (log 31), never. -/
def Obligations.RunsEndWhereTheLaunchSays : Prop :=
  ∀ (s r : State) (fuel : Nat),
    (∀ k, s.cfg.endOfRun = some (.steps k) → (s.runFrom fuel 0 = .ended r ↔ k ≤ fuel ∧ Steps k s r))
    ∧ (∀ a, s.cfg.endOfRun = some (.fetch a) →
        (s.runFrom fuel 0 = .ended r ↔ ∃ m ≤ fuel, Steps m s r ∧ r.fa0 = a ∧ ∀ m' < m, ∀ q, Steps m' s q → q.fa0 ≠ a))
    ∧ (s.cfg.endOfRun = none → s.runFrom fuel 0 ≠ .ended r)

/-- 60_exceptions.md R369: `b.t abs L` at address `L` with a `nop` in its shadow is a loop of two instructions that changes nothing: once
entered with no late write pending and no store remembered, the state at each fetch from `L` stays the same for ever. -/
def Obligations.SelfBranchLoopStaysPut : Prop :=
  ∀ (s : State) (k : BitVec 23), s.fa0.toNat = 4 * k.toNat → s.fa1 = s.fa0 + 4#32 → s.late = none → s.store1 = none →
    s.store2 = none → s.mapped s.fa0 8 → s.holds s.fa0 (splitWord s.cfg.endian (encode (.brAbs .t k)) ++ [0, 0, 0, 0]) →
    ∀ n, Steps (2 * n) s s
end

