-- ==== Sys2Proof/Laws/Alu.lean ====
section
/-! SUPPORT. What the ALU operations give: values, flags, and the shifts by amount (40_ri.md R141 to R148). -/

namespace Sys2Proof.Machine

/-! ### Sums (R141, R145, R146) -/

theorem addWithCarry_r (a b : Word) (c : Bool) : (addWithCarry a b c).r = a + b + BitVec.ofNat 32 c.toNat := by
  apply BitVec.eq_of_toNat_eq
  simp [addWithCarry, BitVec.toNat_add]

theorem addWithCarry_flags (a b : Word) (c : Bool) (old : Flags) (free : Bool) :
    (addWithCarry a b c).flags old free = sumFlags a b c := by
  have h := addWithCarry_r a b c
  simp only [AluOut.flags, sumFlags, h, BitVec.msb_eq_getLsbD_last]
  congr 1
  have h' := h
  simp only [addWithCarry] at h' ⊢
  rw [h']; simp [BitVec.msb_eq_getLsbD_last]

@[simp] theorem addWithCarry_carry_draws (a b : Word) (c : Bool) : (addWithCarry a b c).carry.draws = false := rfl

/-- Adding the complement and one subtracts (R141). -/
theorem add_not_add_one (a b : Word) : a + ~~~b + BitVec.ofNat 32 true.toNat = a - b := by
  rw [BitVec.sub_eq_add_neg, BitVec.neg_eq_not_add, BitVec.add_assoc]; rfl

/-! ### Shifts (R142) -/

theorem toInt_ofNat_of_le {n : Nat} (h : n ≤ 31) : (BitVec.ofNat 32 n).toInt = n := by
  rw [BitVec.toInt_eq_toNat_of_lt] <;> simp <;> omega

theorem toInt_neg_ofNat_of_le {m : Nat} (h : m ≤ 31) : (-BitVec.ofNat 32 m).toInt = -(m : Int) := by
  interval_cases m <;> rfl

/-- A left shift by 0 to 31. -/
theorem shift_left (ar : Bool) (a : Word) {n : Nat} (h : n ≤ 31) :
    shift ar a (BitVec.ofNat 32 n) =
      some ⟨a <<< n, false, if n = 0 then .anyBit else .is (a.getLsbD (32 - n))⟩ := by
  unfold shift
  rw [toInt_ofNat_of_le h, if_pos (by omega)]
  rfl

/-- A right shift by 1 to 31. -/
theorem shift_right (ar : Bool) (a : Word) {m : Nat} (h : m ≤ 31) (h1 : 1 ≤ m) :
    shift ar a (-BitVec.ofNat 32 m) = some ⟨if ar then a.sshiftRight m else a >>> m, false, .is false⟩ := by
  unfold shift
  rw [toInt_neg_ofNat_of_le h, if_neg (by omega), if_pos (by omega)]
  simp

/-- No shift by any other amount (D11). -/
theorem shift_none (ar : Bool) (a b : Word) (h : b.toInt < -31 ∨ 31 < b.toInt) : shift ar a b = none := by
  unfold shift
  rw [if_neg (by omega), if_neg (by omega)]

/-- Every amount is a left shift's, a right shift's, or out of range. -/
theorem shift_amount (b : Word) :
    (∃ n ≤ 31, b = BitVec.ofNat 32 n) ∨ (∃ m ≤ 31, 1 ≤ m ∧ b = -BitVec.ofNat 32 m) ∨ (b.toInt < -31 ∨ 31 < b.toInt) := by
  by_cases h : b.toInt < -31 ∨ 31 < b.toInt
  · exact .inr (.inr h)
  · by_cases h0 : 0 ≤ b.toInt
    · refine .inl ⟨b.toInt.toNat, by omega, BitVec.eq_of_toInt_eq ?_⟩
      rw [toInt_ofNat_of_le (by omega)]; omega
    · refine .inr (.inl ⟨(-b.toInt).toNat, by omega, by omega, BitVec.eq_of_toInt_eq ?_⟩)
      rw [toInt_neg_ofNat_of_le (by omega)]; omega

/-! ### Values without flags (42_rrr.md R201, 44_rrm.md R251) -/

/-- When an operation has a value, and which. -/
theorem aluValue_eq_ok (op : AluOp) (a b : Word) (c : Bool) (r : Word) :
    aluValue op a b c = .ok r ↔ OpValue op a b c r := by
  have sh : ∀ ar : Bool, aluValue (if ar then .sha else .sh) a b c = .ok r ↔
      ((∃ n ≤ 31, b = BitVec.ofNat 32 n ∧ r = a <<< n)
      ∨ ∃ m ≤ 31, 1 ≤ m ∧ b = -BitVec.ofNat 32 m ∧ r = if ar then a.sshiftRight m else a >>> m) := by
    intro ar
    have hs : alu (if ar then .sha else .sh) .keep a b c = shift ar a b := by cases ar <;> rfl
    unfold aluValue
    rw [hs]
    rcases shift_amount b with ⟨n, hn, rfl⟩ | ⟨m, hm, h1, rfl⟩ | h
    · rw [shift_left ar a hn]
      simp only [Except.ok.injEq]
      constructor
      · exact fun h => .inl ⟨n, hn, rfl, h.symm⟩
      · rintro (⟨k, hk, hb, rfl⟩ | ⟨k, hk, h1, hb, rfl⟩)
        · have := congrArg BitVec.toInt hb
          rw [toInt_ofNat_of_le hn, toInt_ofNat_of_le hk] at this
          rw [show n = k by omega]
        · have := congrArg BitVec.toInt hb
          rw [toInt_ofNat_of_le hn, toInt_neg_ofNat_of_le hk] at this
          omega
    · rw [shift_right ar a hm h1]
      simp only [Except.ok.injEq]
      constructor
      · exact fun h => .inr ⟨m, hm, h1, rfl, h.symm⟩
      · rintro (⟨k, hk, hb, rfl⟩ | ⟨k, hk, h1, hb, rfl⟩)
        · have := congrArg BitVec.toInt hb
          rw [toInt_neg_ofNat_of_le hm, toInt_ofNat_of_le hk] at this
          omega
        · have := congrArg BitVec.toInt hb
          rw [toInt_neg_ofNat_of_le hm, toInt_neg_ofNat_of_le hk] at this
          rw [show m = k by omega]
    · rw [shift_none ar a b h]
      simp only [reduceCtorEq, false_iff]
      rintro (⟨k, hk, rfl, -⟩ | ⟨k, hk, h1, rfl, -⟩)
      · rw [toInt_ofNat_of_le hk] at h; omega
      · rw [toInt_neg_ofNat_of_le hk] at h; omega
  cases op
  case sh => simpa [OpValue] using sh false
  case sha => simpa [OpValue] using sh true
  case sub => simp [aluValue, alu, OpValue, addWithCarry_r, ← add_not_add_one, eq_comm]
  all_goals simp [aluValue, alu, OpValue, addWithCarry_r, eq_comm]

/-- An operation without a value is a shift out of range. -/
theorem aluValue_error {op : AluOp} {a b : Word} {c : Bool} {r : Stop} (h : aluValue op a b c = .error r) :
    r = .refuse .shiftRange := by
  unfold aluValue at h
  split at h <;> simp_all

end Sys2Proof.Machine
end

