-- ==== Sys2Proof/Laws/Decode.lean ====
section
/-! SUPPORT. The fields of an encoded word, one lemma for each field of each layout (30_encoding.md R102 to R112). -/

namespace Sys2Proof

/-! ### RM, SLS, SLI (R105, R109, R110) -/

@[simp] theorem encConst_op (op : BitVec 4) (rd rs1 : RegNum) (b17 b16 : Bool) (k : BitVec 16) :
    (encConst op rd rs1 b17 b16 k).extractLsb' 28 4 = op := by
  apply BitVec.eq_of_getLsbD_eq; intro i hi
  simp only [encConst, BitVec.getLsbD_extractLsb', BitVec.getLsbD_append]
  interval_cases i <;> simp

@[simp] theorem encConst_rd (op : BitVec 4) (rd rs1 : RegNum) (b17 b16 : Bool) (k : BitVec 16) :
    rdField (encConst op rd rs1 b17 b16 k) = rd := by
  apply BitVec.eq_of_getLsbD_eq; intro i hi
  simp only [rdField, encConst, BitVec.getLsbD_extractLsb', BitVec.getLsbD_append]
  interval_cases i <;> simp

@[simp] theorem encConst_rs1 (op : BitVec 4) (rd rs1 : RegNum) (b17 b16 : Bool) (k : BitVec 16) :
    (encConst op rd rs1 b17 b16 k).extractLsb' 18 5 = rs1 := by
  apply BitVec.eq_of_getLsbD_eq; intro i hi
  simp only [encConst, BitVec.getLsbD_extractLsb', BitVec.getLsbD_append]
  interval_cases i <;> simp

@[simp] theorem encConst_b17 (op : BitVec 4) (rd rs1 : RegNum) (b17 b16 : Bool) (k : BitVec 16) :
    (encConst op rd rs1 b17 b16 k)[17] = b17 := by
  rw [← BitVec.getLsbD_eq_getElem]; simp only [encConst, BitVec.getLsbD_append]; simp

@[simp] theorem encConst_b16 (op : BitVec 4) (rd rs1 : RegNum) (b17 b16 : Bool) (k : BitVec 16) :
    (encConst op rd rs1 b17 b16 k)[16] = b16 := by
  rw [← BitVec.getLsbD_eq_getElem]; simp only [encConst, BitVec.getLsbD_append]; simp

@[simp] theorem encConst_k (op : BitVec 4) (rd rs1 : RegNum) (b17 b16 : Bool) (k : BitVec 16) :
    (encConst op rd rs1 b17 b16 k).extractLsb' 0 16 = k := by
  apply BitVec.eq_of_getLsbD_eq; intro i hi
  simp only [encConst, BitVec.getLsbD_extractLsb', BitVec.getLsbD_append]
  interval_cases i <;> simp

/-- The two parts of a 21-bit field make it (R109, R110). -/
theorem join21 (a : BitVec 21) : a.extractLsb' 16 5 ++ a.extractLsb' 0 16 = a := by
  apply BitVec.eq_of_getLsbD_eq; intro i hi
  simp only [BitVec.getLsbD_extractLsb', BitVec.getLsbD_append]
  interval_cases i <;> simp

/-! ### RI (R102) -/

@[simp] theorem encRi_op (aaa : BitVec 3) (rd rs1 : RegNum) (f h : Bool) (k : BitVec 16) :
    (encRi aaa rd rs1 f h k).extractLsb' 28 4 = 0#1 ++ aaa := by
  apply BitVec.eq_of_getLsbD_eq; intro i hi
  simp only [encRi, BitVec.getLsbD_extractLsb', BitVec.getLsbD_append]
  interval_cases i <;> simp

@[simp] theorem encRi_aaa (aaa : BitVec 3) (rd rs1 : RegNum) (f h : Bool) (k : BitVec 16) :
    (encRi aaa rd rs1 f h k).extractLsb' 28 3 = aaa := by
  apply BitVec.eq_of_getLsbD_eq; intro i hi
  simp only [encRi, BitVec.getLsbD_extractLsb', BitVec.getLsbD_append]
  interval_cases i <;> simp

@[simp] theorem encRi_rd (aaa : BitVec 3) (rd rs1 : RegNum) (f h : Bool) (k : BitVec 16) :
    rdField (encRi aaa rd rs1 f h k) = rd := by
  apply BitVec.eq_of_getLsbD_eq; intro i hi
  simp only [rdField, encRi, BitVec.getLsbD_extractLsb', BitVec.getLsbD_append]
  interval_cases i <;> simp

@[simp] theorem encRi_rs1 (aaa : BitVec 3) (rd rs1 : RegNum) (f h : Bool) (k : BitVec 16) :
    rs1Field (encRi aaa rd rs1 f h k) = rs1 := by
  apply BitVec.eq_of_getLsbD_eq; intro i hi
  simp only [rs1Field, encRi, BitVec.getLsbD_extractLsb', BitVec.getLsbD_append]
  interval_cases i <;> simp

@[simp] theorem encRi_f (aaa : BitVec 3) (rd rs1 : RegNum) (f h : Bool) (k : BitVec 16) :
    fBit (encRi aaa rd rs1 f h k) = f := by
  simp only [fBit, encRi, BitVec.getLsbD_append]; simp

@[simp] theorem encRi_h (aaa : BitVec 3) (rd rs1 : RegNum) (f h : Bool) (k : BitVec 16) :
    hBit (encRi aaa rd rs1 f h k) = h := by
  simp only [hBit, encRi, BitVec.getLsbD_append]; simp

@[simp] theorem encRi_k (aaa : BitVec 3) (rd rs1 : RegNum) (f h : Bool) (k : BitVec 16) :
    (encRi aaa rd rs1 f h k).extractLsb' 0 16 = k := by
  apply BitVec.eq_of_getLsbD_eq; intro i hi
  simp only [encRi, BitVec.getLsbD_extractLsb', BitVec.getLsbD_append]
  interval_cases i <;> simp

/-! ### RR, RRR, RRM (R103, R104, R106) -/

@[simp] theorem encReg_op (op : BitVec 4) (rd rs1 : RegNum) (b17 b16 : Bool) (rs2 : RegNum) (bbb : BitVec 3) (j : BitVec 5)
    (low : BitVec 3) : (encReg op rd rs1 b17 b16 rs2 bbb j low).extractLsb' 28 4 = op := by
  apply BitVec.eq_of_getLsbD_eq; intro i hi
  simp only [encReg, BitVec.getLsbD_extractLsb', BitVec.getLsbD_append]
  interval_cases i <;> simp

@[simp] theorem encReg_rd (op : BitVec 4) (rd rs1 : RegNum) (b17 b16 : Bool) (rs2 : RegNum) (bbb : BitVec 3) (j : BitVec 5)
    (low : BitVec 3) : rdField (encReg op rd rs1 b17 b16 rs2 bbb j low) = rd := by
  apply BitVec.eq_of_getLsbD_eq; intro i hi
  simp only [rdField, encReg, BitVec.getLsbD_extractLsb', BitVec.getLsbD_append]
  interval_cases i <;> simp

@[simp] theorem encReg_rs1 (op : BitVec 4) (rd rs1 : RegNum) (b17 b16 : Bool) (rs2 : RegNum) (bbb : BitVec 3) (j : BitVec 5)
    (low : BitVec 3) : rs1Field (encReg op rd rs1 b17 b16 rs2 bbb j low) = rs1 := by
  apply BitVec.eq_of_getLsbD_eq; intro i hi
  simp only [rs1Field, encReg, BitVec.getLsbD_extractLsb', BitVec.getLsbD_append]
  interval_cases i <;> simp

@[simp] theorem encReg_b17 (op : BitVec 4) (rd rs1 : RegNum) (b17 b16 : Bool) (rs2 : RegNum) (bbb : BitVec 3) (j : BitVec 5)
    (low : BitVec 3) : fBit (encReg op rd rs1 b17 b16 rs2 bbb j low) = b17 := by
  simp only [fBit, encReg, BitVec.getLsbD_append]; simp

@[simp] theorem encReg_b16 (op : BitVec 4) (rd rs1 : RegNum) (b17 b16 : Bool) (rs2 : RegNum) (bbb : BitVec 3) (j : BitVec 5)
    (low : BitVec 3) : hBit (encReg op rd rs1 b17 b16 rs2 bbb j low) = b16 := by
  simp only [hBit, encReg, BitVec.getLsbD_append]; simp

@[simp] theorem encReg_rs2 (op : BitVec 4) (rd rs1 : RegNum) (b17 b16 : Bool) (rs2 : RegNum) (bbb : BitVec 3) (j : BitVec 5)
    (low : BitVec 3) : rs2Field (encReg op rd rs1 b17 b16 rs2 bbb j low) = rs2 := by
  apply BitVec.eq_of_getLsbD_eq; intro i hi
  simp only [rs2Field, encReg, BitVec.getLsbD_extractLsb', BitVec.getLsbD_append]
  interval_cases i <;> simp

@[simp] theorem encReg_bbb (op : BitVec 4) (rd rs1 : RegNum) (b17 b16 : Bool) (rs2 : RegNum) (bbb : BitVec 3) (j : BitVec 5)
    (low : BitVec 3) : (encReg op rd rs1 b17 b16 rs2 bbb j low).extractLsb' 8 3 = bbb := by
  apply BitVec.eq_of_getLsbD_eq; intro i hi
  simp only [encReg, BitVec.getLsbD_extractLsb', BitVec.getLsbD_append]
  interval_cases i <;> simp

@[simp] theorem encReg_j (op : BitVec 4) (rd rs1 : RegNum) (b17 b16 : Bool) (rs2 : RegNum) (bbb : BitVec 3) (j : BitVec 5)
    (low : BitVec 3) : (encReg op rd rs1 b17 b16 rs2 bbb j low).extractLsb' 3 5 = j := by
  apply BitVec.eq_of_getLsbD_eq; intro i hi
  simp only [encReg, BitVec.getLsbD_extractLsb', BitVec.getLsbD_append]
  interval_cases i <;> simp

@[simp] theorem encReg_low (op : BitVec 4) (rd rs1 : RegNum) (b17 b16 : Bool) (rs2 : RegNum) (bbb : BitVec 3) (j : BitVec 5)
    (low : BitVec 3) : (encReg op rd rs1 b17 b16 rs2 bbb j low).extractLsb' 0 3 = low := by
  apply BitVec.eq_of_getLsbD_eq; intro i hi
  simp only [encReg, BitVec.getLsbD_extractLsb', BitVec.getLsbD_append]
  interval_cases i <;> simp

/-! ### BR (R107) -/

@[simp] theorem encBr_op (c : Cond) (k : BitVec 23) (r : Bool) : (encBr c k r).extractLsb' 28 4 = 14#4 := by
  apply BitVec.eq_of_getLsbD_eq; intro i hi
  simp only [encBr, BitVec.getLsbD_extractLsb', BitVec.getLsbD_append]
  interval_cases i <;> simp

@[simp] theorem encBr_cond (c : Cond) (k : BitVec 23) (r : Bool) : condField (encBr c k r) = codeOfCond c := by
  apply BitVec.eq_of_getLsbD_eq; intro i hi
  simp only [condField, encBr, BitVec.getLsbD_extractLsb', BitVec.getLsbD_append]
  interval_cases i <;> simp

@[simp] theorem encBr_k (c : Cond) (k : BitVec 23) (r : Bool) : (encBr c k r).extractLsb' 2 23 = k := by
  apply BitVec.eq_of_getLsbD_eq; intro i hi
  simp only [encBr, BitVec.getLsbD_extractLsb', BitVec.getLsbD_append]
  interval_cases i <;> simp

@[simp] theorem encBr_r (c : Cond) (k : BitVec 23) (r : Bool) : (encBr c k r)[1] = r := by
  rw [← BitVec.getLsbD_eq_getElem]; simp only [encBr, BitVec.getLsbD_append]; simp

/-! ### SPLS (R111) -/

@[simp] theorem encSpls_op (rd rs1 : RegNum) (y s e p q : Bool) (k : BitVec 10) :
    (encSpls rd rs1 y s e p q k).extractLsb' 28 4 = 15#4 := by
  apply BitVec.eq_of_getLsbD_eq; intro i hi
  simp only [encSpls, BitVec.getLsbD_extractLsb', BitVec.getLsbD_append]
  interval_cases i <;> simp

@[simp] theorem encSpls_rd (rd rs1 : RegNum) (y s e p q : Bool) (k : BitVec 10) :
    rdField (encSpls rd rs1 y s e p q k) = rd := by
  apply BitVec.eq_of_getLsbD_eq; intro i hi
  simp only [rdField, encSpls, BitVec.getLsbD_extractLsb', BitVec.getLsbD_append]
  interval_cases i <;> simp

@[simp] theorem encSpls_rs1 (rd rs1 : RegNum) (y s e p q : Bool) (k : BitVec 10) :
    rs1Field (encSpls rd rs1 y s e p q k) = rs1 := by
  apply BitVec.eq_of_getLsbD_eq; intro i hi
  simp only [rs1Field, encSpls, BitVec.getLsbD_extractLsb', BitVec.getLsbD_append]
  interval_cases i <;> simp

/-- Bits 17 to 10 of an SPLS word: 110, then Y, S, E, P, Q. -/
theorem encSpls_bits (rd rs1 : RegNum) (y s e p q : Bool) (k : BitVec 10) :
    (encSpls rd rs1 y s e p q k)[17] = true ∧ (encSpls rd rs1 y s e p q k)[16] = true
    ∧ (encSpls rd rs1 y s e p q k)[15] = false ∧ (encSpls rd rs1 y s e p q k)[14] = y
    ∧ (encSpls rd rs1 y s e p q k)[13] = s ∧ (encSpls rd rs1 y s e p q k)[12] = e
    ∧ (encSpls rd rs1 y s e p q k)[11] = p ∧ (encSpls rd rs1 y s e p q k)[10] = q := by
  simp only [← BitVec.getLsbD_eq_getElem, encSpls, BitVec.getLsbD_append]; simp

@[simp] theorem encSpls_k (rd rs1 : RegNum) (y s e p q : Bool) (k : BitVec 10) :
    (encSpls rd rs1 y s e p q k).extractLsb' 0 10 = k := by
  apply BitVec.eq_of_getLsbD_eq; intro i hi
  simp only [encSpls, BitVec.getLsbD_extractLsb', BitVec.getLsbD_append]
  interval_cases i <;> simp

/-! ### SBR (R112) -/

@[simp] theorem encSbr_op (c : Cond) (rs1 rs3 : RegNum) : (encSbr c rs1 rs3).extractLsb' 28 4 = 15#4 := by
  apply BitVec.eq_of_getLsbD_eq; intro i hi
  simp only [encSbr, BitVec.getLsbD_extractLsb', BitVec.getLsbD_append]
  interval_cases i <;> simp

@[simp] theorem encSbr_cond (c : Cond) (rs1 rs3 : RegNum) : condField (encSbr c rs1 rs3) = codeOfCond c := by
  apply BitVec.eq_of_getLsbD_eq; intro i hi
  simp only [condField, encSbr, BitVec.getLsbD_extractLsb', BitVec.getLsbD_append]
  interval_cases i <;> simp

@[simp] theorem encSbr_rs1 (c : Cond) (rs1 rs3 : RegNum) : rs1Field (encSbr c rs1 rs3) = rs1 := by
  apply BitVec.eq_of_getLsbD_eq; intro i hi
  simp only [rs1Field, encSbr, BitVec.getLsbD_extractLsb', BitVec.getLsbD_append]
  interval_cases i <;> simp

@[simp] theorem encSbr_rs3 (c : Cond) (rs1 rs3 : RegNum) : rs3Field (encSbr c rs1 rs3) = rs3 := by
  apply BitVec.eq_of_getLsbD_eq; intro i hi
  simp only [rs3Field, encSbr, BitVec.getLsbD_extractLsb', BitVec.getLsbD_append]
  interval_cases i <;> simp

/-- The bits of an SBR word that mark it: 17:8, 2:1, 24:23, and 17 to 15 one by one. -/
theorem encSbr_marks (c : Cond) (rs1 rs3 : RegNum) :
    (encSbr c rs1 rs3).extractLsb' 8 10 = 960#10 ∧ (encSbr c rs1 rs3).extractLsb' 1 2 = 0#2
    ∧ (encSbr c rs1 rs3).extractLsb' 23 2 = 0#2 ∧ (encSbr c rs1 rs3)[17] = true
    ∧ (encSbr c rs1 rs3)[16] = true ∧ (encSbr c rs1 rs3)[15] = true := by
  refine ⟨?_, ?_, ?_, ?_, ?_, ?_⟩
  iterate 3
    apply BitVec.eq_of_getLsbD_eq; intro i hi
    simp only [encSbr, BitVec.getLsbD_extractLsb', BitVec.getLsbD_append]
    interval_cases i <;> simp
  iterate 3 (simp only [← BitVec.getLsbD_eq_getElem, encSbr, BitVec.getLsbD_append]; simp)

/-! ### Unused fields (R120) -/

/-- An instruction whose unused fields are 0 is its own clean form. -/
theorem Instr.clean_of_unusedZero {i : Instr} (h : i.unusedZero = true) : i.clean = i := by
  have sls : ∀ a : BitVec 21, a.extractLsb' 0 2 = 0#2 → a &&& 0x1FFFFC#21 = a := by
    intro a ha
    have h0 : a.getLsbD 0 = false := by simpa using congrArg (·.getLsbD 0) ha
    have h1 : a.getLsbD 1 = false := by simpa using congrArg (·.getLsbD 1) ha
    apply BitVec.eq_of_getLsbD_eq; intro i hi
    simp only [BitVec.getLsbD_and]
    interval_cases i <;> simp_all
  cases i <;> try rfl
  all_goals simp only [Instr.unusedZero, Bool.or_eq_true, beq_iff_eq] at h
  case ldSls | stSls => simp [Instr.clean, sls _ h]
  all_goals (rename_i p q _; cases p <;> cases q <;> simp_all [Instr.clean])

/-- Cleaning leaves no unused field but 0. -/
theorem Instr.clean_unusedZero (i : Instr) : i.clean.unusedZero = true := by
  cases i <;> try rfl
  case ldSls | stSls =>
    simp only [Instr.clean, Instr.unusedZero, beq_iff_eq]
    apply BitVec.eq_of_getLsbD_eq; intro i hi
    simp only [BitVec.getLsbD_extractLsb', BitVec.getLsbD_and]
    interval_cases i <;> simp
  all_goals
    simp only [Instr.clean]
    split <;> simp_all [Instr.unusedZero]

/-! ### Codes -/

@[simp] theorem condOfCode_codeOfCond (c : Cond) : condOfCode (codeOfCond c) = c := by cases c <;> rfl
@[simp] theorem codeOfCond_condOfCode (c : BitVec 4) : codeOfCond (condOfCode c) = c := by revert c; decide
@[simp] theorem op1OfCode_codeOfOp1 (o : Op1) : op1OfCode (codeOfOp1 o) = o := by cases o <;> rfl
@[simp] theorem codeOfOp1_op1OfCode (c : BitVec 3) : codeOfOp1 (op1OfCode c) = c := by revert c; decide
@[simp] theorem loadTypeOfCode_codeOfLoadType (t : LoadType) : loadTypeOfCode (codeOfLoadType t) = some t := by cases t <;> rfl
@[simp] theorem storeTypeOfCode_codeOfStoreType (t : StoreType) : storeTypeOfCode (codeOfStoreType t) = some t := by
  cases t <;> rfl

/-- The bytes of a word make it again, in either byte order (20_memory.md R62, R63). -/
theorem join_big (v : Word) :
    joinWord .big (v.extractLsb' 24 8) (v.extractLsb' 16 8) (v.extractLsb' 8 8) (v.extractLsb' 0 8) = v := by
  apply BitVec.eq_of_getLsbD_eq; intro i hi
  simp only [joinWord, BitVec.getLsbD_extractLsb', BitVec.getLsbD_append]
  interval_cases i <;> simp

theorem join_little (v : Word) :
    joinWord .little (v.extractLsb' 0 8) (v.extractLsb' 8 8) (v.extractLsb' 16 8) (v.extractLsb' 24 8) = v := by
  apply BitVec.eq_of_getLsbD_eq; intro i hi
  simp only [joinWord, BitVec.getLsbD_extractLsb', BitVec.getLsbD_append]
  interval_cases i <;> simp

end Sys2Proof
end

