-- ==== Sys2Proof/Laws/Memory.lean ====
section
/-! SUPPORT. The laws of memory (20_memory.md R60 to R63): a byte read after a store, and the canonical form, which every
operation on memory keeps. -/

namespace Sys2Proof.Machine

/-! ### Reading after writing -/

/-- The byte read from an address after a byte is written to one (R62, R63). -/
theorem Memory.get_set (m : Memory) (a b : Nat) (v : Byte) :
    (m.set a v).get b = if a = b then some v else m.get b := by
  induction m with
  | nil => by_cases hab : a = b <;> simp [set, get, hab]
  | cons c m ih =>
    obtain ⟨k, w⟩ := c
    simp only [set]
    split
    · by_cases hab : a = b <;> simp [get, hab]
    · split
      · subst_vars
        by_cases hab : k = b <;> simp [get, hab]
      · by_cases hkb : k = b
        · have : ¬ a = b := by omega
          simp [get, hkb, this]
        · simp [get, hkb, ih]

/-- Writing keeps the addresses rising. -/
theorem Memory.risesFrom_set {m : Memory} {a lo : Nat} (v : Byte) (h : m.risesFrom lo = true) (ha : lo ≤ a) :
    (m.set a v).risesFrom lo = true := by
  induction m generalizing lo with
  | nil => simpa [set, risesFrom] using ha
  | cons c m ih =>
    obtain ⟨k, w⟩ := c
    simp only [risesFrom, Bool.and_eq_true, decide_eq_true_eq] at h
    simp only [set]
    split
    · simp [risesFrom, ha, h.2]; omega
    · split
      · subst_vars; simp [risesFrom, ha, h.2]
      · simp [risesFrom, h.1, ih h.2 (by omega)]

/-- What memory lists after a write is what was listed, and the written byte. -/
theorem Memory.mem_of_mem_set {m : Memory} {a : Nat} {v : Byte} {c : Host.Cell} (h : c ∈ m.set a v) :
    c = (a, v) ∨ c ∈ m := by
  induction m with
  | nil => simpa [set] using h
  | cons d m ih =>
    obtain ⟨k, w⟩ := d
    simp only [set] at h
    split at h
    · simpa using h
    · split at h
      · simp only [List.mem_cons] at h ⊢; tauto
      · simp only [List.mem_cons] at h ⊢
        rcases h with h | h
        · exact .inr (.inl h)
        · rcases ih h with h | h
          · exact .inl h
          · exact .inr (.inr h)

/-- The canonical form in terms of its two parts. -/
theorem Memory.wf_iff (m : Memory) : m.wf = true ↔ m.risesFrom 0 = true ∧ ∀ c ∈ m, c.1 < 4294967296 := by
  simp [wf]

/-- Writing a byte at a 32-bit address keeps the canonical form. -/
theorem Memory.wf_set {m : Memory} {a : Nat} (v : Byte) (h : m.wf = true) (ha : a < 4294967296) :
    (m.set a v).wf = true := by
  rw [wf_iff] at h ⊢
  refine ⟨risesFrom_set v h.1 (Nat.zero_le a), fun c hc => ?_⟩
  rcases mem_of_mem_set hc with rfl | hc
  · exact ha
  · exact h.2 c hc

/-! ### Runs of bytes -/

/-- The byte read from an address after a run of bytes is stored (R63). -/
theorem Memory.get_setBytes (m : Memory) (a b : Nat) (bs : List Byte) :
    (m.setBytes a bs).get b = if a ≤ b then (bs[b - a]?).or (m.get b) else m.get b := by
  induction bs generalizing m a with
  | nil => simp [setBytes]
  | cons v bs ih =>
    rw [setBytes, ih, get_set]
    by_cases h1 : a + 1 ≤ b
    · obtain ⟨d, rfl⟩ : ∃ d, b = a + (d + 1) := ⟨b - a - 1, by omega⟩
      have e1 : a + (d + 1) - (a + 1) = d := by omega
      have e2 : a + (d + 1) - a = d + 1 := by omega
      have e3 : ¬ a = a + (d + 1) := by omega
      have e4 : a ≤ a + (d + 1) := by omega
      rw [if_pos h1, if_neg e3, if_pos e4, e1, e2, List.getElem?_cons_succ]
    · by_cases h2 : a = b
      · subst h2; simp
      · have h3 : ¬ a ≤ b := by omega
        simp [h1, h2, h3]

/-- Storing a run of bytes inside the address space keeps the canonical form. -/
theorem Memory.wf_setBytes {m : Memory} {a : Nat} (bs : List Byte) (h : m.wf = true) (ha : a + bs.length ≤ 4294967296) :
    (m.setBytes a bs).wf = true := by
  induction bs generalizing m a with
  | nil => exact h
  | cons v bs ih =>
    simp only [List.length_cons] at ha
    exact ih (wf_set v h (by omega)) (by omega)

/-- What memory lists after a run of bytes is stored lies in the run or was listed. -/
theorem Memory.mem_of_mem_setBytes {m : Memory} {a : Nat} {bs : List Byte} {c : Host.Cell} (h : c ∈ m.setBytes a bs) :
    (a ≤ c.1 ∧ c.1 < a + bs.length) ∨ c ∈ m := by
  induction bs generalizing m a with
  | nil => exact .inr h
  | cons v bs ih =>
    simp only [List.length_cons]
    rcases ih h with h | h
    · exact .inl (by omega)
    · rcases mem_of_mem_set h with rfl | h
      · exact .inl ⟨Nat.le_refl _, by simp⟩
      · exact .inr h

/-- Nothing is listed at reset, which is canonical. -/
theorem State.reset_mem_wf : Memory.wf State.reset.mem = true := rfl

/-- The memory after a step is canonical if the one before was and the store lay inside the address space. -/
theorem memAfter_wf {m : Memory} {st : Option Store} (h : m.wf = true)
    (hst : ∀ s ∈ st, s.addr.toNat + s.bytes.length ≤ 4294967296) : (memAfter m st).wf = true := by
  cases st with
  | none => exact h
  | some s => exact Memory.wf_setBytes s.bytes h (hst s rfl)

/-- Placing a word for the next fetch keeps the canonical form. -/
theorem State.placeWord_mem_wf (s : State) (w : Word) (h : s.mem.wf = true) : (s.placeWord w).mem.wf = true := by
  refine Memory.wf_setBytes _ h ?_
  have hlen : (splitWord s.cfg.endian w).length = 4 := by cases s.cfg.endian <;> rfl
  have h1 : (s.fa0 &&& 0xFFFFFFFC#32).toNat ≤ 4294967292 := by
    rw [BitVec.toNat_and]; exact Nat.le_trans Nat.and_le_right (by decide)
  omega

end Sys2Proof.Machine
end

