-- ==== Sys2Proof/Laws/State.lean ====
section
/-! SUPPORT. The fields of the state after each update, and the registers after a write: what later proofs use in place of
unfolding `State.advance`, `State.placeWord` and `slot`. -/

namespace Sys2Proof.Machine

/-! ### The fields after a step -/

@[simp] theorem State.advance_regs (s : State) (e : Effect) :
    (s.advance e).regs = writeReg? (writeReg? s.regs s.late) e.write := rfl
@[simp] theorem State.advance_flags (s : State) (e : Effect) : (s.advance e).flags = e.flags.getD s.flags := rfl
@[simp] theorem State.advance_ctx (s : State) (e : Effect) : (s.advance e).ctx = s.ctx := rfl
@[simp] theorem State.advance_fa0 (s : State) (e : Effect) : (s.advance e).fa0 = s.fa1 := rfl
@[simp] theorem State.advance_fa1 (s : State) (e : Effect) : (s.advance e).fa1 = nextFetch s.fa1 s.late e.write := rfl
@[simp] theorem State.advance_late (s : State) (e : Effect) : (s.advance e).late = e.late := rfl
@[simp] theorem State.advance_store1 (s : State) (e : Effect) : (s.advance e).store1 = e.store.map Store.span := rfl
@[simp] theorem State.advance_store2 (s : State) (e : Effect) : (s.advance e).store2 = s.store1 := rfl
@[simp] theorem State.advance_mem (s : State) (e : Effect) : (s.advance e).mem = memAfter s.mem e.store := rfl
@[simp] theorem State.advance_draws (s : State) (e : Effect) :
    (s.advance e).draws = if e.drew then s.draws + 1 else s.draws := rfl
@[simp] theorem State.advance_cfg (s : State) (e : Effect) : (s.advance e).cfg = s.cfg := rfl

/-! ### The fields after a word is placed for the next fetch -/

@[simp] theorem State.placeWord_regs (s : State) (w : Word) : (s.placeWord w).regs = s.regs := rfl
@[simp] theorem State.placeWord_flags (s : State) (w : Word) : (s.placeWord w).flags = s.flags := rfl
@[simp] theorem State.placeWord_ctx (s : State) (w : Word) : (s.placeWord w).ctx = s.ctx := rfl
@[simp] theorem State.placeWord_fa0 (s : State) (w : Word) : (s.placeWord w).fa0 = s.fa0 &&& 0xFFFFFFFC#32 := rfl
@[simp] theorem State.placeWord_fa1 (s : State) (w : Word) : (s.placeWord w).fa1 = s.fa1 := rfl
@[simp] theorem State.placeWord_late (s : State) (w : Word) : (s.placeWord w).late = s.late := rfl
@[simp] theorem State.placeWord_draws (s : State) (w : Word) : (s.placeWord w).draws = s.draws := rfl
@[simp] theorem State.placeWord_mem (s : State) (w : Word) :
    (s.placeWord w).mem = s.mem.setBytes (s.fa0 &&& 0xFFFFFFFC#32).toNat (splitWord s.cfg.endian w) := rfl

/-! ### The fields of a launch (70_reset_and_hazards.md R392) -/

@[simp] theorem Launch.state_regs (l : Launch) : l.state.regs = l.regs := rfl
@[simp] theorem Launch.state_flags (l : Launch) : l.state.flags = l.flags := rfl
@[simp] theorem Launch.state_ctx (l : Launch) : l.state.ctx = l.ctx := rfl
@[simp] theorem Launch.state_fa0 (l : Launch) : l.state.fa0 = l.pc := rfl
@[simp] theorem Launch.state_fa1 (l : Launch) : l.state.fa1 = l.pc + 4#32 := rfl
@[simp] theorem Launch.state_late (l : Launch) : l.state.late = none := rfl
@[simp] theorem Launch.state_store1 (l : Launch) : l.state.store1 = none := rfl
@[simp] theorem Launch.state_store2 (l : Launch) : l.state.store2 = none := rfl
@[simp] theorem Launch.state_mem (l : Launch) : l.state.mem = l.mem := rfl
@[simp] theorem Launch.state_draws (l : Launch) : l.state.draws = 0 := rfl
@[simp] theorem Launch.state_cfg (l : Launch) : l.state.cfg = l.cfg := rfl

/-! ### Registers (10_state.md R32 to R36) -/

/-- Two registers other than the pc lie in one cell only if they are one register. -/
theorem slot_inj {r q : RegNum} (hr : r ≠ pcReg) (hq : q ≠ pcReg) : slot r = slot q ↔ r = q := by
  have h1 : r.toNat ≠ 2 := fun h => hr (BitVec.eq_of_toNat_eq (by simpa using h))
  have h2 : q.toNat ≠ 2 := fun h => hq (BitVec.eq_of_toNat_eq (by simpa using h))
  refine ⟨fun h => BitVec.eq_of_toNat_eq ?_, fun h => h ▸ rfl⟩
  simp only [slot, Fin.mk.injEq] at h
  split at h <;> split at h <;> omega

/-- What a register's cell holds after one write (R33, R36). -/
theorem writeReg_slot (regs : Vector Word 31) (w : RegWrite) {r : RegNum} (hr : r ≠ pcReg) :
    (writeReg regs w)[slot r] = if w.reg = r then w.val else regs[slot r] := by
  unfold writeReg
  by_cases hw : w.reg = pcReg
  · have hwr : w.reg ≠ r := fun h => hr (h ▸ hw)
    simp [hw, Ne.symm hr]
  · by_cases h : w.reg = r
    · subst h; simp [hw]
    · have hs : (slot w.reg).val ≠ (slot r).val := fun h' => h ((slot_inj hw hr).1 (Fin.ext h'))
      simp [hw, h, hs]

/-- What a register's cell holds after a write that may be absent. -/
theorem writeReg?_slot (regs : Vector Word 31) (w : Option RegWrite) {r : RegNum} (hr : r ≠ pcReg) :
    (writeReg? regs w)[slot r] = match w with
      | some w => if w.reg = r then w.val else regs[slot r]
      | none => regs[slot r] := by
  cases w with
  | none => rfl
  | some w => exact writeReg_slot regs w hr

/-- Reading register 2 gives what `PC_READ` says (R32). -/
@[simp] theorem State.x_pc (s : State) : s.x pcReg = pcRead s.cfg.pcRead s.fa0 s.fa1 := by simp [State.x]

/-- With the spec's decision D4 that is the next fetch address. -/
theorem pcRead_decided (fa0 fa1 : Word) : pcRead Config.atReset.pcRead fa0 fa1 = fa1 := by simp [pcRead, Config.atReset]

/-- Reading any other register gives its cell (R32). -/
theorem State.x_of_ne (s : State) {r : RegNum} (hr : r ≠ pcReg) : s.x r = s.reg r := by simp [State.x, hr]

end Sys2Proof.Machine
end

