-- ==== Sys2Proof/Laws/Ops.lean ====
section
/-! SUPPORT. One lemma for each shared operation, saying once everything it can do: the checks, the memory accesses, the end
of a step, the fetch. -/

namespace Sys2Proof.Machine

/-! ### Checks (60_exceptions.md R351, R352) -/

@[simp] theorem require_true (r : Refusal) : require true r = .ok () := rfl
@[simp] theorem require_false (r : Refusal) : require false r = .error (.refuse r) := rfl

theorem require_ok_iff (b : Bool) (r : Refusal) : require b r = .ok () ↔ b = true := by
  cases b <;> simp

theorem allowRegs_ok {rs : List RegNum} (h : ∀ r ∈ rs, r ≠ isrReg) : allowRegs rs = .ok () := by
  simpa [allowRegs, require_ok_iff] using h

theorem allowRegs_refuses {rs : List RegNum} (h : isrReg ∈ rs) : allowRegs rs = .error (.refuse .register31) := by
  have : rs.all (· != isrReg) = false := by simpa using h
  simp [allowRegs, this]

theorem allowRd_ok {rd : RegNum} (h2 : rd ≠ pcReg) (h31 : rd ≠ isrReg) : allowRd rd = .ok () := by
  simp [allowRd, require_ok_iff, h2, h31]

theorem allowRd_refuses {rd : RegNum} (h : rd = pcReg ∨ rd = isrReg) : allowRd rd = .error (.refuse .prohibitedRd) := by
  rcases h with rfl | rfl <;> rfl

theorem allowBase_ok {q : Bool} {rs1 : RegNum} (h : q = true → rs1 ≠ pcReg) : allowBase q rs1 = .ok () := by
  cases q <;> simp_all [allowBase, require_ok_iff]

theorem allowBase_refuses : allowBase true pcReg = .error (.refuse .pcBaseUpdate) := rfl

/-! ### The end of a step (10_state.md R31, R35, R36) -/

/-- Two writes meet exactly when the pending one names the register of the other (R35). -/
theorem collide_iff (s : State) (w : RegWrite) : collide s.late (some w) = true ↔ s.pending w.reg := by
  cases h : s.late <;> simp [collide, State.pending, h]

@[simp] theorem collide_none (l : Option RegWrite) : collide l none = false := by cases l <;> rfl

@[simp] theorem pcAligned_none : pcAligned none = true := rfl

theorem pcAligned_some (r : RegNum) (v : Word) : pcAligned (some ⟨r, v⟩) = true ↔ (r = pcReg → v.toNat % 4 = 0) := by
  by_cases h : r = pcReg <;> simp [pcAligned, pcTarget, aligned, h]

/-- A write to register 2 is barred exactly where `SHADOW_JUMP_POLICY` refuses it (R38). -/
@[simp] theorem State.barsJump_some (s : State) (r : RegNum) (v : Word) :
    s.barsJump (some ⟨r, v⟩) = true ↔ r = pcReg ∧ s.jumpBarred := by
  by_cases h : r = pcReg <;> simp [barsJump, pcTarget, h]

@[simp] theorem State.barsJump_none (s : State) : s.barsJump none = false := by simp [barsJump, pcTarget]

/-- A write is barred exactly where `REG_CONST` refuses it (R24). -/
@[simp] theorem State.barsConst_some (s : State) (r : RegNum) (v : Word) :
    s.barsConst (some ⟨r, v⟩) = true ↔ s.constBarred r v := by
  simp [barsConst, State.constBarred]

@[simp] theorem State.barsConst_none (s : State) : s.barsConst none = false := by simp [barsConst]

/-- An effect against which there is no objection (R31 step 6, R24, R35, R36, R38). -/
structure State.Lands (s : State) (e : Effect) : Prop where
  apart : collide s.late e.write = false
  writeAligned : pcAligned e.write = true
  lateAligned : pcAligned e.late = true
  writeJump : s.barsJump e.write = false
  lateJump : s.barsJump e.late = false
  writeConst : s.barsConst e.write = false
  lateConst : s.barsConst e.late = false

theorem State.objection_eq_none (s : State) (e : Effect) : s.objection e = none ↔ s.Lands e := by
  constructor
  · intro h
    unfold objection at h
    split at h <;> try cases h
    split at h <;> try cases h
    split at h <;> try cases h
    split at h <;> try cases h
    simp_all
    constructor <;> simp_all
  · rintro ⟨h1, h2, h3, h4, h5, h6, h7⟩
    simp [objection, *]

/-- When a step ends in a next state, and which (R31 steps 6 to 8). -/
theorem State.commit_eq_next (s t : State) (e : Effect) : s.commit e = .next t ↔ s.Lands e ∧ t = s.advance e := by
  rw [← objection_eq_none, commit]
  cases s.objection e <;> simp [eq_comm]

/-- Two writes to one register (R35). -/
theorem State.commit_collision {s : State} {e : Effect} (h : collide s.late e.write = true) :
    s.commit e = .refused .writeCollision := by simp [commit, objection, h]

/-- A misaligned jump (R36). -/
theorem State.commit_misaligned {s : State} {e : Effect} (h : collide s.late e.write = false)
    (ha : pcAligned e.write = false ∨ pcAligned e.late = false) : s.commit e = .refused .pcMisaligned := by
  rcases ha with ha | ha <;> simp [commit, objection, h, ha]

/-- A jump in a shadow, barred (R38). -/
theorem State.commit_shadowJump {s : State} {e : Effect} (h : collide s.late e.write = false) (hw : pcAligned e.write = true)
    (hl : pcAligned e.late = true) (hb : s.barsJump e.write = true ∨ s.barsJump e.late = true) :
    s.commit e = .refused .shadowJump := by
  rcases hb with hb | hb <;> simp [commit, objection, h, hw, hl, hb]

/-- A write that would change R0 or R1, barred (R24). -/
theorem State.commit_constant {s : State} {e : Effect} (h : collide s.late e.write = false) (hw : pcAligned e.write = true)
    (hl : pcAligned e.late = true) (hjw : s.barsJump e.write = false) (hjl : s.barsJump e.late = false)
    (hb : s.barsConst e.write = true ∨ s.barsConst e.late = true) : s.commit e = .refused .constantRegister := by
  rcases hb with hb | hb <;> simp [commit, objection, h, hw, hl, hjw, hjl, hb]

/-- Register 2 is neither R0 nor R1. -/
theorem State.constBarred_ne_pc {s : State} {r : RegNum} {v : Word} (h : s.constBarred r v) : r ≠ pcReg := by
  rintro rfl; exact absurd h.2.1 (by decide)

/-- A write meets no pending one. -/
theorem collide_false {s : State} {r : RegNum} {v : Word} (h : ¬ s.pending r) : collide s.late (some ⟨r, v⟩) = false := by
  rw [← Bool.not_eq_true, collide_iff]; exact h

theorem State.barsJump_false {s : State} {r : RegNum} {v : Word} (h : r = pcReg → ¬ s.jumpBarred) :
    s.barsJump (some ⟨r, v⟩) = false := by
  rw [← Bool.not_eq_true, barsJump_some]; exact fun hb => h hb.1 hb.2

theorem State.barsConst_false {s : State} {r : RegNum} {v : Word} (h : ¬ s.constBarred r v) :
    s.barsConst (some ⟨r, v⟩) = false := by
  rw [← Bool.not_eq_true, barsConst_some]; exact h

/-- An effect that lands. -/
theorem State.commit_lands {s : State} {e : Effect} (h : s.Lands e) : s.commit e = .next (s.advance e) :=
  (s.commit_eq_next _ _).2 ⟨h, rfl⟩

/-- A meaning has a next state exactly when its rule yields an effect that ends in one. -/
theorem State.finish_eq_next (s t : State) (r : Except Stop Effect) :
    s.finish r = .next t ↔ ∃ e, r = .ok e ∧ s.commit e = .next t := by
  cases r with
  | ok e => simp [finish]
  | error r => cases r <;> simp [finish, Stop.outcome]

/-- The next fetch address when the instruction does not write the pc is the one in sequence (R31 step 7). -/
theorem nextFetch_seq (s : State) (w : Option RegWrite) (h : ∀ v ∈ w, v.reg ≠ pcReg) :
    nextFetch s.fa1 s.late w = s.seqFetch := by
  have hw : pcTarget w = none := by
    cases w with
    | none => rfl
    | some v => simpa [pcTarget] using h v rfl
  unfold nextFetch State.seqFetch
  rw [hw]
  cases s.late with
  | none => rfl
  | some v => by_cases h : v.reg = pcReg <;> simp [pcTarget, h]

/-- The next fetch address when the instruction writes the pc is the value written (R36). -/
theorem nextFetch_jump (fa1 v : Word) (l : Option RegWrite) : nextFetch fa1 l (some ⟨pcReg, v⟩) = v := rfl

/-- A register after a step: the instruction's own write, else the pending one, else what it held (R33, R34). -/
theorem State.advance_reg (s : State) (e : Effect) {r : RegNum} (hr : r ≠ pcReg) :
    (s.advance e).reg r = match e.write with
      | some w => if w.reg = r then w.val else s.landed r
      | none => s.landed r := by
  have hl : (writeReg? s.regs s.late)[slot r] = s.landed r := by
    rw [writeReg?_slot _ _ hr]; rfl
  have h := writeReg?_slot (writeReg? s.regs s.late) e.write hr
  rw [hl] at h
  exact h.trans (by cases e.write <;> rfl)

/-- What every completed step does whatever its effect (R31 step 7, 20_memory.md R74). -/
theorem State.advance_advances (s : State) (e : Effect) : Advances s (s.advance e) := ⟨rfl, rfl, rfl, rfl⟩

/-- A step without a store leaves memory. -/
theorem State.advance_memorySame (s : State) {e : Effect} (h : e.store = none) : MemorySame s (s.advance e) := by
  constructor <;> simp [h, memAfter]

/-- A step with a store has its bytes in memory and leaves every other byte (20_memory.md R63). -/
theorem State.advance_memoryStored (s : State) {e : Effect} {st : Store} (h : e.store = some st) :
    MemoryStored s (s.advance e) st.addr st.bytes := by
  refine ⟨fun i hi => ?_, fun a ha => ?_, by simp [h, Store.span]⟩
  · simp [h, memAfter, Memory.get_setBytes, hi]
  · simp only [State.advance_mem, h, memAfter, Memory.get_setBytes]
    split
    · rw [List.getElem?_eq_none (by omega)]; rfl
    · rfl

/-! ### Memory accesses (20_memory.md R62, R63, R66, R72) -/

theorem aligned_iff (a : Word) (n : Nat) : aligned a n = true ↔ a.toNat % n = 0 := by simp [aligned]

theorem Config.admitsRun_iff (c : Config) (a n : Nat) :
    Config.admitsRun c a n = true ↔ ∀ i < n, Config.admits c (a + i) = true := by
  induction n generalizing a with
  | zero => simp [admitsRun]
  | succ n ih =>
    rw [admitsRun, Bool.and_eq_true, ih]
    constructor
    · rintro ⟨h0, h⟩ i hi
      cases i with
      | zero => exact h0
      | succ i => rw [show a + (i + 1) = a + 1 + i by omega]; exact h i (by omega)
    · refine fun h => ⟨h 0 (by omega), fun i hi => ?_⟩
      rw [show a + 1 + i = a + (i + 1) by omega]; exact h _ (by omega)

/-- The three ways an access can go: misaligned, outside `MEM_MAP`, admitted. -/
theorem State.access_cases (s : State) (ea : Word) (n : Nat) :
    (ea.toNat % n ≠ 0 ∧ s.access ea n = .error (.refuse .misaligned))
    ∨ (ea.toNat % n = 0 ∧ ¬ s.mapped ea n ∧ s.access ea n = .error (.fault .outsideMemMap))
    ∨ (ea.toNat % n = 0 ∧ s.mapped ea n ∧ s.access ea n = .ok ()) := by
  unfold access
  by_cases h : ea.toNat % n = 0
  · have ha : aligned ea n = true := (aligned_iff ea n).2 h
    by_cases hm : s.mapped ea n
    · exact .inr (.inr ⟨h, hm, by simp [ha, (Config.admitsRun_iff _ _ _).2 hm, bind, Except.bind]⟩)
    · have hf : Config.admitsRun s.cfg ea.toNat n = false := by
        rw [← Bool.not_eq_true, Config.admitsRun_iff]; exact hm
      exact .inr (.inl ⟨h, hm, by simp [ha, hf, bind, Except.bind]⟩)
  · have ha : aligned ea n = false := by rw [← Bool.not_eq_true, aligned_iff]; exact h
    exact .inl ⟨h, by simp [ha, bind, Except.bind]⟩

theorem State.access_ok {s : State} {ea : Word} {n : Nat} (h : ea.toNat % n = 0) (hm : s.mapped ea n) :
    s.access ea n = .ok () := by
  rcases s.access_cases ea n with ⟨h', -⟩ | ⟨-, h', -⟩ | ⟨-, -, h'⟩
  · exact absurd h h'
  · exact absurd hm h'
  · exact h'

/-- The byte at an address, or the fault of a byte without a value. -/
theorem State.byteAt_cases (s : State) (a : Nat) :
    (s.mem.get a = none ∧ s.byteAt a = .error (.fault .unwrittenByte))
    ∨ ∃ b, s.mem.get a = some b ∧ s.byteAt a = .ok b := by
  unfold byteAt
  cases s.mem.get a <;> simp

theorem joinHalf_eq (e : Endian) (b0 b1 : Byte) :
    joinHalf e b0 b1 = if e = .big then b0 ++ b1 else b1 ++ b0 := by cases e <;> rfl

theorem joinWord_eq (e : Endian) (b0 b1 b2 b3 : Byte) :
    joinWord e b0 b1 b2 b3 = if e = .big then b0 ++ b1 ++ b2 ++ b3 else b3 ++ b2 ++ b1 ++ b0 := by cases e <;> rfl

theorem storeBytes_eq_layout (e : Endian) (t : StoreType) (v : Word) : storeBytes e t v = layout e t v := by
  have h : ∀ a, a + 8 ≤ 16 → (v.extractLsb' 0 16).extractLsb' a 8 = v.extractLsb' a 8 := by
    intro a ha; ext i hi; simp; omega
  cases e <;> cases t <;> simp [storeBytes, layout, splitWord, splitHalf, h]

@[simp] theorem storeBytes_length (e : Endian) (t : StoreType) (v : Word) : (storeBytes e t v).length = storeLen t := by
  cases e <;> cases t <;> rfl

end Sys2Proof.Machine
end

