-- ==== Sys2Proof/Laws/Load.lean ====
section
/-! SUPPORT. What a load and a store can do, once for every width (20_memory.md R62, R63, R66, R67, R72). -/

namespace Sys2Proof.Machine

/-- A misaligned load is refused. -/
theorem State.memLoad_misaligned {s : State} {ea : Word} {t : LoadType} (h : ea.toNat % loadLen t ≠ 0) :
    s.memLoad ea t = .error (.refuse .misaligned) := by
  rcases s.access_cases ea (loadLen t) with ⟨-, e⟩ | ⟨h', -⟩ | ⟨h', -⟩
  · cases t <;> simp only [loadLen] at e <;> simp [memLoad, readByte, readHalf, readWord, e, bind, Except.bind]
  · exact absurd h' h
  · exact absurd h' h

/-- A load outside `MEM_MAP` faults. -/
theorem State.memLoad_unmapped {s : State} {ea : Word} {t : LoadType} (h : ea.toNat % loadLen t = 0)
    (hm : ¬ s.mapped ea (loadLen t)) : s.memLoad ea t = .error (.fault .outsideMemMap) := by
  rcases s.access_cases ea (loadLen t) with ⟨h', -⟩ | ⟨-, -, e⟩ | ⟨-, h', -⟩
  · exact absurd h h'
  · cases t <;> simp only [loadLen] at e <;> simp [memLoad, readByte, readHalf, readWord, e, bind, Except.bind]
  · exact absurd h' hm

/-- A load of a byte without a value faults (U24, log 4). -/
theorem State.memLoad_unwritten {s : State} {ea : Word} {t : LoadType} (h : ea.toNat % loadLen t = 0)
    (hm : s.mapped ea (loadLen t)) (hu : ∃ j < loadLen t, s.mem.get (ea.toNat + j) = none) :
    s.memLoad ea t = .error (.fault .unwrittenByte) := by
  have e := State.access_ok h hm
  obtain ⟨j, hj, hu⟩ := hu
  cases t <;> simp only [loadLen] at e hj <;> simp only [memLoad, readByte, readHalf, readWord, e, bind, Except.bind] <;>
  · rcases s.byteAt_cases ea.toNat with ⟨-, e0⟩ | ⟨b0, g0, e0⟩ <;> simp only [e0]
    all_goals rcases s.byteAt_cases (ea.toNat + 1) with ⟨-, e1⟩ | ⟨b1, g1, e1⟩ <;> try simp only [e1]
    all_goals rcases s.byteAt_cases (ea.toNat + 2) with ⟨-, e2⟩ | ⟨b2, g2, e2⟩ <;> try simp only [e2]
    all_goals rcases s.byteAt_cases (ea.toNat + 3) with ⟨-, e3⟩ | ⟨b3, g3, e3⟩ <;> try simp only [e3]
    all_goals interval_cases j <;> simp_all

/-- A load of bytes that have values gives the datum they make (R62, R67). -/
theorem State.memLoad_datum {s : State} {ea v : Word} {t : LoadType} (h : ea.toNat % loadLen t = 0)
    (hm : s.mapped ea (loadLen t)) (hv : s.datum ea t v) : s.memLoad ea t = .ok v := by
  have e := State.access_ok h hm
  have byte : ∀ {bs : List Byte} (i : Nat) (hi : i < bs.length), s.holds ea bs → s.byteAt (ea.toNat + i) = .ok bs[i] := by
    intro bs i hi hb; simp [byteAt, hb i hi]
  cases t <;> simp only [loadLen] at e
  case w =>
    obtain ⟨b0, b1, b2, b3, hb, rfl⟩ := hv
    have e0 := byte 0 (by simp) hb; have e1 := byte 1 (by simp) hb
    have e2 := byte 2 (by simp) hb; have e3 := byte 3 (by simp) hb
    simp at e0 e1 e2 e3
    simp [memLoad, readWord, e, e0, e1, e2, e3, joinWord_eq, bind, Except.bind]
  case h | hz =>
    obtain ⟨b0, b1, hb, rfl⟩ := hv
    have e0 := byte 0 (by simp) hb; have e1 := byte 1 (by simp) hb
    simp at e0 e1
    simp [memLoad, readHalf, e, e0, e1, joinHalf_eq, bind, Except.bind]
  case b | bz =>
    obtain ⟨b0, hb, rfl⟩ := hv
    have e0 := byte 0 (by simp) hb
    simp at e0
    simp [memLoad, readByte, e, e0, bind, Except.bind]

/-- Bytes that all have values make a datum. -/
theorem State.datum_of_get {s : State} {ea : Word} (t : LoadType)
    (h : ∀ j < loadLen t, s.mem.get (ea.toNat + j) ≠ none) : ∃ v, s.datum ea t v := by
  have byte : ∀ j < loadLen t, ∃ b, s.mem.get (ea.toNat + j) = some b := fun j hj => Option.ne_none_iff_exists'.1 (h j hj)
  have one : ∀ {b0}, s.mem.get ea.toNat = some b0 → s.holds ea [b0] := by
    intro b0 g0 i hi; simp only [List.length_cons, List.length_nil] at hi; interval_cases i; simpa using g0
  have two : ∀ {b0 b1}, s.mem.get ea.toNat = some b0 → s.mem.get (ea.toNat + 1) = some b1 → s.holds ea [b0, b1] := by
    intro b0 b1 g0 g1 i hi; simp only [List.length_cons, List.length_nil] at hi; interval_cases i <;> simpa
  cases t <;> simp only [loadLen] at byte
  case w =>
    obtain ⟨b0, g0⟩ := byte 0 (by omega); obtain ⟨b1, g1⟩ := byte 1 (by omega)
    obtain ⟨b2, g2⟩ := byte 2 (by omega); obtain ⟨b3, g3⟩ := byte 3 (by omega)
    refine ⟨_, b0, b1, b2, b3, fun i hi => ?_, rfl⟩
    simp only [List.length_cons, List.length_nil] at hi; interval_cases i <;> simpa
  case h | hz =>
    obtain ⟨b0, g0⟩ := byte 0 (by omega); obtain ⟨b1, g1⟩ := byte 1 (by omega)
    exact ⟨_, b0, b1, two (by simpa using g0) g1, rfl⟩
  case b | bz =>
    obtain ⟨b0, g0⟩ := byte 0 (by omega)
    exact ⟨_, b0, one (by simpa using g0), rfl⟩

/-- When a load gives a value, and which. -/
theorem State.memLoad_eq_ok {s : State} {ea v : Word} {t : LoadType} :
    s.memLoad ea t = .ok v ↔ ea.toNat % loadLen t = 0 ∧ s.mapped ea (loadLen t) ∧ s.datum ea t v := by
  refine ⟨fun h => ?_, fun ⟨h1, h2, h3⟩ => memLoad_datum h1 h2 h3⟩
  by_cases h1 : ea.toNat % loadLen t = 0
  · by_cases h2 : s.mapped ea (loadLen t)
    · refine ⟨h1, h2, ?_⟩
      by_cases h3 : ∃ j < loadLen t, s.mem.get (ea.toNat + j) = none
      · simp [memLoad_unwritten h1 h2 h3] at h
      · push Not at h3
        obtain ⟨w, hw⟩ := datum_of_get t h3
        have := memLoad_datum h1 h2 hw
        rw [h] at this
        exact Except.ok.inj this ▸ hw
    · simp [memLoad_unmapped h1 h2] at h
  · simp [memLoad_misaligned h1] at h

/-- A load never answers with the refusals of the fetch or the decoder. -/
theorem State.memLoad_error {s : State} {ea : Word} {t : LoadType} {r : Stop} (h : s.memLoad ea t = .error r) :
    r = .refuse .misaligned ∨ r = .fault .outsideMemMap ∨ r = .fault .unwrittenByte := by
  by_cases h1 : ea.toNat % loadLen t = 0
  · by_cases h2 : s.mapped ea (loadLen t)
    · by_cases h3 : ∃ j < loadLen t, s.mem.get (ea.toNat + j) = none
      · rw [memLoad_unwritten h1 h2 h3] at h; cases h; simp
      · push Not at h3
        obtain ⟨w, hw⟩ := datum_of_get t h3
        simp [memLoad_datum h1 h2 hw] at h
    · rw [memLoad_unmapped h1 h2] at h; cases h; simp
  · rw [memLoad_misaligned h1] at h; cases h; simp

/-- What a store can do: misaligned, outside `MEM_MAP`, or its bytes laid out (R63, R66, R68, R72). -/
theorem State.memStore_cases (s : State) (ea : Word) (t : StoreType) (v : Word) :
    (ea.toNat % storeLen t ≠ 0 ∧ s.memStore ea t v = .error (.refuse .misaligned))
    ∨ (ea.toNat % storeLen t = 0 ∧ ¬ s.mapped ea (storeLen t) ∧ s.memStore ea t v = .error (.fault .outsideMemMap))
    ∨ (ea.toNat % storeLen t = 0 ∧ s.mapped ea (storeLen t)
        ∧ s.memStore ea t v = .ok ⟨ea, storeBytes s.cfg.endian t v⟩) := by
  rcases s.access_cases ea (storeLen t) with ⟨h, e⟩ | ⟨h, hm, e⟩ | ⟨h, hm, e⟩
  · exact .inl ⟨h, by simp [memStore, e, bind, Except.bind]⟩
  · exact .inr (.inl ⟨h, hm, by simp [memStore, e, bind, Except.bind]⟩)
  · exact .inr (.inr ⟨h, hm, by simp [memStore, e, bind, Except.bind]⟩)

end Sys2Proof.Machine
end

