-- ==== Sys2Proof/Laws/Families.lean ====
section
/-! SUPPORT. What each family of instructions does, once for all its members: from the effect a meaning commits to the outcome
the claims speak of. -/

namespace Sys2Proof.Machine

/-! ### From a committed effect to an outcome -/

/-- An ALU effect that commits (40_ri.md R140, R147). -/
theorem aluOutcome_of_commit {i : Instr} {s : State} {rd : RegNum} {r : Word} {f drew : Bool} {fl : Flags}
    (h : exec i s = s.commit { write := some ⟨rd, r⟩, flags := if f then some fl else none, drew := f && drew }) :
    AluOutcome i s rd r f fl drew := by
  refine ⟨fun hp => ?_, fun hp hrd hr => ?_, fun hp hrd hr hj => ?_, fun hp hc => ?_, fun hp hr hc => ?_⟩
  · rw [h]; exact State.commit_collision ((collide_iff s ⟨rd, r⟩).2 hp)
  · rw [h]; refine State.commit_misaligned (collide_false hp) (.inl ?_)
    rw [← Bool.not_eq_true, pcAligned_some]; exact fun h => hr (h hrd)
  · rw [h]
    exact State.commit_shadowJump (collide_false hp) ((pcAligned_some _ _).2 fun _ => hr) rfl
      (.inl ((s.barsJump_some rd r).2 ⟨hrd, hj⟩))
  · have hne := State.constBarred_ne_pc hc
    rw [h]
    exact State.commit_constant (collide_false hp) ((pcAligned_some _ _).2 fun h => absurd h hne) rfl
      (State.barsJump_false fun h => absurd h hne) s.barsJump_none (.inl ((s.barsConst_some rd r).2 hc))
  · refine ⟨_, h.trans (State.commit_lands ⟨collide_false hp, (pcAligned_some rd r).2 fun h => (hr h).1, rfl,
      State.barsJump_false fun h => (hr h).2, s.barsJump_none, State.barsConst_false hc, s.barsConst_none⟩), ?_⟩
    refine ⟨s.advance_advances _, s.advance_memorySame rfl, fun hne => ?_, fun hne => ?_, fun he => ?_, fun q hq hne => ?_, ?_,
      rfl, ?_⟩
    · rw [s.advance_reg _ hne]; simp
    · rw [State.advance_fa1, nextFetch_seq]
      rintro v hv; cases hv; exact hne
    · subst he; rfl
    · rw [s.advance_reg _ hq]; simp [Ne.symm hne]
    · cases f <;> rfl
    · cases f <;> cases drew <;> rfl

/-- A base update against which there is no objection. -/
theorem baseUpdate_lands {s : State} {q : Bool} {rs1 : RegNum} {sum : Word} (hq : q = true → rs1 ≠ pcReg)
    (hp : q = true → ¬ s.pending rs1) (hc : q = true → ¬ s.constBarred rs1 sum) :
    collide s.late (baseUpdate q rs1 sum) = false ∧ pcAligned (baseUpdate q rs1 sum) = true
      ∧ s.barsJump (baseUpdate q rs1 sum) = false ∧ s.barsConst (baseUpdate q rs1 sum) = false := by
  cases q with
  | false => exact ⟨collide_none _, rfl, s.barsJump_none, s.barsConst_none⟩
  | true => exact ⟨collide_false (hp rfl), (pcAligned_some _ _).2 fun h => absurd h (hq rfl),
      State.barsJump_false fun h => absurd h (hq rfl), State.barsConst_false (hc rfl)⟩

/-- A base update whose register is legal and not pending, whether or not `REG_CONST` bars it. -/
theorem baseUpdate_apart {s : State} {q : Bool} {rs1 : RegNum} {sum : Word} (hq : q = true → rs1 ≠ pcReg)
    (hp : q = true → ¬ s.pending rs1) :
    collide s.late (baseUpdate q rs1 sum) = false ∧ pcAligned (baseUpdate q rs1 sum) = true
      ∧ s.barsJump (baseUpdate q rs1 sum) = false := by
  cases q with
  | false => exact ⟨collide_none _, rfl, s.barsJump_none⟩
  | true => exact ⟨collide_false (hp rfl), (pcAligned_some _ _).2 fun h => absurd h (hq rfl),
      State.barsJump_false fun h => absurd h (hq rfl)⟩

/-- The registers after a base update (43_rm.md R231). -/
theorem State.advance_base {s : State} {e : Effect} {q : Bool} {rs1 : RegNum} {sum : Word} (hq : q = true → rs1 ≠ pcReg)
    (he : e.write = baseUpdate q rs1 sum) :
    (q = true → (s.advance e).reg rs1 = sum)
      ∧ (∀ r, r ≠ pcReg → (q = true → r ≠ rs1) → (s.advance e).reg r = s.landed r) ∧ (s.advance e).fa1 = s.seqFetch := by
  refine ⟨fun hq' => ?_, fun r hr hne => ?_, ?_⟩
  · rw [s.advance_reg _ (hq hq'), he]; simp [baseUpdate, hq']
  · rw [s.advance_reg _ hr, he]
    cases q with
    | false => rfl
    | true => simp [baseUpdate, Ne.symm (hne rfl)]
  · rw [State.advance_fa1, he, nextFetch_seq]
    cases q with
    | false => rintro w hw; cases hw
    | true => rintro w hw; cases hw; exact hq rfl

/-- A load whose registers are legal (43_rm.md R231, R232). -/
theorem loadOutcome_of_finish {i : Instr} {s : State} {rd rs1 : RegNum} {p q : Bool} {sum : Word} {t : LoadType}
    (hq : q = true → rs1 ≠ pcReg) (hrd : rd ≠ pcReg) (h : exec i s = s.finish (s.loadEffect rd rs1 p q sum t)) :
    LoadOutcome i s rd rs1 q sum (effAddr p (s.x rs1) sum) t := by
  refine ⟨fun hm => ?_, fun ha hm => ?_, fun ha hm hu => ?_, fun v ha hm hv => ?_⟩
  · rw [h, State.loadEffect, State.memLoad_misaligned hm]; rfl
  · rw [h, State.loadEffect, State.memLoad_unmapped ha hm]; rfl
  · rw [h, State.loadEffect, State.memLoad_unwritten ha hm hu]; rfl
  · have hx : exec i s = s.commit { write := baseUpdate q rs1 sum, late := some ⟨rd, v⟩ } := by
      rw [h, State.loadEffect, State.memLoad_datum ha hm hv]; rfl
    have hpl : pcAligned (some ⟨rd, v⟩) = true := (pcAligned_some _ _).2 fun h => absurd h hrd
    have hjl : s.barsJump (some ⟨rd, v⟩) = false := State.barsJump_false fun h => absurd h hrd
    refine ⟨fun hq' hp => ?_, fun hp hc => ?_, fun hp hc hcl => ?_⟩
    · rw [hx]; subst hq'; exact State.commit_collision ((collide_iff s ⟨rs1, sum⟩).2 hp)
    · obtain ⟨h1, h2, h3⟩ := baseUpdate_apart (sum := sum) hq hp
      rw [hx]
      refine State.commit_constant h1 h2 hpl h3 hjl (hc.imp (fun hb => ?_) (s.barsConst_some rd v).2)
      obtain ⟨rfl, hb⟩ := hb
      exact (s.barsConst_some rs1 sum).2 hb
    · obtain ⟨h1, h2, h3, h4⟩ := baseUpdate_lands hq hp hc
      have hr := s.advance_base (e := { write := baseUpdate q rs1 sum, late := some ⟨rd, v⟩ }) hq rfl
      exact ⟨_, hx.trans (State.commit_lands ⟨h1, h2, hpl, h3, hjl, h4, State.barsConst_false hcl⟩),
        s.advance_advances _, s.advance_memorySame rfl, rfl, hr.1, hr.2.1, hr.2.2, rfl, rfl⟩

/-- A store whose registers are legal (43_rm.md R231, R232, R235). -/
theorem storeOutcome_of_finish {i : Instr} {s : State} {rd rs1 : RegNum} {p q : Bool} {sum : Word} {t : StoreType}
    (hq : q = true → rs1 ≠ pcReg) (h : exec i s = s.finish (s.storeEffect rd rs1 p q sum t)) :
    StoreOutcome i s rd rs1 q sum (effAddr p (s.x rs1) sum) t := by
  have hs := s.memStore_cases (effAddr p (s.x rs1) sum) t (s.x rd)
  refine ⟨fun hm => ?_, fun ha hm => ?_, fun ha hm => ?_⟩
  · rcases hs with ⟨-, e⟩ | ⟨h', -⟩ | ⟨h', -⟩
    · rw [h, State.storeEffect, e]; rfl
    · exact absurd h' hm
    · exact absurd h' hm
  · rcases hs with ⟨h', -⟩ | ⟨-, -, e⟩ | ⟨-, h', -⟩
    · exact absurd ha h'
    · rw [h, State.storeEffect, e]; rfl
    · exact absurd h' hm
  · rcases hs with ⟨h', -⟩ | ⟨-, h', -⟩ | ⟨-, -, e⟩
    · exact absurd ha h'
    · exact absurd hm h'
    · have hx : exec i s = s.commit { write := baseUpdate q rs1 sum,
                                      store := some ⟨effAddr p (s.x rs1) sum, storeBytes s.cfg.endian t (s.x rd)⟩ } := by
        rw [h, State.storeEffect, e]; rfl
      refine ⟨fun hq' hp => ?_, fun hq' hp hc => ?_, fun hp => ?_⟩
      · rw [hx]; subst hq'; exact State.commit_collision ((collide_iff s ⟨rs1, sum⟩).2 hp)
      · obtain ⟨h1, h2, h3⟩ := baseUpdate_apart (sum := sum) hq fun _ => hp
        rw [hx]; subst hq'
        exact State.commit_constant h1 h2 rfl h3 s.barsJump_none (.inl ((s.barsConst_some rs1 sum).2 hc))
      · obtain ⟨h1, h2, h3, h4⟩ := baseUpdate_lands hq (fun h => (hp h).1) (fun h => (hp h).2)
        have hr := s.advance_base (e := { write := baseUpdate q rs1 sum,
                                          store := some ⟨effAddr p (s.x rs1) sum, storeBytes s.cfg.endian t (s.x rd)⟩ }) hq rfl
        refine ⟨_, hx.trans (State.commit_lands ⟨h1, h2, rfl, h3, s.barsJump_none, h4, s.barsConst_none⟩), ?_⟩
        rw [← storeBytes_eq_layout]
        exact ⟨s.advance_advances _, s.advance_memoryStored (st := ⟨_, _⟩) rfl, rfl, hr.1, hr.2.1, hr.2.2, rfl, rfl⟩

/-- A branch whose registers are legal (45_br.md R290, R291). -/
theorem branchOutcome_of_commit {i : Instr} {s : State} {cond : Cond} {target : Word}
    (h : exec i s = s.commit (s.branchEffect cond target)) :
    BranchOutcome i s (Cond.holds cond s.flags) target := by
  cases hc : Cond.holds cond s.flags with
  | false =>
    have he : s.branchEffect cond target = {} := by simp [State.branchEffect, hc]
    rw [he] at h
    refine ⟨nofun, nofun, nofun, fun _ => ⟨_, h.trans (State.commit_lands ⟨collide_none _, rfl, rfl, s.barsJump_none,
      s.barsJump_none, s.barsConst_none, s.barsConst_none⟩), ?_⟩⟩
    refine ⟨s.advance_advances _, s.advance_memorySame rfl, nofun, fun _ => ?_, fun r hr => ?_, rfl, rfl, rfl⟩
    · rw [State.advance_fa1, nextFetch_seq _ _ (by simp)]
    · rw [s.advance_reg _ hr]
  | true =>
    have he : s.branchEffect cond target = { write := some ⟨pcReg, target⟩ } := by simp [State.branchEffect, hc]
    have hcn : s.barsConst (some ⟨pcReg, target⟩) = false := State.barsConst_false fun h => State.constBarred_ne_pc h rfl
    rw [he] at h
    refine ⟨fun _ hp => ?_, fun _ hp ht => ?_, fun _ hp ht hj => ?_, fun hp => ?_⟩
    · rw [h]; exact State.commit_collision ((collide_iff s ⟨pcReg, target⟩).2 hp)
    · rw [h]; refine State.commit_misaligned (collide_false hp) (.inl ?_)
      rw [← Bool.not_eq_true, pcAligned_some]; exact fun h => ht (h rfl)
    · rw [h]
      exact State.commit_shadowJump (collide_false hp) ((pcAligned_some _ _).2 fun _ => ht) rfl
        (.inl ((s.barsJump_some _ _).2 ⟨rfl, hj⟩))
    · obtain ⟨hp, ht, hj⟩ := hp rfl
      refine ⟨_, h.trans (State.commit_lands ⟨collide_false hp, (pcAligned_some _ _).2 fun _ => ht, rfl,
        State.barsJump_false fun _ => hj, s.barsJump_none, hcn, s.barsConst_none⟩), ?_⟩
      refine ⟨s.advance_advances _, s.advance_memorySame rfl, fun _ => rfl, nofun, fun r hr => ?_, rfl, rfl, rfl⟩
      rw [s.advance_reg _ hr]; simp [Ne.symm hr]

/-! ### The shared shapes with legal registers -/

theorem State.ri_legal (s : State) (op : AluOp) {rd rs1 : RegNum} (f : Bool) (b : Word) (hd : rd ≠ isrReg)
    (h1 : rs1 ≠ isrReg) : s.ri op rd rs1 f b = s.finish (s.aluEffect (.is false) op rd f (s.x rs1) b) := by
  simp only [ri]
  rw [allowRegs_ok (by simp [hd, h1])]; rfl

theorem State.rr_legal (s : State) (op : AluOp) {rd rs1 rs2 : RegNum} (f : Bool) (hd : rd ≠ isrReg) (h1 : rs1 ≠ isrReg)
    (h2 : rs2 ≠ isrReg) : s.rr op rd rs1 rs2 f = s.finish (s.aluEffect .keep op rd f (s.x rs1) (s.x rs2)) := by
  simp only [rr]
  rw [allowRegs_ok (by simp [hd, h1, h2])]; rfl

theorem State.rrr_legal (s : State) (op2 : AluOp) {rd rs1 rs2 rs3 : RegNum} (op1 : Op1) (f : Bool) {y : Word}
    (h2 : rd ≠ pcReg) (h31 : rd ≠ isrReg) (hs1 : rs1 ≠ isrReg) (hs2 : rs2 ≠ isrReg) (hs3 : rs3 ≠ isrReg)
    (hy : OpValue (Op1.alu op1) (s.x rs2) (s.x rs3) s.flags.c y) :
    s.rrr op2 rd rs1 rs2 rs3 op1 f = s.finish (s.aluEffect .zeroOrOld op2 rd f (s.x rs1) y) := by
  simp only [rrr]
  rw [allowRd_ok h2 h31, allowRegs_ok (by simp [hs1, hs2, hs3]), (aluValue_eq_ok _ _ _ _ _).2 hy]; rfl

theorem State.loadConst_legal (s : State) {rd rs1 : RegNum} (p : Bool) {q : Bool} (k : Word) (t : LoadType) (h2 : rd ≠ pcReg)
    (h31 : rd ≠ isrReg) (h1 : rs1 ≠ isrReg) (hq : q = true → rs1 ≠ pcReg) :
    s.loadConst rd rs1 p q k t = s.finish (s.loadEffect rd rs1 p q (s.x rs1 + k) t) := by
  simp only [loadConst]
  rw [allowRd_ok h2 h31, allowRegs_ok (by simp [h1]), allowBase_ok hq]; rfl

theorem State.storeConst_legal (s : State) {rd rs1 : RegNum} (p : Bool) {q : Bool} (k : Word) (t : StoreType)
    (h2 : rd ≠ pcReg) (h31 : rd ≠ isrReg) (h1 : rs1 ≠ isrReg) (hq : q = true → rs1 ≠ pcReg) :
    s.storeConst rd rs1 p q k t = s.finish (s.storeEffect rd rs1 p q (s.x rs1 + k) t) := by
  simp only [storeConst]
  rw [allowRd_ok h2 h31, allowRegs_ok (by simp [h1]), allowBase_ok hq]; rfl

theorem State.rrmLoad_legal (s : State) (op : AluOp) {rd rs1 rs2 : RegNum} (p : Bool) {q : Bool} (t : LoadType)
    (h2 : rd ≠ pcReg) (h31 : rd ≠ isrReg) (h1 : rs1 ≠ isrReg) (hs2 : rs2 ≠ isrReg) (hq : q = true → rs1 ≠ pcReg) :
    s.rrmLoad op rd rs1 rs2 p q t
      = s.finish (do let sum ← s.addrSum op p q (s.x rs1) (s.x rs2); s.loadEffect rd rs1 p q sum t) := by
  simp only [rrmLoad]
  rw [allowRd_ok h2 h31, allowRegs_ok (by simp [h1, hs2]), allowBase_ok hq]; rfl

theorem State.rrmStore_legal (s : State) (op : AluOp) {rd rs1 rs2 : RegNum} (p : Bool) {q : Bool} (t : StoreType)
    (h2 : rd ≠ pcReg) (h31 : rd ≠ isrReg) (h1 : rs1 ≠ isrReg) (hs2 : rs2 ≠ isrReg) (hq : q = true → rs1 ≠ pcReg) :
    s.rrmStore op rd rs1 rs2 p q t
      = s.finish (do let sum ← s.addrSum op p q (s.x rs1) (s.x rs2); s.storeEffect rd rs1 p q sum t) := by
  simp only [rrmStore]
  rw [allowRd_ok h2 h31, allowRegs_ok (by simp [h1, hs2]), allowBase_ok hq]; rfl

/-- The address sum of RRM is the operation's value where the operation is performed (44_rrm.md R251). -/
theorem State.addrSum_of_value {s : State} {op : AluOp} {p q : Bool} {a b sum : Word} (hpq : p = true ∨ q = true)
    (h : OpValue op a b s.flags.c sum) : s.addrSum op p q a b = .ok sum := by
  unfold addrSum
  rw [if_pos (by simpa using hpq)]
  exact (aluValue_eq_ok _ _ _ _ _).2 h

/-- With `PQ` = 00 the effect of a load does not depend on the sum (44_rrm.md R251). -/
theorem State.loadEffect_plain (s : State) (rd rs1 : RegNum) (sum sum' : Word) (t : LoadType) :
    s.loadEffect rd rs1 false false sum t = s.loadEffect rd rs1 false false sum' t := rfl

/-- With `PQ` = 00 the effect of a store does not depend on the sum (44_rrm.md R251). -/
theorem State.storeEffect_plain (s : State) (rd rs1 : RegNum) (sum sum' : Word) (t : StoreType) :
    s.storeEffect rd rs1 false false sum t = s.storeEffect rd rs1 false false sum' t := rfl

end Sys2Proof.Machine
end

