-- ==== Sys2Proof/Laws/Exec.lean ====
section
/-! SUPPORT. What any instruction can do: the shape of the effect behind every next state (`exec_next`), which rules of the whole
machine are proved from instead of unfolding the meanings, and the reasons an instruction can stop (`exec_stops`). -/

namespace Sys2Proof.Machine

/-- What the effect of an instruction can be (10_state.md R31 step 4). -/
structure Effect.Fits (i : Instr) (s : State) (e : Effect) : Prop where
  /-- a time-2 write names a register field other than 31, or is a jump -/
  write : ∀ w ∈ e.write, w.reg ≠ isrReg ∧ (w.reg ∈ i.regFields ∨ (w.reg = pcReg ∧ i.mayWritePc = true))
  /-- only a jump writes the pc at time 2 -/
  jump : i.jumps = false → ∀ w ∈ e.write, w.reg ≠ pcReg
  /-- a late write names a register field other than 31, and the pc only in SLI -/
  late : ∀ w ∈ e.late, w.reg ≠ isrReg ∧ w.reg ∈ i.regFields ∧ (w.reg = pcReg → i.mayWritePc = true)
  /-- flags are written under `F` only -/
  flags : i.writesFlags = false → e.flags = none
  /-- only a store stores -/
  store : i.stores = false → e.store = none
  /-- a store is aligned and admitted -/
  stored : ∀ st ∈ e.store, st.span.ok ∧ s.mapped st.addr st.bytes.length
  /-- a free value is used exactly where the spec draws -/
  drew : e.drew = s.drawsAt i

/-- A rule that yields an effect passed its checks. -/
theorem bind_eq_ok {ε α β : Type} {x : Except ε α} {f : α → Except ε β} {b : β} (h : (x >>= f) = .ok b) :
    ∃ a, x = .ok a ∧ f a = .ok b := by
  cases x with
  | error e => cases h
  | ok a => exact ⟨a, rfl, h⟩

/-- A rule that stops was stopped by its check, or after it. -/
theorem bind_eq_error {ε α β : Type} {x : Except ε α} {f : α → Except ε β} {r : ε} (h : (x >>= f) = .error r) :
    x = .error r ∨ ∃ a, x = .ok a ∧ f a = .error r := by
  cases x with
  | error e => exact .inl (by simpa [bind, Except.bind] using h)
  | ok a => exact .inr ⟨a, rfl, h⟩

theorem require_eq_error {ok : Bool} {r : Refusal} {e : Stop} (h : require ok r = .error e) : ok = false ∧ e = .refuse r := by
  cases ok <;> simp_all

theorem allowRegs_eq_ok {rs : List RegNum} (h : allowRegs rs = .ok ()) : ∀ r ∈ rs, r ≠ isrReg := by
  simpa [allowRegs, require_ok_iff] using h

theorem allowRd_eq_ok {rd : RegNum} (h : allowRd rd = .ok ()) : rd ≠ pcReg ∧ rd ≠ isrReg := by
  simpa [allowRd, require_ok_iff] using h

theorem allowBase_eq_ok {q : Bool} {rs1 : RegNum} (h : allowBase q rs1 = .ok ()) : q = true → rs1 ≠ pcReg := by
  cases q <;> simp_all [allowBase, require_ok_iff]

/-! ### The effect of each family -/

/-- An ALU rule yields a write to `rd`, flags under `F`, and a free value only from a rule for C that draws one. -/
theorem State.aluEffect_eq_ok {s : State} {logic : CarryRule} {op : AluOp} {rd : RegNum} {f : Bool} {a b : Word} {e : Effect}
    (h : s.aluEffect logic op rd f a b = .ok e) :
    ∃ o, alu op logic a b s.flags.c = some o
      ∧ e = { write := some ⟨rd, o.r⟩, flags := if f then some (o.flags s.flags (Config.freeBit s.draws)) else none,
              drew := f && o.carry.draws } := by
  unfold aluEffect at h
  split at h
  · cases h
  · rename_i o ho
    exact ⟨o, ho, (Except.ok.inj h).symm⟩

/-- A shift uses a free value exactly when its amount is 0 (40_ri.md R146). -/
theorem shift_draws {ar : Bool} {a b : Word} {o : AluOut} (h : shift ar a b = some o) : o.carry.draws = (b == 0#32) := by
  rcases shift_amount b with ⟨n, hn, rfl⟩ | ⟨m, hm, h1, rfl⟩ | hb
  · rw [shift_left ar a hn] at h
    obtain rfl := (Option.some.inj h).symm
    interval_cases n <;> rfl
  · rw [shift_right ar a hm h1] at h
    obtain rfl := (Option.some.inj h).symm
    interval_cases m <;> rfl
  · rw [shift_none ar a b hb] at h; cases h

/-- When an operation uses a free value: a shift by 0, and a logical operation whose format draws. -/
theorem alu_draws {op : AluOp} {logic : CarryRule} {a b : Word} {c : Bool} {o : AluOut} (h : alu op logic a b c = some o) :
    o.carry.draws = match op with
      | .sh | .sha => b == 0#32
      | .and | .or | .xor => logic.draws
      | _ => false := by
  cases op
  case sh | sha => exact shift_draws h
  all_goals exact (Option.some.inj h) ▸ rfl

/-- A sign-extended constant is 0 exactly when the constant is. -/
theorem signExtend_beq_zero (k : BitVec 16) : (k.signExtend 32 == 0#32) = (k == 0#16) := by
  rw [Bool.eq_iff_iff, beq_iff_eq, beq_iff_eq, ← BitVec.toInt_inj, ← BitVec.toInt_inj, BitVec.toInt_signExtend_of_le (by omega)]
  rfl

/-- The base update writes Rs1 and nothing else. -/
theorem baseUpdate_reg {q : Bool} {rs1 : RegNum} {sum : Word} {w : RegWrite} (h : w ∈ baseUpdate q rs1 sum) :
    q = true ∧ w = ⟨rs1, sum⟩ := by
  cases q with
  | false => cases h
  | true => cases h; exact ⟨rfl, rfl⟩

theorem storeLen_cases (t : StoreType) : storeLen t = 1 ∨ storeLen t = 2 ∨ storeLen t = 4 := by cases t <;> simp [storeLen]

/-- A store made ready is aligned and admitted. -/
theorem State.memStore_eq_ok {s : State} {ea v : Word} {t : StoreType} {st : Store} (h : s.memStore ea t v = .ok st) :
    st.span.ok ∧ s.mapped st.addr st.bytes.length := by
  rcases s.memStore_cases ea t v with ⟨-, e⟩ | ⟨-, -, e⟩ | ⟨ha, hm, e⟩
  · rw [e] at h; cases h
  · rw [e] at h; cases h
  · rw [e] at h; cases h
    refine ⟨⟨?_, ?_⟩, ?_⟩
    · simpa [Store.span] using storeLen_cases t
    · simpa [Store.span] using ha
    · simpa using hm

/-! ### The next state of any instruction -/

/-- An ALU rule's effect fits an instruction that says what the rule writes. -/
theorem Effect.fits_alu {i : Instr} {s : State} {logic : CarryRule} {op : AluOp} {rd : RegNum} {f : Bool} {a b : Word} {e : Effect}
    (h : s.aluEffect logic op rd f a b = .ok e) (hd : rd ≠ isrReg) (hr : rd ∈ i.regFields)
    (hj : i.jumps = false → rd ≠ pcReg) (hf : i.writesFlags = f)
    (hm : ∀ o, alu op logic a b s.flags.c = some o → (f && o.carry.draws) = s.drawsAt i) : Effect.Fits i s e := by
  obtain ⟨o, ho, rfl⟩ := State.aluEffect_eq_ok h
  refine ⟨?_, fun hi => ?_, nofun, fun hw => ?_, fun _ => rfl, nofun, hm o ho⟩
  · rintro w ⟨⟩; exact ⟨hd, .inl hr⟩
  · rintro w ⟨⟩; exact hj hi
  · rw [hf] at hw; subst hw; rfl

/-- A load's effect fits an instruction that is no jump and writes no flags. -/
theorem Effect.fits_load {i : Instr} {s : State} {rd rs1 : RegNum} {p q : Bool} {sum : Word} {t : LoadType} {e : Effect}
    (h : s.loadEffect rd rs1 p q sum t = .ok e) (hd : rd ≠ pcReg ∧ rd ≠ isrReg) (h1 : rs1 ≠ isrReg) (hq : q = true → rs1 ≠ pcReg)
    (hr : rd ∈ i.regFields ∧ rs1 ∈ i.regFields) (hm : s.drawsAt i = false) : Effect.Fits i s e := by
  obtain ⟨v, -, h⟩ := bind_eq_ok h
  cases h
  refine ⟨fun w hw => ?_, fun _ w hw => ?_, ?_, fun _ => rfl, fun _ => rfl, nofun, hm.symm⟩
  · obtain ⟨-, rfl⟩ := baseUpdate_reg hw; exact ⟨h1, .inl hr.2⟩
  · obtain ⟨hq', rfl⟩ := baseUpdate_reg hw; exact hq hq'
  · rintro w ⟨⟩; exact ⟨hd.2, hr.1, fun h => absurd h hd.1⟩

/-- A store's effect fits a store. -/
theorem Effect.fits_store {i : Instr} {s : State} {rd rs1 : RegNum} {p q : Bool} {sum : Word} {t : StoreType} {e : Effect}
    (h : s.storeEffect rd rs1 p q sum t = .ok e) (h1 : rs1 ≠ isrReg) (hq : q = true → rs1 ≠ pcReg) (hs : i.stores = true)
    (hr : rs1 ∈ i.regFields) (hm : s.drawsAt i = false) : Effect.Fits i s e := by
  obtain ⟨st, hst, h⟩ := bind_eq_ok h
  cases h
  refine ⟨fun w hw => ?_, fun _ w hw => ?_, nofun, fun _ => rfl, fun hs' => ?_, ?_, hm.symm⟩
  · obtain ⟨-, rfl⟩ := baseUpdate_reg hw; exact ⟨h1, .inl hr⟩
  · obtain ⟨hq', rfl⟩ := baseUpdate_reg hw; exact hq hq'
  · rw [hs] at hs'; cases hs'
  · rintro w ⟨⟩; exact State.memStore_eq_ok hst

/-- A branch's effect fits a jump. -/
theorem Effect.fits_branch {i : Instr} {s : State} {cond : Cond} {target : Word} (hj : i.jumps = true)
    (hm : s.drawsAt i = false) : Effect.Fits i s (s.branchEffect cond target) := by
  refine ⟨fun w hw => ?_, fun h => ?_, nofun, fun _ => rfl, fun _ => rfl, nofun, hm.symm⟩
  · simp only [State.branchEffect] at hw
    split at hw <;> cases hw
    exact ⟨(by decide : pcReg ≠ isrReg), .inr ⟨rfl, by simp [Instr.mayWritePc, hj]⟩⟩
  · rw [hj] at h; cases h

/-! ### The stops of any instruction (60_exceptions.md R351) -/

/-- Which reasons a meaning's rule can stop for, before its writes are looked at. -/
def Stop.Fits (i : Instr) (s : State) : Stop → Prop
  | .fault .outsideMemMap => i.loads = true ∨ i.stores = true
  | .fault .unwrittenByte => i.loads = true
  | .refuse .misaligned => i.loads = true ∨ i.stores = true
  | .refuse .contextSwitch => i = .punt
  | .refuse .prohibitedRd => i.rdAllowed = false
  | .refuse .register31 => i.avoidsIsr = false
  | .refuse .pcBaseUpdate => i.baseAllowed = false
  | .refuse .shiftRange => i.mayShift = true
  | .refuse .sliToPc => (∃ k, i = .sli pcReg k) ∧ s.cfg.sliPc = .refuse
  | .refuse _ => False

theorem Stop.fits_allowRegs {i : Instr} {s : State} {rs : List RegNum} {r : Stop} (h : allowRegs rs = .error r)
    (hi : rs ⊆ i.regFields) : Stop.Fits i s r := by
  have hr : isrReg ∈ rs := by simpa using (require_eq_error h).1
  rw [(require_eq_error h).2]
  show i.avoidsIsr = false
  simpa [Instr.avoidsIsr] using hi hr

theorem Stop.fits_allowRd {i : Instr} {s : State} {rd : RegNum} {r : Stop} (h : allowRd rd = .error r)
    (hi : i.restrictedRd = some rd) : Stop.Fits i s r := by
  rw [(require_eq_error h).2]
  show i.rdAllowed = false
  simpa [Instr.rdAllowed, hi] using (require_eq_error h).1

theorem Stop.fits_allowBase {i : Instr} {s : State} {q : Bool} {rs1 : RegNum} {r : Stop} (h : allowBase q rs1 = .error r)
    (hi : i.updatedBase = if q then some rs1 else none) : Stop.Fits i s r := by
  rw [(require_eq_error h).2]
  show i.baseAllowed = false
  obtain ⟨rfl, rfl⟩ : q = true ∧ rs1 = pcReg := by simpa using (require_eq_error h).1
  simp [Instr.baseAllowed, hi]

theorem Stop.fits_aluEffect {i : Instr} {s : State} {logic : CarryRule} {op : AluOp} {rd : RegNum} {f : Bool} {a b : Word} {r : Stop}
    (h : s.aluEffect logic op rd f a b = .error r) (hi : op = .sh ∨ op = .sha → i.mayShift = true) : Stop.Fits i s r := by
  unfold State.aluEffect at h
  split at h <;> cases h
  rename_i h
  exact hi (by cases op <;> simp_all [alu])

/-- Of the operations op1 can be, only sha shifts (42_rrr.md R202). -/
theorem Op1.alu_shift {o : Op1} (h : Op1.alu o = .sh ∨ Op1.alu o = .sha) : o = .sha := by
  cases o <;> simp_all [Op1.alu]

theorem Stop.fits_aluValue {i : Instr} {s : State} {op : AluOp} {a b : Word} {c : Bool} {r : Stop} (h : aluValue op a b c = .error r)
    (hi : op = .sh ∨ op = .sha → i.mayShift = true) : Stop.Fits i s r := by
  rw [aluValue_error h]
  exact hi (by cases op <;> simp_all [aluValue, alu])

theorem Stop.fits_addrSum {i : Instr} {s : State} {op : AluOp} {p q : Bool} {a b : Word} {r : Stop}
    (h : s.addrSum op p q a b = .error r) (hi : (p || q) = true → op = .sh ∨ op = .sha → i.mayShift = true) :
    Stop.Fits i s r := by
  unfold State.addrSum at h
  split at h
  · rename_i hpq; exact fits_aluValue h (hi hpq)
  · cases h

theorem Stop.fits_memLoad {i : Instr} {s : State} {ea : Word} {t : LoadType} {r : Stop} (h : s.memLoad ea t = .error r)
    (hl : i.loads = true) : Stop.Fits i s r := by
  rcases State.memLoad_error h with rfl | rfl | rfl <;> simp [Stop.Fits, hl]

theorem Stop.fits_memStore {i : Instr} {s : State} {ea v : Word} {t : StoreType} {r : Stop} (h : s.memStore ea t v = .error r)
    (hs : i.stores = true) : Stop.Fits i s r := by
  rcases s.memStore_cases ea t v with ⟨-, e⟩ | ⟨-, -, e⟩ | ⟨-, -, e⟩ <;> rw [e] at h <;> cases h <;> simp [Stop.Fits, hs]

theorem Stop.fits_loadEffect {i : Instr} {s : State} {rd rs1 : RegNum} {p q : Bool} {sum : Word} {t : LoadType} {r : Stop}
    (h : s.loadEffect rd rs1 p q sum t = .error r) (hl : i.loads = true) : Stop.Fits i s r := by
  rcases bind_eq_error h with h | ⟨v, -, h⟩
  · exact fits_memLoad h hl
  · cases h

theorem Stop.fits_storeEffect {i : Instr} {s : State} {rd rs1 : RegNum} {p q : Bool} {sum : Word} {t : StoreType} {r : Stop}
    (h : s.storeEffect rd rs1 p q sum t = .error r) (hs : i.stores = true) : Stop.Fits i s r := by
  rcases bind_eq_error h with h | ⟨v, -, h⟩
  · exact fits_memStore h hs
  · cases h

/-! ### Any instruction -/

/-- Every meaning is a rule that yields an effect of the instruction's shape or stops for a reason of its kind. -/
theorem exec_rule (i : Instr) (s : State) :
    ∃ x : Except Stop Effect, exec i s = s.finish x ∧ (∀ e, x = .ok e → Effect.Fits i s e)
      ∧ ∀ r, x = .error r → Stop.Fits i s r := by
  cases i
  case addRi | addcRi | subRi | subbRi | andRi | orRi | xorRi | shRi | shaRi =>
    refine ⟨_, rfl, fun e he => ?_, fun r hr => ?_⟩
    · obtain ⟨⟨⟩, h1, he⟩ := bind_eq_ok he
      exact Effect.fits_alu he (allowRegs_eq_ok h1 _ (by simp)) (by simp [Instr.regFields]) (by simp [Instr.jumps]) rfl
        fun o ho => by rw [alu_draws ho]; simp [State.drawsAt, CarryRule.draws, signExtend_beq_zero]
    · rcases bind_eq_error hr with h | ⟨_, -, hr⟩
      · exact Stop.fits_allowRegs h (by simp [Instr.regFields])
      · exact Stop.fits_aluEffect hr (by simp [Instr.mayShift])
  case addRr | addcRr | subRr | subbRr | andRr | orRr | xorRr | shRr | shaRr =>
    refine ⟨_, rfl, fun e he => ?_, fun r hr => ?_⟩
    · obtain ⟨⟨⟩, h1, he⟩ := bind_eq_ok he
      exact Effect.fits_alu he (allowRegs_eq_ok h1 _ (by simp)) (by simp [Instr.regFields]) (by simp [Instr.jumps]) rfl
        fun o ho => by rw [alu_draws ho]; simp [State.drawsAt, CarryRule.draws]
    · rcases bind_eq_error hr with h | ⟨_, -, hr⟩
      · exact Stop.fits_allowRegs h (by simp [Instr.regFields])
      · exact Stop.fits_aluEffect hr (by simp [Instr.mayShift])
  case addRrr | addcRrr | subRrr | subbRrr | andRrr | orRrr | xorRrr | shRrr | shaRrr =>
    refine ⟨_, rfl, fun e he => ?_, fun r hr => ?_⟩
    · obtain ⟨⟨⟩, h1, he⟩ := bind_eq_ok he
      obtain ⟨⟨⟩, h2, he⟩ := bind_eq_ok he
      obtain ⟨y, hy, he⟩ := bind_eq_ok he
      exact Effect.fits_alu he (allowRd_eq_ok h1).2 (by simp [Instr.regFields]) (fun _ => (allowRd_eq_ok h1).1) rfl
        fun o ho => by rw [alu_draws ho]; simp [State.drawsAt, CarryRule.draws, hy]
    · rcases bind_eq_error hr with h | ⟨_, -, hr⟩
      · exact Stop.fits_allowRd h rfl
      · rcases bind_eq_error hr with h | ⟨_, -, hr⟩
        · exact Stop.fits_allowRegs h (by simp [Instr.regFields])
        · rcases bind_eq_error hr with h | ⟨_, -, hr⟩
          · exact Stop.fits_aluValue h fun h => by simp [Instr.mayShift, Op1.alu_shift h]
          · exact Stop.fits_aluEffect hr (by simp [Instr.mayShift])
  case ldRm | ldhSpls | ldbSpls =>
    refine ⟨_, rfl, fun e he => ?_, fun r hr => ?_⟩
    · obtain ⟨⟨⟩, h1, he⟩ := bind_eq_ok he
      obtain ⟨⟨⟩, h2, he⟩ := bind_eq_ok he
      obtain ⟨⟨⟩, h3, he⟩ := bind_eq_ok he
      exact Effect.fits_load he (allowRd_eq_ok h1) (allowRegs_eq_ok h2 _ (by simp)) (allowBase_eq_ok h3)
        (by simp [Instr.regFields]) rfl
    · rcases bind_eq_error hr with h | ⟨_, -, hr⟩
      · exact Stop.fits_allowRd h rfl
      · rcases bind_eq_error hr with h | ⟨_, -, hr⟩
        · exact Stop.fits_allowRegs h (by simp [Instr.regFields])
        · rcases bind_eq_error hr with h | ⟨_, -, hr⟩
          · exact Stop.fits_allowBase h rfl
          · exact Stop.fits_loadEffect hr rfl
  case stRm | sthSpls | stbSpls =>
    refine ⟨_, rfl, fun e he => ?_, fun r hr => ?_⟩
    · obtain ⟨⟨⟩, h1, he⟩ := bind_eq_ok he
      obtain ⟨⟨⟩, h2, he⟩ := bind_eq_ok he
      obtain ⟨⟨⟩, h3, he⟩ := bind_eq_ok he
      exact Effect.fits_store he (allowRegs_eq_ok h2 _ (by simp)) (allowBase_eq_ok h3) rfl (by simp [Instr.regFields]) rfl
    · rcases bind_eq_error hr with h | ⟨_, -, hr⟩
      · exact Stop.fits_allowRd h rfl
      · rcases bind_eq_error hr with h | ⟨_, -, hr⟩
        · exact Stop.fits_allowRegs h (by simp [Instr.regFields])
        · rcases bind_eq_error hr with h | ⟨_, -, hr⟩
          · exact Stop.fits_allowBase h rfl
          · exact Stop.fits_storeEffect hr rfl
  case ldRrmAdd | ldRrmAddc | ldRrmSub | ldRrmSubb | ldRrmAnd | ldRrmOr | ldRrmXor | ldRrmSh | ldRrmSha =>
    refine ⟨_, rfl, fun e he => ?_, fun r hr => ?_⟩
    · obtain ⟨⟨⟩, h1, he⟩ := bind_eq_ok he
      obtain ⟨⟨⟩, h2, he⟩ := bind_eq_ok he
      obtain ⟨⟨⟩, h3, he⟩ := bind_eq_ok he
      obtain ⟨sum, -, he⟩ := bind_eq_ok he
      exact Effect.fits_load he (allowRd_eq_ok h1) (allowRegs_eq_ok h2 _ (by simp)) (allowBase_eq_ok h3)
        (by simp [Instr.regFields]) rfl
    · rcases bind_eq_error hr with h | ⟨_, -, hr⟩
      · exact Stop.fits_allowRd h rfl
      · rcases bind_eq_error hr with h | ⟨_, -, hr⟩
        · exact Stop.fits_allowRegs h (by simp [Instr.regFields])
        · rcases bind_eq_error hr with h | ⟨_, -, hr⟩
          · exact Stop.fits_allowBase h rfl
          · rcases bind_eq_error hr with h | ⟨_, -, hr⟩
            · exact Stop.fits_addrSum h (by simp [Instr.mayShift])
            · exact Stop.fits_loadEffect hr rfl
  case stRrmAdd | stRrmAddc | stRrmSub | stRrmSubb | stRrmAnd | stRrmOr | stRrmXor | stRrmSh | stRrmSha =>
    refine ⟨_, rfl, fun e he => ?_, fun r hr => ?_⟩
    · obtain ⟨⟨⟩, h1, he⟩ := bind_eq_ok he
      obtain ⟨⟨⟩, h2, he⟩ := bind_eq_ok he
      obtain ⟨⟨⟩, h3, he⟩ := bind_eq_ok he
      obtain ⟨sum, -, he⟩ := bind_eq_ok he
      exact Effect.fits_store he (allowRegs_eq_ok h2 _ (by simp)) (allowBase_eq_ok h3) rfl (by simp [Instr.regFields]) rfl
    · rcases bind_eq_error hr with h | ⟨_, -, hr⟩
      · exact Stop.fits_allowRd h rfl
      · rcases bind_eq_error hr with h | ⟨_, -, hr⟩
        · exact Stop.fits_allowRegs h (by simp [Instr.regFields])
        · rcases bind_eq_error hr with h | ⟨_, -, hr⟩
          · exact Stop.fits_allowBase h rfl
          · rcases bind_eq_error hr with h | ⟨_, -, hr⟩
            · exact Stop.fits_addrSum h (by simp [Instr.mayShift])
            · exact Stop.fits_storeEffect hr rfl
  case brAbs | brRel =>
    exact ⟨_, rfl, fun e he => Except.ok.inj he ▸ Effect.fits_branch rfl rfl, nofun⟩
  case sbr =>
    refine ⟨_, rfl, fun e he => ?_, fun r hr => ?_⟩
    · obtain ⟨⟨⟩, h1, he⟩ := bind_eq_ok he
      exact Except.ok.inj he ▸ Effect.fits_branch rfl rfl
    · rcases bind_eq_error hr with h | ⟨_, -, hr⟩
      · exact Stop.fits_allowRegs h (by simp [Instr.regFields])
      · cases hr
  case punt => exact ⟨.error (.refuse .contextSwitch), rfl, nofun, fun r hr => by cases hr; rfl⟩
  case ldSls =>
    refine ⟨_, rfl, fun e he => ?_, fun r hr => ?_⟩
    · obtain ⟨⟨⟩, h1, he⟩ := bind_eq_ok he
      obtain ⟨v, -, he⟩ := bind_eq_ok he
      cases he
      refine ⟨nofun, nofun, ?_, fun _ => rfl, fun _ => rfl, nofun, rfl⟩
      rintro w ⟨⟩; exact ⟨(allowRd_eq_ok h1).2, by simp [Instr.regFields], fun h => absurd h (allowRd_eq_ok h1).1⟩
    · rcases bind_eq_error hr with h | ⟨_, -, hr⟩
      · exact Stop.fits_allowRd h rfl
      · rcases bind_eq_error hr with h | ⟨_, -, hr⟩
        · exact Stop.fits_memLoad h rfl
        · cases hr
  case stSls =>
    refine ⟨_, rfl, fun e he => ?_, fun r hr => ?_⟩
    · obtain ⟨⟨⟩, h1, he⟩ := bind_eq_ok he
      obtain ⟨st, hst, he⟩ := bind_eq_ok he
      cases he
      refine ⟨nofun, nofun, nofun, fun _ => rfl, nofun, ?_, rfl⟩
      rintro w ⟨⟩; exact State.memStore_eq_ok hst
    · rcases bind_eq_error hr with h | ⟨_, -, hr⟩
      · exact Stop.fits_allowRd h rfl
      · rcases bind_eq_error hr with h | ⟨_, -, hr⟩
        · exact Stop.fits_memStore h rfl
        · cases hr
  case sli rd k =>
    refine ⟨_, rfl, fun e he => ?_, fun r hr => ?_⟩
    · obtain ⟨⟨⟩, h1, he⟩ := bind_eq_ok he
      obtain ⟨⟨⟩, h2, he⟩ := bind_eq_ok he
      cases he
      refine ⟨nofun, nofun, ?_, fun _ => rfl, fun _ => rfl, nofun, rfl⟩
      rintro w ⟨⟩
      exact ⟨allowRegs_eq_ok h1 _ (by simp), by simp [Instr.regFields], fun h => by simpa [Instr.mayWritePc] using .inr h⟩
    · rcases bind_eq_error hr with h | ⟨_, -, hr⟩
      · exact Stop.fits_allowRegs h (by simp [Instr.regFields])
      · rcases bind_eq_error hr with h | ⟨_, -, hr⟩
        · rw [(require_eq_error h).2]
          have hc : rd = pcReg ∧ s.cfg.sliPc = .refuse := by simpa using (require_eq_error h).1
          exact ⟨⟨k, by rw [hc.1]⟩, hc.2⟩
        · cases hr

/-- Every next state is an effect of the instruction's shape that landed. -/
theorem exec_next {i : Instr} {s t : State} (h : exec i s = .next t) :
    ∃ e, Effect.Fits i s e ∧ s.Lands e ∧ t = s.advance e := by
  obtain ⟨x, hx, hfit, -⟩ := exec_rule i s
  rw [hx, State.finish_eq_next] at h
  obtain ⟨e, he, hc⟩ := h
  exact ⟨e, hfit e he, (s.commit_eq_next _ _).1 hc⟩

/-- Every stop is a reason of the instruction's kind, or the objection to an effect of its shape. -/
theorem exec_stops {i : Instr} {s : State} {r : Stop} (h : exec i s = r.outcome) :
    Stop.Fits i s r ∨ ∃ e o, Effect.Fits i s e ∧ s.objection e = some o ∧ r = .refuse o := by
  obtain ⟨x, hx, hfit, hstop⟩ := exec_rule i s
  rw [hx] at h
  cases x with
  | error q =>
    have : q = r := by cases q <;> cases r <;> simp_all [State.finish, Stop.outcome]
    exact .inl (this ▸ hstop q rfl)
  | ok e =>
    refine .inr ⟨e, ?_⟩
    simp only [State.finish, State.commit] at h
    cases ho : s.objection e <;> rw [ho] at h <;> cases r <;> simp [Stop.outcome] at h
    exact ⟨_, hfit e rfl, rfl, by rw [h]⟩

/-! ### A load and a store that completed (43_rm.md R232, 44_rrm.md R252, 47_sls_sli.md R315, 48_spls.md R331) -/

/-- A meaning that has a next state: its rule yields an effect, which landed. -/
theorem State.finish_next {s t : State} {x : Except Stop Effect} (h : s.finish x = .next t) :
    ∃ e, x = .ok e ∧ s.Lands e ∧ t = s.advance e := by
  obtain ⟨e, he, hc⟩ := (s.finish_eq_next t x).1 h
  exact ⟨e, he, (s.commit_eq_next _ _).1 hc⟩

/-- What a load that completed did: it read its datum at its effective address and has it late for `rd`; its only time-2 write is the
base update. -/
def State.Loaded (s t : State) (i : Instr) (rd : RegNum) (ty : LoadType) : Prop :=
  ∃ ea v e, s.eaOf i = some ea ∧ s.memLoad ea ty = .ok v ∧ rd ≠ pcReg ∧ e.late = some ⟨rd, v⟩
    ∧ (∀ w ∈ e.write, i.updatedBase = some w.reg) ∧ t = s.advance e

/-- What a store that completed did: it stored the register's bytes at its effective address. -/
def State.Stored (s t : State) (i : Instr) (rd : RegNum) (ty : StoreType) : Prop :=
  ∃ ea st e, s.eaOf i = some ea ∧ s.memStore ea ty (s.x rd) = .ok st ∧ e.store = some st ∧ t = s.advance e

/-- The effective address of RRM is the one of its address sum (44_rrm.md R251). -/
theorem State.rrmAddr_of_sum {s : State} {op : AluOp} {p q : Bool} {rs1 rs2 : RegNum} {sum : Word}
    (h : s.addrSum op p q (s.x rs1) (s.x rs2) = .ok sum) : s.rrmAddr op rs1 rs2 p = some (effAddr p (s.x rs1) sum) := by
  cases p with
  | false => rfl
  | true => simp only [addrSum, Bool.true_or, if_true] at h; simp [rrmAddr, effAddr, h]

theorem State.loaded_of_const {s t : State} {i : Instr} {rd rs1 : RegNum} {p q : Bool} {k : Word} {ty : LoadType}
    (h : s.loadConst rd rs1 p q k ty = .next t) (he : s.eaOf i = some (effAddr p (s.x rs1) (s.x rs1 + k)))
    (hb : i.updatedBase = if q then some rs1 else none) : s.Loaded t i rd ty := by
  obtain ⟨e, hx, -, ht⟩ := State.finish_next h
  obtain ⟨⟨⟩, h1, hx⟩ := bind_eq_ok hx
  obtain ⟨⟨⟩, -, hx⟩ := bind_eq_ok hx
  obtain ⟨⟨⟩, -, hx⟩ := bind_eq_ok hx
  obtain ⟨v, hv, hx⟩ := bind_eq_ok hx
  cases hx
  refine ⟨_, v, _, he, hv, (allowRd_eq_ok h1).1, rfl, fun w hw => ?_, ht⟩
  obtain ⟨rfl, rfl⟩ := baseUpdate_reg hw; simp [hb]

theorem State.loaded_of_rrm {s t : State} {i : Instr} {op : AluOp} {rd rs1 rs2 : RegNum} {p q : Bool} {ty : LoadType}
    (h : s.rrmLoad op rd rs1 rs2 p q ty = .next t) (he : s.eaOf i = s.rrmAddr op rs1 rs2 p)
    (hb : i.updatedBase = if q then some rs1 else none) : s.Loaded t i rd ty := by
  obtain ⟨e, hx, -, ht⟩ := State.finish_next h
  obtain ⟨⟨⟩, h1, hx⟩ := bind_eq_ok hx
  obtain ⟨⟨⟩, -, hx⟩ := bind_eq_ok hx
  obtain ⟨⟨⟩, -, hx⟩ := bind_eq_ok hx
  obtain ⟨sum, hs, hx⟩ := bind_eq_ok hx
  obtain ⟨v, hv, hx⟩ := bind_eq_ok hx
  cases hx
  refine ⟨_, v, _, he.trans (State.rrmAddr_of_sum hs), hv, (allowRd_eq_ok h1).1, rfl, fun w hw => ?_, ht⟩
  obtain ⟨rfl, rfl⟩ := baseUpdate_reg hw; simp [hb]

theorem State.stored_of_const {s t : State} {i : Instr} {rd rs1 : RegNum} {p q : Bool} {k : Word} {ty : StoreType}
    (h : s.storeConst rd rs1 p q k ty = .next t) (he : s.eaOf i = some (effAddr p (s.x rs1) (s.x rs1 + k))) :
    s.Stored t i rd ty := by
  obtain ⟨e, hx, -, ht⟩ := State.finish_next h
  obtain ⟨⟨⟩, -, hx⟩ := bind_eq_ok hx
  obtain ⟨⟨⟩, -, hx⟩ := bind_eq_ok hx
  obtain ⟨⟨⟩, -, hx⟩ := bind_eq_ok hx
  obtain ⟨st, hst, hx⟩ := bind_eq_ok hx
  cases hx
  exact ⟨_, st, _, he, hst, rfl, ht⟩

theorem State.stored_of_rrm {s t : State} {i : Instr} {op : AluOp} {rd rs1 rs2 : RegNum} {p q : Bool} {ty : StoreType}
    (h : s.rrmStore op rd rs1 rs2 p q ty = .next t) (he : s.eaOf i = s.rrmAddr op rs1 rs2 p) : s.Stored t i rd ty := by
  obtain ⟨e, hx, -, ht⟩ := State.finish_next h
  obtain ⟨⟨⟩, -, hx⟩ := bind_eq_ok hx
  obtain ⟨⟨⟩, -, hx⟩ := bind_eq_ok hx
  obtain ⟨⟨⟩, -, hx⟩ := bind_eq_ok hx
  obtain ⟨sum, hs, hx⟩ := bind_eq_ok hx
  obtain ⟨st, hst, hx⟩ := bind_eq_ok hx
  cases hx
  exact ⟨_, st, _, he.trans (State.rrmAddr_of_sum hs), hst, rfl, ht⟩

/-- Every load that completes, whatever its format. -/
theorem exec_load_next {i : Instr} {s t : State} {rd : RegNum} {ty : LoadType} (hl : i.loadOf = some (rd, ty))
    (h : exec i s = .next t) : s.Loaded t i rd ty := by
  cases i <;> simp only [Instr.loadOf, Option.some.injEq, Prod.mk.injEq, reduceCtorEq] at hl <;> obtain ⟨rfl, rfl⟩ := hl
  case ldSls rd addr =>
    obtain ⟨e, hx, -, ht⟩ := State.finish_next h
    obtain ⟨⟨⟩, h1, hx⟩ := bind_eq_ok hx
    obtain ⟨v, hv, hx⟩ := bind_eq_ok hx
    cases hx
    refine ⟨_, v, _, rfl, hv, (allowRd_eq_ok h1).1, rfl, fun w hw => ?_, ht⟩
    cases hw
  case ldRm | ldhSpls | ldbSpls => exact State.loaded_of_const h rfl rfl
  all_goals exact State.loaded_of_rrm h rfl rfl

/-- Every store that completes, whatever its format. -/
theorem exec_store_next {i : Instr} {s t : State} {rd : RegNum} {ty : StoreType} (hl : i.storeOf = some (rd, ty))
    (h : exec i s = .next t) : s.Stored t i rd ty := by
  cases i <;> simp only [Instr.storeOf, Option.some.injEq, Prod.mk.injEq, reduceCtorEq] at hl <;> obtain ⟨rfl, rfl⟩ := hl
  case stSls rd addr =>
    obtain ⟨e, hx, -, ht⟩ := State.finish_next h
    obtain ⟨⟨⟩, -, hx⟩ := bind_eq_ok hx
    obtain ⟨st, hst, hx⟩ := bind_eq_ok hx
    cases hx
    exact ⟨_, st, _, rfl, hst, rfl, ht⟩
  case stRm | sthSpls | stbSpls => exact State.stored_of_const h rfl
  all_goals exact State.stored_of_rrm h rfl

end Sys2Proof.Machine
end

