-- ==== Sys2Proof/Laws/PerInstr.lean ====
section
/-! SUPPORT. The family `EncodeMatchesRow`: the word of every instruction whose unused fields are 0 matches its own row of
`spec/opcode_table.json`, reserved bits included (30_encoding.md R125). -/

namespace Sys2Proof.Laws

/-- `mask` of the instruction's row: the selecting and the reserved bits (R125). -/
def rowMask : Instr → Word
  | .addRi .. => 0xF0000000#32
  | .addcRi .. => 0xF0000000#32
  | .subRi .. => 0xF0000000#32
  | .subbRi .. => 0xF0000000#32
  | .andRi .. => 0xF0000000#32
  | .orRi .. => 0xF0000000#32
  | .xorRi .. => 0xF0000000#32
  | .shRi .. => 0xF0010000#32
  | .shaRi .. => 0xF0010000#32
  | .addRr .. => 0xF0010707#32
  | .addcRr .. => 0xF0010707#32
  | .subRr .. => 0xF0010707#32
  | .subbRr .. => 0xF0010707#32
  | .andRr .. => 0xF0010707#32
  | .orRr .. => 0xF0010707#32
  | .xorRr .. => 0xF0010707#32
  | .shRr .. => 0xF00107FF#32
  | .shaRr .. => 0xF00107FF#32
  | .addRrr .. => 0xF0000700#32
  | .addcRrr .. => 0xF0000700#32
  | .subRrr .. => 0xF0000700#32
  | .subbRrr .. => 0xF0000700#32
  | .andRrr .. => 0xF0000700#32
  | .orRrr .. => 0xF0000700#32
  | .xorRrr .. => 0xF0000700#32
  | .shRrr .. => 0xF0010700#32
  | .shaRrr .. => 0xF0010700#32
  | .ldRm .. => 0xF0000000#32
  | .stRm .. => 0xF0000000#32
  | .ldRrmAdd .. => 0xF0000700#32
  | .ldRrmAddc .. => 0xF0000700#32
  | .ldRrmSub .. => 0xF0000700#32
  | .ldRrmSubb .. => 0xF0000700#32
  | .ldRrmAnd .. => 0xF0000700#32
  | .ldRrmOr .. => 0xF0000700#32
  | .ldRrmXor .. => 0xF0000700#32
  | .ldRrmSh .. => 0xF00007F8#32
  | .ldRrmSha .. => 0xF00007F8#32
  | .stRrmAdd .. => 0xF0000700#32
  | .stRrmAddc .. => 0xF0000700#32
  | .stRrmSub .. => 0xF0000700#32
  | .stRrmSubb .. => 0xF0000700#32
  | .stRrmAnd .. => 0xF0000700#32
  | .stRrmOr .. => 0xF0000700#32
  | .stRrmXor .. => 0xF0000700#32
  | .stRrmSh .. => 0xF00007F8#32
  | .stRrmSha .. => 0xF00007F8#32
  | .brAbs .. => 0xF0000002#32
  | .brRel .. => 0xF0000002#32
  | .punt => 0xFFFFFFFF#32
  | .ldSls .. => 0xF0030000#32
  | .stSls .. => 0xF0030000#32
  | .sli .. => 0xF0030000#32
  | .ldhSpls .. => 0xF003E000#32
  | .ldbSpls .. => 0xF003E000#32
  | .sthSpls .. => 0xF003E000#32
  | .stbSpls .. => 0xF003E000#32
  | .sbr .. => 0xF183FF06#32

/-- `match` of the instruction's row (R125). -/
def rowMatch : Instr → Word
  | .addRi .. => 0x00000000#32
  | .addcRi .. => 0x10000000#32
  | .subRi .. => 0x20000000#32
  | .subbRi .. => 0x30000000#32
  | .andRi .. => 0x40000000#32
  | .orRi .. => 0x50000000#32
  | .xorRi .. => 0x60000000#32
  | .shRi .. => 0x70000000#32
  | .shaRi .. => 0x70010000#32
  | .addRr .. => 0xC0000000#32
  | .addcRr .. => 0xC0000100#32
  | .subRr .. => 0xC0000200#32
  | .subbRr .. => 0xC0000300#32
  | .andRr .. => 0xC0000400#32
  | .orRr .. => 0xC0000500#32
  | .xorRr .. => 0xC0000600#32
  | .shRr .. => 0xC0000780#32
  | .shaRr .. => 0xC00007C0#32
  | .addRrr .. => 0xD0000000#32
  | .addcRrr .. => 0xD0000100#32
  | .subRrr .. => 0xD0000200#32
  | .subbRrr .. => 0xD0000300#32
  | .andRrr .. => 0xD0000400#32
  | .orRrr .. => 0xD0000500#32
  | .xorRrr .. => 0xD0000600#32
  | .shRrr .. => 0xD0000700#32
  | .shaRrr .. => 0xD0010700#32
  | .ldRm .. => 0x80000000#32
  | .stRm .. => 0x90000000#32
  | .ldRrmAdd .. => 0xA0000000#32
  | .ldRrmAddc .. => 0xA0000100#32
  | .ldRrmSub .. => 0xA0000200#32
  | .ldRrmSubb .. => 0xA0000300#32
  | .ldRrmAnd .. => 0xA0000400#32
  | .ldRrmOr .. => 0xA0000500#32
  | .ldRrmXor .. => 0xA0000600#32
  | .ldRrmSh .. => 0xA0000780#32
  | .ldRrmSha .. => 0xA00007C0#32
  | .stRrmAdd .. => 0xB0000000#32
  | .stRrmAddc .. => 0xB0000100#32
  | .stRrmSub .. => 0xB0000200#32
  | .stRrmSubb .. => 0xB0000300#32
  | .stRrmAnd .. => 0xB0000400#32
  | .stRrmOr .. => 0xB0000500#32
  | .stRrmXor .. => 0xB0000600#32
  | .stRrmSh .. => 0xB0000780#32
  | .stRrmSha .. => 0xB00007C0#32
  | .brAbs .. => 0xE0000000#32
  | .brRel .. => 0xE0000002#32
  | .punt => 0xF003FF47#32
  | .ldSls .. => 0xF0000000#32
  | .stSls .. => 0xF0010000#32
  | .sli .. => 0xF0020000#32
  | .ldhSpls .. => 0xF0030000#32
  | .ldbSpls .. => 0xF0034000#32
  | .sthSpls .. => 0xF0032000#32
  | .stbSpls .. => 0xF0036000#32
  | .sbr .. => 0xF003C000#32

/-- The instruction's word is one of its row's (R125: `w & mask = match`). -/
def EncodeMatchesRow.Statement (i : Instr) : Prop := i.unusedZero = true → encode i &&& rowMask i = rowMatch i

/-- It is enough that the fields in their places match the row. -/
theorem EncodeMatchesRow.of_fields {i : Instr} (h : encodeFields i &&& rowMask i = rowMatch i) : Statement i := fun hu => by
  rw [encode, Instr.clean_of_unusedZero hu]; exact h

/-! ### The masked word of each layout: what the mask keeps -/

theorem encRi_mask (aaa : BitVec 3) (rd rs1 : RegNum) (f h : Bool) (k : BitVec 16) :
    encRi aaa rd rs1 f h k &&& 0xF0000000#32 = encRi aaa 0 0 false false 0 := by
  apply BitVec.eq_of_getLsbD_eq; intro i hi
  simp only [encRi, BitVec.getLsbD_and, BitVec.getLsbD_append]
  interval_cases i <;> simp

theorem encRi_shift_mask (aaa : BitVec 3) (rd rs1 : RegNum) (f h : Bool) (k : BitVec 16) :
    encRi aaa rd rs1 f h k &&& 0xF0010000#32 = encRi aaa 0 0 false h 0 := by
  apply BitVec.eq_of_getLsbD_eq; intro i hi
  simp only [encRi, BitVec.getLsbD_and, BitVec.getLsbD_append]
  interval_cases i <;> simp

theorem encConst_rm_mask (op : BitVec 4) (rd rs1 : RegNum) (b17 b16 : Bool) (k : BitVec 16) :
    encConst op rd rs1 b17 b16 k &&& 0xF0000000#32 = encConst op 0 0 false false 0 := by
  apply BitVec.eq_of_getLsbD_eq; intro i hi
  simp only [encConst, BitVec.getLsbD_and, BitVec.getLsbD_append]
  interval_cases i <;> simp

theorem encConst_sls_mask (op : BitVec 4) (rd rs1 : RegNum) (b17 b16 : Bool) (k : BitVec 16) :
    encConst op rd rs1 b17 b16 k &&& 0xF0030000#32 = encConst op 0 0 b17 b16 0 := by
  apply BitVec.eq_of_getLsbD_eq; intro i hi
  simp only [encConst, BitVec.getLsbD_and, BitVec.getLsbD_append]
  interval_cases i <;> simp

theorem encReg_rr_mask (op : BitVec 4) (rd rs1 : RegNum) (b17 b16 : Bool) (rs2 : RegNum) (bbb : BitVec 3) (j : BitVec 5)
    (low : BitVec 3) :
    encReg op rd rs1 b17 b16 rs2 bbb j low &&& 0xF0010707#32 = encReg op 0 0 false b16 0 bbb 0 low := by
  apply BitVec.eq_of_getLsbD_eq; intro i hi
  simp only [encReg, BitVec.getLsbD_and, BitVec.getLsbD_append]
  interval_cases i <;> simp

theorem encReg_rr_shift_mask (op : BitVec 4) (rd rs1 : RegNum) (b17 b16 : Bool) (rs2 : RegNum) (bbb : BitVec 3) (j : BitVec 5)
    (low : BitVec 3) :
    encReg op rd rs1 b17 b16 rs2 bbb j low &&& 0xF00107FF#32 = encReg op 0 0 false b16 0 bbb j low := by
  apply BitVec.eq_of_getLsbD_eq; intro i hi
  simp only [encReg, BitVec.getLsbD_and, BitVec.getLsbD_append]
  interval_cases i <;> simp

theorem encReg_op_mask (op : BitVec 4) (rd rs1 : RegNum) (b17 b16 : Bool) (rs2 : RegNum) (bbb : BitVec 3) (j : BitVec 5)
    (low : BitVec 3) :
    encReg op rd rs1 b17 b16 rs2 bbb j low &&& 0xF0000700#32 = encReg op 0 0 false false 0 bbb 0 0 := by
  apply BitVec.eq_of_getLsbD_eq; intro i hi
  simp only [encReg, BitVec.getLsbD_and, BitVec.getLsbD_append]
  interval_cases i <;> simp

theorem encReg_rrr_shift_mask (op : BitVec 4) (rd rs1 : RegNum) (b17 b16 : Bool) (rs2 : RegNum) (bbb : BitVec 3) (j : BitVec 5)
    (low : BitVec 3) :
    encReg op rd rs1 b17 b16 rs2 bbb j low &&& 0xF0010700#32 = encReg op 0 0 false b16 0 bbb 0 0 := by
  apply BitVec.eq_of_getLsbD_eq; intro i hi
  simp only [encReg, BitVec.getLsbD_and, BitVec.getLsbD_append]
  interval_cases i <;> simp

theorem encReg_rrm_shift_mask (op : BitVec 4) (rd rs1 : RegNum) (b17 b16 : Bool) (rs2 : RegNum) (bbb : BitVec 3) (j : BitVec 5)
    (low : BitVec 3) :
    encReg op rd rs1 b17 b16 rs2 bbb j low &&& 0xF00007F8#32 = encReg op 0 0 false false 0 bbb j 0 := by
  apply BitVec.eq_of_getLsbD_eq; intro i hi
  simp only [encReg, BitVec.getLsbD_and, BitVec.getLsbD_append]
  interval_cases i <;> simp

theorem encBr_mask (c : Cond) (k : BitVec 23) (r : Bool) :
    encBr c k r &&& 0xF0000002#32 = encBr .t 0 r := by
  apply BitVec.eq_of_getLsbD_eq; intro i hi
  simp only [encBr, codeOfCond, BitVec.getLsbD_and, BitVec.getLsbD_append]
  interval_cases i <;> simp

theorem encSpls_mask (rd rs1 : RegNum) (y s e p q : Bool) (k : BitVec 10) :
    encSpls rd rs1 y s e p q k &&& 0xF003E000#32 = encSpls 0 0 y s false false false 0 := by
  apply BitVec.eq_of_getLsbD_eq; intro i hi
  simp only [encSpls, BitVec.getLsbD_and, BitVec.getLsbD_append]
  interval_cases i <;> simp

theorem encSbr_mask (c : Cond) (rs1 rs3 : RegNum) :
    encSbr c rs1 rs3 &&& 0xF183FF06#32 = encSbr .t 0 0 := by
  apply BitVec.eq_of_getLsbD_eq; intro i hi
  simp only [encSbr, codeOfCond, BitVec.getLsbD_and, BitVec.getLsbD_append]
  interval_cases i <;> simp

/-! ### One lemma for each constructor -/

namespace EncodeMatchesRow

theorem addRi (rd rs1 : RegNum) (f h : Bool) (k : BitVec 16) :
    Statement (.addRi rd rs1 f h k) := of_fields (encRi_mask _ _ _ _ _ _)

theorem addcRi (rd rs1 : RegNum) (f h : Bool) (k : BitVec 16) :
    Statement (.addcRi rd rs1 f h k) := of_fields (encRi_mask _ _ _ _ _ _)

theorem subRi (rd rs1 : RegNum) (f h : Bool) (k : BitVec 16) :
    Statement (.subRi rd rs1 f h k) := of_fields (encRi_mask _ _ _ _ _ _)

theorem subbRi (rd rs1 : RegNum) (f h : Bool) (k : BitVec 16) :
    Statement (.subbRi rd rs1 f h k) := of_fields (encRi_mask _ _ _ _ _ _)

theorem andRi (rd rs1 : RegNum) (f h : Bool) (k : BitVec 16) :
    Statement (.andRi rd rs1 f h k) := of_fields (encRi_mask _ _ _ _ _ _)

theorem orRi (rd rs1 : RegNum) (f h : Bool) (k : BitVec 16) :
    Statement (.orRi rd rs1 f h k) := of_fields (encRi_mask _ _ _ _ _ _)

theorem xorRi (rd rs1 : RegNum) (f h : Bool) (k : BitVec 16) :
    Statement (.xorRi rd rs1 f h k) := of_fields (encRi_mask _ _ _ _ _ _)

theorem shRi (rd rs1 : RegNum) (f : Bool) (k : BitVec 16) :
    Statement (.shRi rd rs1 f k) := of_fields (encRi_shift_mask _ _ _ _ _ _)

theorem shaRi (rd rs1 : RegNum) (f : Bool) (k : BitVec 16) :
    Statement (.shaRi rd rs1 f k) := of_fields (encRi_shift_mask _ _ _ _ _ _)

theorem addRr (rd rs1 rs2 : RegNum) (f : Bool) :
    Statement (.addRr rd rs1 rs2 f) := of_fields (encReg_rr_mask _ _ _ _ _ _ _ _ _)

theorem addcRr (rd rs1 rs2 : RegNum) (f : Bool) :
    Statement (.addcRr rd rs1 rs2 f) := of_fields (encReg_rr_mask _ _ _ _ _ _ _ _ _)

theorem subRr (rd rs1 rs2 : RegNum) (f : Bool) :
    Statement (.subRr rd rs1 rs2 f) := of_fields (encReg_rr_mask _ _ _ _ _ _ _ _ _)

theorem subbRr (rd rs1 rs2 : RegNum) (f : Bool) :
    Statement (.subbRr rd rs1 rs2 f) := of_fields (encReg_rr_mask _ _ _ _ _ _ _ _ _)

theorem andRr (rd rs1 rs2 : RegNum) (f : Bool) :
    Statement (.andRr rd rs1 rs2 f) := of_fields (encReg_rr_mask _ _ _ _ _ _ _ _ _)

theorem orRr (rd rs1 rs2 : RegNum) (f : Bool) :
    Statement (.orRr rd rs1 rs2 f) := of_fields (encReg_rr_mask _ _ _ _ _ _ _ _ _)

theorem xorRr (rd rs1 rs2 : RegNum) (f : Bool) :
    Statement (.xorRr rd rs1 rs2 f) := of_fields (encReg_rr_mask _ _ _ _ _ _ _ _ _)

theorem shRr (rd rs1 rs2 : RegNum) (f : Bool) :
    Statement (.shRr rd rs1 rs2 f) := of_fields (encReg_rr_shift_mask _ _ _ _ _ _ _ _ _)

theorem shaRr (rd rs1 rs2 : RegNum) (f : Bool) :
    Statement (.shaRr rd rs1 rs2 f) := of_fields (encReg_rr_shift_mask _ _ _ _ _ _ _ _ _)

theorem addRrr (rd rs1 rs2 rs3 : RegNum) (op1 : Op1) (f : Bool) :
    Statement (.addRrr rd rs1 rs2 rs3 op1 f) := of_fields (encReg_op_mask _ _ _ _ _ _ _ _ _)

theorem addcRrr (rd rs1 rs2 rs3 : RegNum) (op1 : Op1) (f : Bool) :
    Statement (.addcRrr rd rs1 rs2 rs3 op1 f) := of_fields (encReg_op_mask _ _ _ _ _ _ _ _ _)

theorem subRrr (rd rs1 rs2 rs3 : RegNum) (op1 : Op1) (f : Bool) :
    Statement (.subRrr rd rs1 rs2 rs3 op1 f) := of_fields (encReg_op_mask _ _ _ _ _ _ _ _ _)

theorem subbRrr (rd rs1 rs2 rs3 : RegNum) (op1 : Op1) (f : Bool) :
    Statement (.subbRrr rd rs1 rs2 rs3 op1 f) := of_fields (encReg_op_mask _ _ _ _ _ _ _ _ _)

theorem andRrr (rd rs1 rs2 rs3 : RegNum) (op1 : Op1) (f : Bool) :
    Statement (.andRrr rd rs1 rs2 rs3 op1 f) := of_fields (encReg_op_mask _ _ _ _ _ _ _ _ _)

theorem orRrr (rd rs1 rs2 rs3 : RegNum) (op1 : Op1) (f : Bool) :
    Statement (.orRrr rd rs1 rs2 rs3 op1 f) := of_fields (encReg_op_mask _ _ _ _ _ _ _ _ _)

theorem xorRrr (rd rs1 rs2 rs3 : RegNum) (op1 : Op1) (f : Bool) :
    Statement (.xorRrr rd rs1 rs2 rs3 op1 f) := of_fields (encReg_op_mask _ _ _ _ _ _ _ _ _)

theorem shRrr (rd rs1 rs2 rs3 : RegNum) (op1 : Op1) (f : Bool) :
    Statement (.shRrr rd rs1 rs2 rs3 op1 f) := of_fields (encReg_rrr_shift_mask _ _ _ _ _ _ _ _ _)

theorem shaRrr (rd rs1 rs2 rs3 : RegNum) (op1 : Op1) (f : Bool) :
    Statement (.shaRrr rd rs1 rs2 rs3 op1 f) := of_fields (encReg_rrr_shift_mask _ _ _ _ _ _ _ _ _)

theorem ldRm (rd rs1 : RegNum) (p q : Bool) (k : BitVec 16) :
    Statement (.ldRm rd rs1 p q k) := of_fields (encConst_rm_mask _ _ _ _ _ _)

theorem stRm (rd rs1 : RegNum) (p q : Bool) (k : BitVec 16) :
    Statement (.stRm rd rs1 p q k) := of_fields (encConst_rm_mask _ _ _ _ _ _)

theorem ldRrmAdd (rd rs1 rs2 : RegNum) (p q : Bool) (t : LoadType) :
    Statement (.ldRrmAdd rd rs1 rs2 p q t) := of_fields (encReg_op_mask _ _ _ _ _ _ _ _ _)

theorem ldRrmAddc (rd rs1 rs2 : RegNum) (p q : Bool) (t : LoadType) :
    Statement (.ldRrmAddc rd rs1 rs2 p q t) := of_fields (encReg_op_mask _ _ _ _ _ _ _ _ _)

theorem ldRrmSub (rd rs1 rs2 : RegNum) (p q : Bool) (t : LoadType) :
    Statement (.ldRrmSub rd rs1 rs2 p q t) := of_fields (encReg_op_mask _ _ _ _ _ _ _ _ _)

theorem ldRrmSubb (rd rs1 rs2 : RegNum) (p q : Bool) (t : LoadType) :
    Statement (.ldRrmSubb rd rs1 rs2 p q t) := of_fields (encReg_op_mask _ _ _ _ _ _ _ _ _)

theorem ldRrmAnd (rd rs1 rs2 : RegNum) (p q : Bool) (t : LoadType) :
    Statement (.ldRrmAnd rd rs1 rs2 p q t) := of_fields (encReg_op_mask _ _ _ _ _ _ _ _ _)

theorem ldRrmOr (rd rs1 rs2 : RegNum) (p q : Bool) (t : LoadType) :
    Statement (.ldRrmOr rd rs1 rs2 p q t) := of_fields (encReg_op_mask _ _ _ _ _ _ _ _ _)

theorem ldRrmXor (rd rs1 rs2 : RegNum) (p q : Bool) (t : LoadType) :
    Statement (.ldRrmXor rd rs1 rs2 p q t) := of_fields (encReg_op_mask _ _ _ _ _ _ _ _ _)

theorem ldRrmSh (rd rs1 rs2 : RegNum) (p q : Bool) :
    Statement (.ldRrmSh rd rs1 rs2 p q) := of_fields (encReg_rrm_shift_mask _ _ _ _ _ _ _ _ _)

theorem ldRrmSha (rd rs1 rs2 : RegNum) (p q : Bool) :
    Statement (.ldRrmSha rd rs1 rs2 p q) := of_fields (encReg_rrm_shift_mask _ _ _ _ _ _ _ _ _)

theorem stRrmAdd (rd rs1 rs2 : RegNum) (p q : Bool) (t : StoreType) :
    Statement (.stRrmAdd rd rs1 rs2 p q t) := of_fields (encReg_op_mask _ _ _ _ _ _ _ _ _)

theorem stRrmAddc (rd rs1 rs2 : RegNum) (p q : Bool) (t : StoreType) :
    Statement (.stRrmAddc rd rs1 rs2 p q t) := of_fields (encReg_op_mask _ _ _ _ _ _ _ _ _)

theorem stRrmSub (rd rs1 rs2 : RegNum) (p q : Bool) (t : StoreType) :
    Statement (.stRrmSub rd rs1 rs2 p q t) := of_fields (encReg_op_mask _ _ _ _ _ _ _ _ _)

theorem stRrmSubb (rd rs1 rs2 : RegNum) (p q : Bool) (t : StoreType) :
    Statement (.stRrmSubb rd rs1 rs2 p q t) := of_fields (encReg_op_mask _ _ _ _ _ _ _ _ _)

theorem stRrmAnd (rd rs1 rs2 : RegNum) (p q : Bool) (t : StoreType) :
    Statement (.stRrmAnd rd rs1 rs2 p q t) := of_fields (encReg_op_mask _ _ _ _ _ _ _ _ _)

theorem stRrmOr (rd rs1 rs2 : RegNum) (p q : Bool) (t : StoreType) :
    Statement (.stRrmOr rd rs1 rs2 p q t) := of_fields (encReg_op_mask _ _ _ _ _ _ _ _ _)

theorem stRrmXor (rd rs1 rs2 : RegNum) (p q : Bool) (t : StoreType) :
    Statement (.stRrmXor rd rs1 rs2 p q t) := of_fields (encReg_op_mask _ _ _ _ _ _ _ _ _)

theorem stRrmSh (rd rs1 rs2 : RegNum) (p q : Bool) :
    Statement (.stRrmSh rd rs1 rs2 p q) := of_fields (encReg_rrm_shift_mask _ _ _ _ _ _ _ _ _)

theorem stRrmSha (rd rs1 rs2 : RegNum) (p q : Bool) :
    Statement (.stRrmSha rd rs1 rs2 p q) := of_fields (encReg_rrm_shift_mask _ _ _ _ _ _ _ _ _)

theorem brAbs (cond : Cond) (k : BitVec 23) :
    Statement (.brAbs cond k) := of_fields (encBr_mask _ _ _)

theorem brRel (cond : Cond) (k : BitVec 23) :
    Statement (.brRel cond k) := of_fields (encBr_mask _ _ _)

theorem punt : Statement .punt := of_fields rfl

theorem ldSls (rd : RegNum) (addr : BitVec 21) :
    Statement (.ldSls rd addr) := of_fields (encConst_sls_mask _ _ _ _ _ _)

theorem stSls (rd : RegNum) (addr : BitVec 21) :
    Statement (.stSls rd addr) := of_fields (encConst_sls_mask _ _ _ _ _ _)

theorem sli (rd : RegNum) (k : BitVec 21) :
    Statement (.sli rd k) := of_fields (encConst_sls_mask _ _ _ _ _ _)

theorem ldhSpls (rd rs1 : RegNum) (e p q : Bool) (k : BitVec 10) :
    Statement (.ldhSpls rd rs1 e p q k) := of_fields (encSpls_mask _ _ _ _ _ _ _ _)

theorem ldbSpls (rd rs1 : RegNum) (e p q : Bool) (k : BitVec 10) :
    Statement (.ldbSpls rd rs1 e p q k) := of_fields (encSpls_mask _ _ _ _ _ _ _ _)

theorem sthSpls (rd rs1 : RegNum) (p q : Bool) (k : BitVec 10) :
    Statement (.sthSpls rd rs1 p q k) := of_fields (encSpls_mask _ _ _ _ _ _ _ _)

theorem stbSpls (rd rs1 : RegNum) (p q : Bool) (k : BitVec 10) :
    Statement (.stbSpls rd rs1 p q k) := of_fields (encSpls_mask _ _ _ _ _ _ _ _)

theorem sbr (cond : Cond) (rs1 rs3 : RegNum) :
    Statement (.sbr cond rs1 rs3) := of_fields (encSbr_mask _ _ _)

end EncodeMatchesRow

end Sys2Proof.Laws
end

