-- ==== Sys2Proof/Laws/Run.lean ====
section
/-! SUPPORT. What a step and a run can do: a completed step is a completed instruction, and a run ends in the first state that is
over (60_exceptions.md R369). -/

namespace Sys2Proof.Machine

/-- A step that has a next state completed an instruction (10_state.md R31). -/
theorem step_next {s t : State} (h : step s = .next t) : ∃ i, exec i s = .next t := by
  unfold step at h
  split at h
  · rename_i r _; cases r <;> cases h
  · split at h
    · cases h
    · exact ⟨_, h⟩

/-- No step writes the launch parameters (70_reset_and_hazards.md R392). -/
theorem step_cfg {s t : State} (h : step s = .next t) : t.cfg = s.cfg := by
  obtain ⟨i, hi⟩ := step_next h
  obtain ⟨e, -, -, rfl⟩ := exec_next hi
  rfl

theorem Steps.cfg {n : Nat} {s t : State} (h : Steps n s t) : t.cfg = s.cfg := by
  induction n generalizing s with
  | zero => cases h; rfl
  | succ n ih => obtain ⟨u, hu, h⟩ := h; exact (ih h).trans (step_cfg hu)

/-- So many steps lead to one state at most. -/
theorem Steps.unique {n : Nat} {s t u : State} (h : Steps n s t) (h' : Steps n s u) : t = u := by
  induction n generalizing s with
  | zero => exact h.trans h'.symm
  | succ n ih =>
    obtain ⟨v, hv, h⟩ := h
    obtain ⟨w, hw, h'⟩ := h'
    rw [hv] at hw; cases hw
    exact ih h h'

/-- Steps after steps. -/
theorem Steps.append {m n : Nat} {s t u : State} (h : Steps m s t) (h' : Steps n t u) : Steps (m + n) s u := by
  induction m generalizing s with
  | zero => cases h; rwa [Nat.zero_add]
  | succ m ih => obtain ⟨v, hv, h⟩ := h; rw [Nat.succ_add]; exact ⟨v, hv, ih h⟩

/-- A run that is over ends at once. -/
theorem State.runFrom_over {s : State} {fuel n : Nat} (h : s.over n = true) : s.runFrom fuel n = .ended s := by
  unfold runFrom; rw [if_pos h]

/-- A run that is not over and has no fuel left. -/
theorem State.runFrom_zero {s : State} {n : Nat} (h : s.over n = false) : s.runFrom 0 n = .running s := by
  unfold runFrom; rw [if_neg (by simp [h])]

/-- A run that is not over goes on with its next step. -/
theorem State.runFrom_succ {s : State} {fuel n : Nat} (h : s.over n = false) :
    s.runFrom (fuel + 1) n = match step s with
      | .next t => t.runFrom fuel (n + 1)
      | .fault r => .stopped (.fault r)
      | .refused r => .stopped (.refuse r) := by
  have hn : ¬ s.over n = true := by simp [h]
  exact if_neg hn

end Sys2Proof.Machine
end

