-- ==== Sys2Proof/Tests/Slice0.lean ====
section
/-! SUPPORT. Tests by `decide` and `rfl`: ill-formed terms, one decoded word for every constructor, small executions, and for every
statement of Certificates/Slice0/Obligations.lean that has hypotheses a state and operands that meet them. Words and expected
results are those of 95_test_vectors.md (vector numbers in the comments) unless a comment says otherwise. -/

namespace Sys2Proof.Tests

open Sys2Proof.Machine

/-! ### Helpers -/

/-- The data the vectors of 95_test_vectors.md start from: 16 bytes at 0x2000. -/
def dataMem : Memory :=
  [(0x2000, 0x11#8), (0x2001, 0x22#8), (0x2002, 0x33#8), (0x2003, 0x44#8),
   (0x2004, 0x80#8), (0x2005, 0x91#8), (0x2006, 0xA2#8), (0x2007, 0xB3#8),
   (0x2008, 0#8), (0x2009, 0#8), (0x200A, 0#8), (0x200B, 0#8), (0x200C, 0#8), (0x200D, 0#8), (0x200E, 0#8), (0x200F, 0#8)]

/-- The start of a vector: the instruction is fetched from 0x1000, registers as listed, flags ZNVC. -/
def start (rs : List RegWrite) (fl : Flags) : State :=
  { State.reset with
    regs := rs.foldl writeReg State.reset.regs, flags := fl, fa0 := 0x1000#32, fa1 := 0x1004#32, mem := dataMem }

/-- The four flags as the vectors write them. -/
def znvc (z n v c : Nat) : Flags := ⟨z == 1, n == 1, v == 1, c == 1⟩

/-- What `f` reads from the state after an instruction, if it completes. -/
def after {α : Type} (i : Instr) (s : State) (f : State → α) : Option α :=
  match exec i s with
  | .next t => some (f t)
  | _ => none

/-- What `f` reads from the state after a step, if it completes. -/
def afterStep {α : Type} (s : State) (f : State → α) : Option α :=
  match step s with
  | .next t => some (f t)
  | _ => none

/-- The refusal an instruction ends in, if it does. -/
def refusal (i : Instr) (s : State) : Option Refusal :=
  match exec i s with
  | .refused r => some r
  | _ => none

/-- The fault an instruction ends in, if it does. -/
def faultOf (i : Instr) (s : State) : Option Fault :=
  match exec i s with
  | .fault r => some r
  | _ => none

/-- The outcome is a next state. -/
def completes (o : Host.Outcome State Fault Refusal) : Bool :=
  match o with
  | .next _ => true
  | _ => false

theorem next_of_completes {o : Host.Outcome State Fault Refusal} (h : completes o = true) : ∃ t, o = .next t := by
  cases o with
  | next t => exact ⟨t, rfl⟩
  | fault r => cases h
  | refused r => cases h

theorem refused_of_refusal {i : Instr} {s : State} {r : Refusal} (h : refusal i s = some r) : exec i s = .refused r := by
  unfold refusal at h
  cases hx : exec i s with
  | next t => rw [hx] at h; cases h
  | fault f => rw [hx] at h; cases h
  | refused q => rw [hx] at h; cases h; rfl

theorem fault_of_faultOf {i : Instr} {s : State} {r : Fault} (h : faultOf i s = some r) : exec i s = .fault r := by
  unfold faultOf at h
  cases hx : exec i s with
  | next t => rw [hx] at h; cases h
  | refused q => rw [hx] at h; cases h
  | fault f => rw [hx] at h; cases h; rfl

/-! ### WellFormed: an ill-formed term for each check, and a well-formed neighbour -/

theorem test_wellFormed_refuses_isr_source : (Instr.addRi 10 31 false false 0#16).avoidsIsr = false := by decide
theorem test_wellFormed_refuses_isr_destination : (Instr.sli 31 0#21).wellFormed = false := by decide
theorem test_wellFormed_refuses_isr_in_branch : (Instr.sbr .t 11 31).wellFormed = false := by decide
theorem test_wellFormed_refuses_rd_pc : (Instr.addRrr 2 11 12 13 .add false).rdAllowed = false := by decide
theorem test_wellFormed_refuses_rd_isr : (Instr.stRm 31 11 true false 0#16).rdAllowed = false := by decide
theorem test_wellFormed_refuses_base_pc : (Instr.ldRm 10 2 false true 4#16).baseAllowed = false := by decide
theorem test_wellFormed_refuses_unused_constant : (Instr.ldRm 10 11 false false 1#16).wellFormed = false := by decide
theorem test_wellFormed_refuses_unused_address_bits : (Instr.stSls 10 0x2001#21).wellFormed = false := by decide
theorem test_wellFormed_refuses_unused_operation : (Instr.ldRrmSub 10 11 0 false false .w).wellFormed = false := by decide
theorem test_wellFormed_allows_plain_pc_base : (Instr.ldRm 10 2 true false 4#16).wellFormed = true := by decide
theorem test_wellFormed_allows_jump : (Instr.addRi 2 11 false false 0#16).wellFormed = true := by decide

/-! ### Decoding: a word of every constructor, and words that are no instruction -/

/-- T31 -/
theorem test_decode_addRi : decodeWord 0x052E0001#32 = .ok (.addRi 10 11 true false 1#16) := rfl
/-- T36 -/
theorem test_decode_addcRi : decodeWord 0x152E0005#32 = .ok (.addcRi 10 11 true false 5#16) := rfl
/-- T43 -/
theorem test_decode_subRi : decodeWord 0x252F8000#32 = .ok (.subRi 10 11 true true 0x8000#16) := rfl
/-- T47 -/
theorem test_decode_subbRi : decodeWord 0x352E0003#32 = .ok (.subbRi 10 11 true false 3#16) := rfl
/-- T51 -/
theorem test_decode_andRi : decodeWord 0x452D00FF#32 = .ok (.andRi 10 11 false true 0xFF#16) := rfl
/-- T55 -/
theorem test_decode_orRi : decodeWord 0x552CF0F0#32 = .ok (.orRi 10 11 false false 0xF0F0#16) := rfl
/-- T57 -/
theorem test_decode_xorRi : decodeWord 0x652DFFFF#32 = .ok (.xorRi 10 11 false true 0xFFFF#16) := rfl
/-- T65 -/
theorem test_decode_shRi : decodeWord 0x752CFFE1#32 = .ok (.shRi 10 11 false 0xFFE1#16) := rfl
/-- T68 -/
theorem test_decode_shaRi : decodeWord 0x752FFFFC#32 = .ok (.shaRi 10 11 true 0xFFFC#16) := rfl
/-- T101: JJJJJ is ignored -/
theorem test_decode_addRr : decodeWord 0xC52C60F8#32 = .ok (.addRr 10 11 12 false) := rfl
/-- T83 -/
theorem test_decode_addcRr : decodeWord 0xC52E6100#32 = .ok (.addcRr 10 11 12 true) := rfl
/-- T84 -/
theorem test_decode_subRr : decodeWord 0xC52E6200#32 = .ok (.subRr 10 11 12 true) := rfl
/-- T89 -/
theorem test_decode_subbRr : decodeWord 0xC52E6300#32 = .ok (.subbRr 10 11 12 true) := rfl
/-- T91 -/
theorem test_decode_andRr : decodeWord 0xC52E6400#32 = .ok (.andRr 10 11 12 true) := rfl
/-- T92 -/
theorem test_decode_orRr : decodeWord 0xC52E6500#32 = .ok (.orRr 10 11 12 true) := rfl
/-- T93 -/
theorem test_decode_xorRr : decodeWord 0xC52E5E00#32 = .ok (.xorRr 10 11 11 true) := rfl
/-- T97 -/
theorem test_decode_shRr : decodeWord 0xC52C6780#32 = .ok (.shRr 10 11 12 false) := rfl
/-- T96 -/
theorem test_decode_shaRr : decodeWord 0xC52E67C0#32 = .ok (.shaRr 10 11 12 true) := rfl
/-- T111 -/
theorem test_decode_addRrr : decodeWord 0xD52E606F#32 = .ok (.addRrr 10 11 12 13 .sha true) := rfl
/-- T116 -/
theorem test_decode_addcRrr : decodeWord 0xD52E6169#32 = .ok (.addcRrr 10 11 12 13 .addc true) := rfl
/-- T112 -/
theorem test_decode_subRrr : decodeWord 0xD52E626C#32 = .ok (.subRrr 10 11 12 13 .and true) := rfl
/-- T121 -/
theorem test_decode_subbRrr : decodeWord 0xD52C6368#32 = .ok (.subbRrr 10 11 12 13 .add false) := rfl
/-- T113 -/
theorem test_decode_andRrr : decodeWord 0xD52E646D#32 = .ok (.andRrr 10 11 12 13 .or true) := rfl
/-- T120 -/
theorem test_decode_orRrr : decodeWord 0xD52C656B#32 = .ok (.orRrr 10 11 12 13 .subb false) := rfl
/-- T119 -/
theorem test_decode_xorRrr : decodeWord 0xD52C666E#32 = .ok (.xorRrr 10 11 12 13 .xor false) := rfl
/-- T114 -/
theorem test_decode_shRrr : decodeWord 0xD52E676A#32 = .ok (.shRrr 10 11 12 13 .sub true) := rfl
/-- T115 -/
theorem test_decode_shaRrr : decodeWord 0xD52F676A#32 = .ok (.shaRrr 10 11 12 13 .sub true) := rfl
/-- T132 -/
theorem test_decode_ldRm : decodeWord 0x852EFFFC#32 = .ok (.ldRm 10 11 true false 0xFFFC#16) := rfl
/-- T137 -/
theorem test_decode_stRm : decodeWord 0x952FFFFC#32 = .ok (.stRm 10 11 true true 0xFFFC#16) := rfl
/-- T166 -/
theorem test_decode_ldRrmAdd : decodeWord 0xA52D6004#32 = .ok (.ldRrmAdd 10 11 12 false true .b) := rfl
/-- T168 -/
theorem test_decode_ldRrmAddc : decodeWord 0xA52E6102#32 = .ok (.ldRrmAddc 10 11 12 true false .w) := rfl
/-- T167 -/
theorem test_decode_ldRrmSub : decodeWord 0xA52F6202#32 = .ok (.ldRrmSub 10 11 12 true true .w) := rfl
/-- T169 -/
theorem test_decode_ldRrmSubb : decodeWord 0xA52E6302#32 = .ok (.ldRrmSubb 10 11 12 true false .w) := rfl
/-- T170 -/
theorem test_decode_ldRrmAnd : decodeWord 0xA52E6402#32 = .ok (.ldRrmAnd 10 11 12 true false .w) := rfl
/-- T171 -/
theorem test_decode_ldRrmOr : decodeWord 0xA52E6502#32 = .ok (.ldRrmOr 10 11 12 true false .w) := rfl
/-- T172 -/
theorem test_decode_ldRrmXor : decodeWord 0xA52E6602#32 = .ok (.ldRrmXor 10 11 12 true false .w) := rfl
/-- T178: YLE is ignored -/
theorem test_decode_ldRrmSh : decodeWord 0xA52E6784#32 = .ok (.ldRrmSh 10 11 12 true false) := rfl
/-- T174 -/
theorem test_decode_ldRrmSha : decodeWord 0xA52E67C2#32 = .ok (.ldRrmSha 10 11 12 true false) := rfl
/-- T196: E is ignored -/
theorem test_decode_stRrmAdd : decodeWord 0xB52E6003#32 = .ok (.stRrmAdd 10 11 12 true false .w) := rfl
/-- T186 -/
theorem test_decode_stRrmAddc : decodeWord 0xB52E6102#32 = .ok (.stRrmAddc 10 11 12 true false .w) := rfl
/-- T187 -/
theorem test_decode_stRrmSub : decodeWord 0xB52D6200#32 = .ok (.stRrmSub 10 11 12 false true .h) := rfl
/-- T188 -/
theorem test_decode_stRrmSubb : decodeWord 0xB52E6304#32 = .ok (.stRrmSubb 10 11 12 true false .b) := rfl
/-- T189 -/
theorem test_decode_stRrmAnd : decodeWord 0xB52E6402#32 = .ok (.stRrmAnd 10 11 12 true false .w) := rfl
/-- T190 -/
theorem test_decode_stRrmOr : decodeWord 0xB52F6500#32 = .ok (.stRrmOr 10 11 12 true true .h) := rfl
/-- T191 -/
theorem test_decode_stRrmXor : decodeWord 0xB52E6604#32 = .ok (.stRrmXor 10 11 12 true false .b) := rfl
/-- T195 -/
theorem test_decode_stRrmSh : decodeWord 0xB52C6782#32 = .ok (.stRrmSh 10 11 12 false false) := rfl
/-- T193 -/
theorem test_decode_stRrmSha : decodeWord 0xB52F67C2#32 = .ok (.stRrmSha 10 11 12 true true) := rfl
/-- T208 -/
theorem test_decode_brAbs : decodeWord 0xEC003001#32 = .ok (.brAbs .lt 0xC00#23) := rfl
/-- T203 -/
theorem test_decode_brRel : decodeWord 0xE1FFFFEE#32 = .ok (.brRel .t 0x7FFFFB#23) := rfl
/-- T250 -/
theorem test_decode_punt : decodeWord 0xF003FF47#32 = .ok .punt := rfl
/-- T233 -/
theorem test_decode_ldSls : decodeWord 0xF57C2004#32 = .ok (.ldSls 10 0x1F2004#21) := rfl
/-- T234 -/
theorem test_decode_stSls : decodeWord 0xF57DFFFC#32 = .ok (.stSls 10 0x1FFFFC#21) := rfl
/-- T235 -/
theorem test_decode_sli : decodeWord 0xF57EFFFF#32 = .ok (.sli 10 0x1FFFFF#21) := rfl
/-- T241 -/
theorem test_decode_ldhSpls : decodeWord 0xF52F1804#32 = .ok (.ldhSpls 10 11 true true false 4#10) := rfl
/-- T242 -/
theorem test_decode_ldbSpls : decodeWord 0xF52F4BFF#32 = .ok (.ldbSpls 10 11 false true false 0x3FF#10) := rfl
/-- T245 -/
theorem test_decode_sthSpls : decodeWord 0xF52F2808#32 = .ok (.sthSpls 10 11 true false 8#10) := rfl
/-- T246 -/
theorem test_decode_stbSpls : decodeWord 0xF52F6C0B#32 = .ok (.stbSpls 10 11 true true 11#10) := rfl
/-- T221 -/
theorem test_decode_sbr : decodeWord 0xF62FC060#32 = .ok (.sbr .ne 11 12) := rfl

/-- T100 -/
theorem test_decode_refuses_reserved_special : decodeWord 0xC52C6708#32 = .error .reservedSpecial := rfl
/-- T102 -/
theorem test_decode_refuses_reserved_bit_rr : decodeWord 0xC52D6000#32 = .error .reservedBit := rfl
/-- T177 -/
theorem test_decode_refuses_width_eleven : decodeWord 0xA52E6006#32 = .error .reservedWidth := rfl
/-- T179 -/
theorem test_decode_refuses_reserved_bit_rrm : decodeWord 0xA52E678A#32 = .error .reservedBit := rfl
/-- T225 -/
theorem test_decode_refuses_sbr_bit_23 : decodeWord 0xF0AFC060#32 = .error .reservedBit := rfl
/-- T226 -/
theorem test_decode_refuses_sbr_bit_1 : decodeWord 0xF003C002#32 = .error .unassignedWord := rfl
/-- T251 -/
theorem test_decode_refuses_not_punt : decodeWord 0xF003FF40#32 = .error .unassignedWord := rfl
/-- T252 -/
theorem test_decode_refuses_punt_dash : decodeWord 0xF803FF47#32 = .error .reservedBit := rfl
/-- Hand-made: three bytes are no word. -/
theorem test_decode_refuses_truncated : decode .big [0#8, 0#8, 0#8] = .error .truncated := rfl
/-- Hand-made: little-endian bytes of T31's word (20_memory.md R62). -/
theorem test_decode_little : decode .little [0x01#8, 0x00#8, 0x2E#8, 0x05#8] = .ok (.addRi 10 11 true false 1#16, []) := rfl

/-! ### Execution -/

/-- T31 -/
theorem test_add_ri : after (.addRi 10 11 true false 1#16)
    (start [⟨11, 0x7FFFFFFF#32⟩] (znvc 0 0 0 0)) (fun t => (t.reg 10, t.flags)) = some (0x80000000#32, znvc 0 1 1 0) := by decide
/-- T33 -/
theorem test_add_ri_high : after (.addRi 10 11 false true 0x1234#16)
    (start [⟨11, 0x1#32⟩] (znvc 0 0 0 0)) (fun t => (t.reg 10, t.flags)) = some (0x12340001#32, znvc 0 0 0 0) := by decide
/-- T35 -/
theorem test_addc_ri : after (.addcRi 10 11 true false 0#16)
    (start [⟨11, 0xFFFFFFFF#32⟩] (znvc 0 0 0 1)) (fun t => (t.reg 10, t.flags)) = some (0x0#32, znvc 1 0 0 1) := by decide
/-- T41 -/
theorem test_sub_ri : after (.subRi 10 11 true false 6#16)
    (start [⟨11, 0x5#32⟩] (znvc 0 0 0 0)) (fun t => (t.reg 10, t.flags)) = some (0xFFFFFFFF#32, znvc 0 1 0 0) := by decide
/-- T47 -/
theorem test_subb_ri : after (.subbRi 10 11 true false 3#16)
    (start [⟨11, 0xA#32⟩] (znvc 0 0 0 0)) (fun t => (t.reg 10, t.flags)) = some (0x6#32, znvc 0 0 0 1) := by decide
/-- T50 -/
theorem test_and_ri : after (.andRi 10 11 true false 0xFF#16)
    (start [⟨11, 0x12345678#32⟩] (znvc 0 0 0 1)) (fun t => (t.reg 10, t.flags)) = some (0x12340078#32, znvc 0 0 0 0) := by decide
/-- T54 -/
theorem test_or_ri : after (.orRi 10 11 true true 0x8000#16)
    (start [⟨11, 0x1#32⟩] (znvc 0 0 0 1)) (fun t => (t.reg 10, t.flags)) = some (0x80000001#32, znvc 0 1 0 0) := by decide
/-- T56 -/
theorem test_xor_ri : after (.xorRi 10 11 true false 0xFFFF#16)
    (start [⟨11, 0xFFFF#32⟩] (znvc 0 0 1 1)) (fun t => (t.reg 10, t.flags)) = some (0x0#32, znvc 1 0 0 0) := by decide
/-- T60 -/
theorem test_sh_ri_left : after (.shRi 10 11 true 4#16)
    (start [⟨11, 0xF0000001#32⟩] (znvc 0 0 0 0)) (fun t => (t.reg 10, t.flags)) = some (0x10#32, znvc 0 0 0 1) := by decide
/-- T64 -/
theorem test_sh_ri_right : after (.shRi 10 11 true 0xFFFC#16)
    (start [⟨11, 0xF0000001#32⟩] (znvc 0 0 0 1)) (fun t => (t.reg 10, t.flags)) = some (0x0F000000#32, znvc 0 0 0 0) := by decide
/-- T68 -/
theorem test_sha_ri : after (.shaRi 10 11 true 0xFFFC#16)
    (start [⟨11, 0xF0000001#32⟩] (znvc 0 0 0 0)) (fun t => (t.reg 10, t.flags)) = some (0xFF000000#32, znvc 0 1 0 0) := by decide
/-- T82 -/
theorem test_add_rr : after (.addRr 10 11 12 true)
    (start [⟨11, 0x80000000#32⟩, ⟨12, 0x80000000#32⟩] (znvc 0 0 0 0)) (fun t => (t.reg 10, t.flags)) = some (0x0#32, znvc 1 0 1 1) := by decide
/-- T83 -/
theorem test_addc_rr : after (.addcRr 10 11 12 true)
    (start [⟨11, 0xFFFFFFFF#32⟩, ⟨12, 0x0#32⟩] (znvc 0 0 0 1)) (fun t => (t.reg 10, t.flags)) = some (0x0#32, znvc 1 0 0 1) := by decide
/-- T87 -/
theorem test_sub_rr : after (.subRr 10 11 12 true)
    (start [⟨11, 0x7FFFFFFF#32⟩, ⟨12, 0xFFFFFFFF#32⟩] (znvc 0 0 0 0)) (fun t => (t.reg 10, t.flags)) = some (0x80000000#32, znvc 0 1 1 0) := by decide
/-- T89 -/
theorem test_subb_rr : after (.subbRr 10 11 12 true)
    (start [⟨11, 0x5#32⟩, ⟨12, 0x3#32⟩] (znvc 0 0 0 0)) (fun t => (t.reg 10, t.flags)) = some (0x1#32, znvc 0 0 0 1) := by decide
/-- T91 -/
theorem test_and_rr : after (.andRr 10 11 12 true)
    (start [⟨11, 0xFF00FF00#32⟩, ⟨12, 0x0FF00FF0#32⟩] (znvc 0 0 0 1)) (fun t => (t.reg 10, t.flags)) = some (0x0F000F00#32, znvc 0 0 0 1) := by decide
/-- T92 -/
theorem test_or_rr : after (.orRr 10 11 12 true)
    (start [⟨11, 0x80000000#32⟩, ⟨12, 0x1#32⟩] (znvc 0 0 0 1)) (fun t => (t.reg 10, t.flags)) = some (0x80000001#32, znvc 0 1 0 1) := by decide
/-- T93 -/
theorem test_xor_rr : after (.xorRr 10 11 11 true)
    (start [⟨11, 0x5#32⟩] (znvc 0 1 1 1)) (fun t => (t.reg 10, t.flags)) = some (0x0#32, znvc 1 0 0 1) := by decide
/-- T94 -/
theorem test_sh_rr_left : after (.shRr 10 11 12 true)
    (start [⟨11, 0x01234567#32⟩, ⟨12, 0x8#32⟩] (znvc 0 0 0 0)) (fun t => (t.reg 10, t.flags)) = some (0x23456700#32, znvc 0 0 0 1) := by decide
/-- T95 -/
theorem test_sh_rr_right : after (.shRr 10 11 12 true)
    (start [⟨11, 0x81234567#32⟩, ⟨12, 0xFFFFFFF8#32⟩] (znvc 0 0 0 1)) (fun t => (t.reg 10, t.flags)) = some (0x00812345#32, znvc 0 0 0 0) := by decide
/-- T96 -/
theorem test_sha_rr : after (.shaRr 10 11 12 true)
    (start [⟨11, 0x81234567#32⟩, ⟨12, 0xFFFFFFF8#32⟩] (znvc 0 0 0 1)) (fun t => (t.reg 10, t.flags)) = some (0xFF812345#32, znvc 0 1 0 0) := by decide
/-- T111 -/
theorem test_add_rrr : after (.addRrr 10 11 12 13 .sha true)
    (start [⟨11, 0x1#32⟩, ⟨12, 0x3#32⟩, ⟨13, 0x4#32⟩] (znvc 0 0 0 0)) (fun t => (t.reg 10, t.flags)) = some (0x31#32, znvc 0 0 0 0) := by decide
/-- T116 -/
theorem test_addc_rrr : after (.addcRrr 10 11 12 13 .addc true)
    (start [⟨11, 0x1#32⟩, ⟨12, 0xFFFFFFFF#32⟩, ⟨13, 0x0#32⟩] (znvc 0 0 0 1)) (fun t => (t.reg 10, t.flags)) = some (0x2#32, znvc 0 0 0 0) := by decide
/-- T112 -/
theorem test_sub_rrr : after (.subRrr 10 11 12 13 .and true)
    (start [⟨11, 0x10#32⟩, ⟨12, 0xFF#32⟩, ⟨13, 0x11#32⟩] (znvc 0 0 0 0)) (fun t => (t.reg 10, t.flags)) = some (0xFFFFFFFF#32, znvc 0 1 0 0) := by decide
/-- T121 -/
theorem test_subb_rrr : after (.subbRrr 10 11 12 13 .add false)
    (start [⟨11, 0x10#32⟩, ⟨12, 0x2#32⟩, ⟨13, 0x3#32⟩] (znvc 0 0 0 1)) (fun t => (t.reg 10, t.flags)) = some (0xB#32, znvc 0 0 0 1) := by decide
/-- T113: C is free (R146, D12), so it is not looked at. -/
theorem test_and_rrr : after (.andRrr 10 11 12 13 .or true)
    (start [⟨11, 0xF0#32⟩, ⟨12, 0x30#32⟩, ⟨13, 0x0C#32⟩] (znvc 0 0 0 1)) (fun t => (t.reg 10, t.flags.z, t.flags.n, t.flags.v, t.draws))
    = some (0x30#32, false, false, false, 1) := by decide
/-- T120 -/
theorem test_or_rrr : after (.orRrr 10 11 12 13 .subb false)
    (start [⟨11, 0x100#32⟩, ⟨12, 0x9#32⟩, ⟨13, 0x4#32⟩] (znvc 0 0 0 0)) (fun t => (t.reg 10, t.flags)) = some (0x104#32, znvc 0 0 0 0) := by decide
/-- T119 -/
theorem test_xor_rrr : after (.xorRrr 10 11 12 13 .xor false)
    (start [⟨11, 0xFFFF0000#32⟩, ⟨12, 0x00FF00FF#32⟩, ⟨13, 0x0F0F0F0F#32⟩] (znvc 0 0 0 0)) (fun t => (t.reg 10, t.flags)) = some (0xF00F0FF0#32, znvc 0 0 0 0) := by decide
/-- T114 -/
theorem test_sh_rrr : after (.shRrr 10 11 12 13 .sub true)
    (start [⟨11, 0xC0000001#32⟩, ⟨12, 0x5#32⟩, ⟨13, 0x3#32⟩] (znvc 0 0 0 0)) (fun t => (t.reg 10, t.flags)) = some (0x4#32, znvc 0 0 0 1) := by decide
/-- T115 -/
theorem test_sha_rrr : after (.shaRrr 10 11 12 13 .sub true)
    (start [⟨11, 0xC0000001#32⟩, ⟨12, 0x3#32⟩, ⟨13, 0x5#32⟩] (znvc 0 0 0 0)) (fun t => (t.reg 10, t.flags)) = some (0xF0000000#32, znvc 0 1 0 0) := by decide
/-- T134 -/
theorem test_ld_rm : after (.ldRm 10 11 true true 4#16)
    (start [⟨11, 0x2000#32⟩] (znvc 0 0 0 0)) (fun t => (t.late, t.reg 11)) = some (some ⟨10, 0x8091A2B3#32⟩, 0x2004#32) := by decide
/-- T139 -/
theorem test_ld_rm_misaligned : refusal (.ldRm 10 11 true false 2#16) (start [⟨11, 0x2000#32⟩] (znvc 0 0 0 0)) = some .misaligned := by decide
/-- T138 -/
theorem test_st_rm : after (.stRm 11 11 false true 4#16)
    (start [⟨11, 0x2008#32⟩] (znvc 0 0 0 0))
    (fun t => ((t.mem.drop 8).map Prod.snd, t.reg 11)) = some ([0x00#8, 0x00#8, 0x20#8, 0x08#8, 0x00#8, 0x00#8, 0x00#8, 0x00#8], 0x200C#32) := by decide
/-- T166 -/
theorem test_ld_rrm_add : after (.ldRrmAdd 10 11 12 false true .b)
    (start [⟨11, 0x2003#32⟩, ⟨12, 0x1#32⟩] (znvc 0 0 0 0)) (fun t => (t.late, t.reg 11)) = some (some ⟨10, 0x44#32⟩, 0x2004#32) := by decide
/-- T161 -/
theorem test_ld_rrm_add_sign : after (.ldRrmAdd 10 11 12 true false .h)
    (start [⟨11, 0x2000#32⟩, ⟨12, 0x4#32⟩] (znvc 0 0 0 0)) (fun t => (t.late, t.reg 11)) = some (some ⟨10, 0xFFFF8091#32⟩, 0x2000#32) := by decide
/-- T168 -/
theorem test_ld_rrm_addc : after (.ldRrmAddc 10 11 12 true false .w)
    (start [⟨11, 0x2000#32⟩, ⟨12, 0x3#32⟩] (znvc 0 0 0 1)) (fun t => (t.late, t.reg 11)) = some (some ⟨10, 0x8091A2B3#32⟩, 0x2000#32) := by decide
/-- T167 -/
theorem test_ld_rrm_sub : after (.ldRrmSub 10 11 12 true true .w)
    (start [⟨11, 0x2008#32⟩, ⟨12, 0x4#32⟩] (znvc 0 0 0 0)) (fun t => (t.late, t.reg 11)) = some (some ⟨10, 0x8091A2B3#32⟩, 0x2004#32) := by decide
/-- T169 -/
theorem test_ld_rrm_subb : after (.ldRrmSubb 10 11 12 true false .w)
    (start [⟨11, 0x2008#32⟩, ⟨12, 0x3#32⟩] (znvc 0 0 0 0)) (fun t => (t.late, t.reg 11)) = some (some ⟨10, 0x8091A2B3#32⟩, 0x2008#32) := by decide
/-- T170 -/
theorem test_ld_rrm_and : after (.ldRrmAnd 10 11 12 true false .w)
    (start [⟨11, 0x2007#32⟩, ⟨12, 0xFFFFFFFC#32⟩] (znvc 0 0 0 0)) (fun t => (t.late, t.reg 11)) = some (some ⟨10, 0x8091A2B3#32⟩, 0x2007#32) := by decide
/-- T171 -/
theorem test_ld_rrm_or : after (.ldRrmOr 10 11 12 true false .w)
    (start [⟨11, 0x2000#32⟩, ⟨12, 0x4#32⟩] (znvc 0 0 0 0)) (fun t => (t.late, t.reg 11)) = some (some ⟨10, 0x8091A2B3#32⟩, 0x2000#32) := by decide
/-- T172 -/
theorem test_ld_rrm_xor : after (.ldRrmXor 10 11 12 true false .w)
    (start [⟨11, 0x2000#32⟩, ⟨12, 0x4#32⟩] (znvc 0 0 0 0)) (fun t => (t.late, t.reg 11)) = some (some ⟨10, 0x8091A2B3#32⟩, 0x2000#32) := by decide
/-- T173 -/
theorem test_ld_rrm_sh : after (.ldRrmSh 10 11 12 true false)
    (start [⟨11, 0x801#32⟩, ⟨12, 0x2#32⟩] (znvc 0 0 0 0)) (fun t => (t.late, t.reg 11)) = some (some ⟨10, 0x8091A2B3#32⟩, 0x801#32) := by decide
/-- T174 -/
theorem test_ld_rrm_sha : after (.ldRrmSha 10 11 12 true false)
    (start [⟨11, 0x8010#32⟩, ⟨12, 0xFFFFFFFE#32⟩] (znvc 0 0 0 0)) (fun t => (t.late, t.reg 11)) = some (some ⟨10, 0x8091A2B3#32⟩, 0x8010#32) := by decide
/-- T185 -/
theorem test_st_rrm_add : after (.stRrmAdd 10 11 12 true false .w)
    (start [⟨10, 0x01020304#32⟩, ⟨11, 0x2000#32⟩, ⟨12, 0x8#32⟩] (znvc 0 0 0 0))
    (fun t => ((t.mem.drop 8).map Prod.snd, t.reg 11)) = some ([0x01#8, 0x02#8, 0x03#8, 0x04#8, 0x00#8, 0x00#8, 0x00#8, 0x00#8], 0x2000#32) := by decide
/-- T186 -/
theorem test_st_rrm_addc : after (.stRrmAddc 10 11 12 true false .w)
    (start [⟨10, 0x01020304#32⟩, ⟨11, 0x2000#32⟩, ⟨12, 0x7#32⟩] (znvc 0 0 0 1))
    (fun t => ((t.mem.drop 8).map Prod.snd, t.reg 11)) = some ([0x01#8, 0x02#8, 0x03#8, 0x04#8, 0x00#8, 0x00#8, 0x00#8, 0x00#8], 0x2000#32) := by decide
/-- T187 -/
theorem test_st_rrm_sub : after (.stRrmSub 10 11 12 false true .h)
    (start [⟨10, 0x01020304#32⟩, ⟨11, 0x200A#32⟩, ⟨12, 0x2#32⟩] (znvc 0 0 0 0))
    (fun t => ((t.mem.drop 8).map Prod.snd, t.reg 11)) = some ([0x00#8, 0x00#8, 0x03#8, 0x04#8, 0x00#8, 0x00#8, 0x00#8, 0x00#8], 0x2008#32) := by decide
/-- T188 -/
theorem test_st_rrm_subb : after (.stRrmSubb 10 11 12 true false .b)
    (start [⟨10, 0x01020304#32⟩, ⟨11, 0x2010#32⟩, ⟨12, 0x4#32⟩] (znvc 0 0 0 0))
    (fun t => ((t.mem.drop 8).map Prod.snd, t.reg 11)) = some ([0x00#8, 0x00#8, 0x00#8, 0x04#8, 0x00#8, 0x00#8, 0x00#8, 0x00#8], 0x2010#32) := by decide
/-- T189 -/
theorem test_st_rrm_and : after (.stRrmAnd 10 11 12 true false .w)
    (start [⟨10, 0x01020304#32⟩, ⟨11, 0x200F#32⟩, ⟨12, 0xFFFFFFFC#32⟩] (znvc 0 0 0 0))
    (fun t => ((t.mem.drop 8).map Prod.snd, t.reg 11)) = some ([0x00#8, 0x00#8, 0x00#8, 0x00#8, 0x01#8, 0x02#8, 0x03#8, 0x04#8], 0x200F#32) := by decide
/-- T190 -/
theorem test_st_rrm_or : after (.stRrmOr 10 11 12 true true .h)
    (start [⟨10, 0x01020304#32⟩, ⟨11, 0x2008#32⟩, ⟨12, 0x6#32⟩] (znvc 0 0 0 0))
    (fun t => ((t.mem.drop 8).map Prod.snd, t.reg 11)) = some ([0x00#8, 0x00#8, 0x00#8, 0x00#8, 0x00#8, 0x00#8, 0x03#8, 0x04#8], 0x200E#32) := by decide
/-- T191 -/
theorem test_st_rrm_xor : after (.stRrmXor 10 11 12 true false .b)
    (start [⟨10, 0x01020304#32⟩, ⟨11, 0x200F#32⟩, ⟨12, 0x4#32⟩] (znvc 0 0 0 0))
    (fun t => ((t.mem.drop 8).map Prod.snd, t.reg 11)) = some ([0x00#8, 0x00#8, 0x00#8, 0x04#8, 0x00#8, 0x00#8, 0x00#8, 0x00#8], 0x200F#32) := by decide
/-- T194 -/
theorem test_st_rrm_sh_range : refusal (.stRrmSh 10 11 12 true false) (start [⟨10, 0x01020304#32⟩, ⟨11, 0x803#32⟩, ⟨12, 0x20#32⟩] (znvc 0 0 0 0)) = some .shiftRange := by decide
/-- T195 -/
theorem test_st_rrm_sh_not_performed : after (.stRrmSh 10 11 12 false false)
    (start [⟨10, 0x01020304#32⟩, ⟨11, 0x2008#32⟩, ⟨12, 0x20#32⟩] (znvc 0 0 0 0))
    (fun t => ((t.mem.drop 8).map Prod.snd, t.reg 11)) = some ([0x01#8, 0x02#8, 0x03#8, 0x04#8, 0x00#8, 0x00#8, 0x00#8, 0x00#8], 0x2008#32) := by decide
/-- T193 -/
theorem test_st_rrm_sha : after (.stRrmSha 10 11 12 true true)
    (start [⟨10, 0x01020304#32⟩, ⟨11, 0x8030#32⟩, ⟨12, 0xFFFFFFFE#32⟩] (znvc 0 0 0 0))
    (fun t => ((t.mem.drop 8).map Prod.snd, t.reg 11)) = some ([0x00#8, 0x00#8, 0x00#8, 0x00#8, 0x01#8, 0x02#8, 0x03#8, 0x04#8], 0x200C#32) := by decide
/-- T210 -/
theorem test_br_abs_taken : after (.brAbs .gt 0xC00#23) (start [] (znvc 0 1 1 0)) (fun t => (t.fa0, t.fa1)) = some (0x1004#32, 0x3000#32) := by decide
/-- T209 -/
theorem test_br_abs_not_taken : after (.brAbs .lt 0xC00#23) (start [] (znvc 0 1 1 0)) (fun t => (t.fa0, t.fa1)) = some (0x1004#32, 0x1008#32) := by decide
/-- T203 -/
theorem test_br_rel : after (.brRel .t 0x7FFFFB#23) (start [] (znvc 0 0 0 0)) (fun t => (t.fa0, t.fa1)) = some (0x1004#32, 0x0FF0#32) := by decide
/-- T220 -/
theorem test_sbr_taken : after (.sbr .t 11 12) (start [⟨11, 0x2F00#32⟩, ⟨12, 0x100#32⟩] (znvc 0 0 0 0)) (fun t => (t.fa0, t.fa1)) = some (0x1004#32, 0x3000#32) := by decide
/-- T223 -/
theorem test_sbr_not_taken : after (.sbr .ne 11 12) (start [⟨11, 0x2F00#32⟩, ⟨12, 0x102#32⟩] (znvc 1 0 0 0)) (fun t => (t.fa0, t.fa1)) = some (0x1004#32, 0x1008#32) := by decide
/-- T76 -/
theorem test_jump_add_ri : after (.addRi 2 11 false false 0#16) (start [⟨11, 0x3000#32⟩] (znvc 0 0 0 0)) (fun t => (t.fa0, t.fa1)) = some (0x1004#32, 0x3000#32) := by decide
/-- T222 -/
theorem test_sbr_misaligned : refusal (.sbr .t 11 12) (start [⟨11, 0x2F00#32⟩, ⟨12, 0x102#32⟩] (znvc 0 0 0 0)) = some .pcMisaligned := by decide
/-- T250 -/
theorem test_punt : refusal (.punt) (start [] (znvc 0 0 0 0)) = some .contextSwitch := by decide
/-- T231 -/
theorem test_ld_sls : after (.ldSls 10 0x2007#21)
    (start [] (znvc 0 0 0 0)) (fun t => (t.late, t.reg 11)) = some (some ⟨10, 0x8091A2B3#32⟩, 0x0#32) := by decide
/-- T232 -/
theorem test_st_sls : after (.stSls 10 0x200A#21)
    (start [⟨10, 0xA1B2C3D4#32⟩] (znvc 0 0 0 0))
    (fun t => ((t.mem.drop 8).map Prod.snd, t.reg 11)) = some ([0xA1#8, 0xB2#8, 0xC3#8, 0xD4#8, 0x00#8, 0x00#8, 0x00#8, 0x00#8], 0x0#32) := by decide
/-- T235 -/
theorem test_sli : after (.sli 10 0x1FFFFF#21) (start [⟨10, 0x7#32⟩] (znvc 0 0 0 0)) (fun t => (t.reg 10, t.late))
    = some (7#32, some ⟨10, 0x1FFFFF#32⟩) := by decide
/-- T240 -/
theorem test_ldh_spls : after (.ldhSpls 10 11 false true false 4#10)
    (start [⟨11, 0x2000#32⟩] (znvc 0 0 0 0)) (fun t => (t.late, t.reg 11)) = some (some ⟨10, 0xFFFF8091#32⟩, 0x2000#32) := by decide
/-- T243 -/
theorem test_ldb_spls : after (.ldbSpls 10 11 true false true 1#10)
    (start [⟨11, 0x2005#32⟩] (znvc 0 0 0 0)) (fun t => (t.late, t.reg 11)) = some (some ⟨10, 0x91#32⟩, 0x2006#32) := by decide
/-- T242 -/
theorem test_ldb_spls_sign : after (.ldbSpls 10 11 false true false 0x3FF#10)
    (start [⟨11, 0x2006#32⟩] (znvc 0 0 0 0)) (fun t => (t.late, t.reg 11)) = some (some ⟨10, 0xFFFFFF91#32⟩, 0x2006#32) := by decide
/-- T245 -/
theorem test_sth_spls : after (.sthSpls 10 11 true false 8#10)
    (start [⟨10, 0xAABBCCDD#32⟩, ⟨11, 0x2000#32⟩] (znvc 0 0 0 0))
    (fun t => ((t.mem.drop 8).map Prod.snd, t.reg 11)) = some ([0xCC#8, 0xDD#8, 0x00#8, 0x00#8, 0x00#8, 0x00#8, 0x00#8, 0x00#8], 0x2000#32) := by decide
/-- T246 -/
theorem test_stb_spls : after (.stbSpls 10 11 true true 11#10)
    (start [⟨10, 0xAABBCCDD#32⟩, ⟨11, 0x2000#32⟩] (znvc 0 0 0 0))
    (fun t => ((t.mem.drop 8).map Prod.snd, t.reg 11)) = some ([0x00#8, 0x00#8, 0x00#8, 0xDD#8, 0x00#8, 0x00#8, 0x00#8, 0x00#8], 0x200B#32) := by decide

/-! ### Unused fields and launch parameters -/

/-- R120 over R105: the constant of RM is written 0 when `PQ` = 00. -/
theorem test_encode_clears_rm_constant : encode (.ldRm 10 11 false false 4#16) = 0x852C0000#32 := by decide
/-- R120, R252: Rs2, BBB and JJJJJ are written 0 when `PQ` = 00; the fullword of a shift becomes `YL` = 01. -/
theorem test_encode_clears_rrm_operation : encode (.ldRrmSh 10 11 12 false false) = 0xA52C0002#32 := by decide
/-- R120: the two low address bits of SLS are written 0 (R317's example without them). -/
theorem test_encode_clears_sls_bits : encode (.stSls 10 0x200A#21) = 0xF5012008#32 := by decide

/-- R32: `PC_READ` as the own address, and as own + 8. -/
theorem test_pcRead_own : pcRead ⟨false, 0#32⟩ 0x1000#32 0x3000#32 = 0x1000#32 ∧ pcRead ⟨false, 8#32⟩ 0x1000#32 0x3000#32 = 0x1008#32 := by
  decide
/-- R320: SLI to the pc under `SLI_PC_POLICY` = refuse. -/
theorem test_sli_to_pc_refused :
    refusal (.sli 2 0x3000#21) (start [] (znvc 0 0 0 0) |> fun s => { s with cfg := { s.cfg with sliPc := .refuse } }) = some .sliToPc := by
  decide
/-- R24: under `REG_CONST` a load of R0 is refused unless the datum is what R0 holds. -/
theorem test_constant_load :
    (let s := start [⟨1, 0xFFFFFFFF#32⟩, ⟨11, 0x2000#32⟩] (znvc 0 0 0 0)
     let s := { s with cfg := { s.cfg with regConst := .zeroOnes } }
     (refusal (.ldRm 0 11 false false 0#16) s, after (.ldRm 0 11 true false 8#16) s (fun t => t.late)))
      = (some .constantRegister, some (some ⟨0, 0#32⟩)) := by decide

/-- A launch at 0x1000 of three no-ops, with an end of the run (R369, R392). -/
def noops (e : EndOfRun) : Launch :=
  { Launch.atReset with
    pc := 0x1000#32
    mem := [(0x1000, 0#8), (0x1001, 0#8), (0x1002, 0#8), (0x1003, 0#8), (0x1004, 0#8), (0x1005, 0#8), (0x1006, 0#8), (0x1007, 0#8)]
    cfg := { Config.atReset with endOfRun := some e } }

/-- Where a run ended. -/
def endPc : RunResult → Option Word
  | .ended s => some s.fa0
  | _ => none

/-- R369: a run of one step, a run to the first fetch from 0x1008, and one that runs out of bytes before its end. -/
theorem test_run_ends :
    endPc ((noops (.steps 1)).run 5) = some 0x1004#32 ∧ endPc ((noops (.fetch 0x1008#32)).run 5) = some 0x1008#32
    ∧ endPc ((noops (.steps 3)).run 5) = none := by decide

/-! ### Witnesses: for each statement with hypotheses, a state and operands that meet them together -/

/-- A state with addresses and small numbers in registers 11 to 14. -/
def quiet : State := start [⟨10, 7#32⟩, ⟨11, 0x2000#32⟩, ⟨12, 4#32⟩, ⟨13, 31#32⟩, ⟨14, 0xFFFFFFE1#32⟩] (znvc 0 0 0 1)

/-- The same with a late write to a register pending. -/
def clash (r : RegNum) : State := { quiet with late := some ⟨r, 0x3000#32⟩ }

/-- The same with a word where the next instruction is fetched. -/
def running (w : Word) : State :=
  { quiet with mem := ([0x1000, 0x1001, 0x1002, 0x1003].zip (splitWord .big w)) ++ dataMem }

/-- The same with a map that ends before the data. -/
def walled : State := { quiet with cfg := { quiet.cfg with memMap := [⟨0x1000, 0x1000⟩] } }

/-- The same in the shadow of a taken jump, where no jump is admitted. -/
def shadowed : State := { quiet with fa1 := 0x3000#32, cfg := { quiet.cfg with shadowJump := .refuse } }

/-- The same with R0 and R1 taken as constants. -/
def wired : State :=
  { quiet with regs := writeReg quiet.regs ⟨1, 0xFFFFFFFF#32⟩, cfg := { quiet.cfg with regConst := .zeroOnes } }

/-- The same in a memory without any byte. -/
def blank : State := { quiet with mem := [] }

/-- The registers of the start of a run that a claim names are legal, and R0 is not the pc. -/
theorem witness_ResetHoldsTheChosenValues : (0 : RegNum) ≠ pcReg := by decide

theorem witness_ResetMeetsInvariant : (noops (.steps 1)).ok := by decide

theorem witness_EveryStepKeepsInvariant : (running 0x952E0008#32).Inv ∧ ∃ t, step (running 0x952E0008#32) = .next t :=
  ⟨by decide, next_of_completes (by decide)⟩

theorem witness_StepExecutesDecodedInstruction :
    (running 0x052E0001#32).storedRecently (running 0x052E0001#32).fa0 = false ∧ (running 0x052E0001#32).fa0.toNat % 4 = 0
    ∧ (running 0x052E0001#32).mapped (running 0x052E0001#32).fa0 4
    ∧ (running 0x052E0001#32).holds (running 0x052E0001#32).fa0 [0x05#8, 0x2E#8, 0x00#8, 0x01#8]
    ∧ decode (running 0x052E0001#32).cfg.endian [0x05#8, 0x2E#8, 0x00#8, 0x01#8] = .ok (.addRi 10 11 true false 1#16, []) :=
  ⟨by decide, by decide, by decide, by decide, rfl⟩

theorem witness_StepRefusesUndecodableWord :
    (running 0xC52C6708#32).storedRecently (running 0xC52C6708#32).fa0 = false ∧ (running 0xC52C6708#32).fa0.toNat % 4 = 0
    ∧ (running 0xC52C6708#32).mapped (running 0xC52C6708#32).fa0 4
    ∧ (running 0xC52C6708#32).holds (running 0xC52C6708#32).fa0 [0xC5#8, 0x2C#8, 0x67#8, 0x08#8]
    ∧ decode (running 0xC52C6708#32).cfg.endian [0xC5#8, 0x2C#8, 0x67#8, 0x08#8] = .error .reservedSpecial :=
  ⟨by decide, by decide, by decide, by decide, rfl⟩

/-- The last byte of the word in the first clause, the first byte in the second. -/
theorem witness_FetchOfRecentlyStoredWordIsRefused :
    (({ quiet with store1 := some ⟨0x1003#32, 1⟩ } : State).store1 = some ⟨0x1003#32, 1⟩
      ∧ 0x1003 < quiet.fa0.toNat + 4 ∧ quiet.fa0.toNat < 0x1003 + 1)
    ∧ (({ quiet with store2 := some ⟨0xFFC#32, 5⟩ } : State).store2 = some ⟨0xFFC#32, 5⟩
      ∧ 0xFFC < quiet.fa0.toNat + 4 ∧ quiet.fa0.toNat < 0xFFC + 5) := by decide

/-- T255 and T256: a store to 0x1004, fetched next, and one to 0x1008, fetched after a no-op. Byte 0x1007 had no value and byte
0x100B has one now. -/
theorem witness_ChangedBytesAreNotFetchedForTwoSteps :
    (after (.stSls 10 0x1004#21) quiet (fun t => (quiet.mem.get 0x1007, t.mem.get 0x1007,
        decide (t.fa0.toNat ≤ 0x1007 ∧ 0x1007 < t.fa0.toNat + 4))) = some (none, some 7#8, true))
    ∧ (after (.stSls 10 0x1008#21) quiet (fun t => (quiet.mem.get 0x1008, t.mem.get 0x1008,
        after (.addRi 0 0 false false 0#16) t (fun u => decide (u.fa0.toNat ≤ 0x1008 ∧ 0x1008 < u.fa0.toNat + 4))))
      = some (none, some 0#8, some true)) := by decide

/-- T257: a store to 0x100C and two no-ops. -/
theorem witness_StoredWordIsFetchedFromTheThirdInstructionOn :
    (∃ t v, exec (.stSls 10 0x100C#21) quiet = .next t
      ∧ Executes [.addRi 0 0 false false 0#16, .addRi 0 0 false false 0#16] t v ∧ v.fa0 = 0x100C#32)
    ∧ (Instr.addRi 0 0 false false 0#16).stores = false ∧ (Instr.stSls 10 0x100C#21).storeOf = some (10, .w)
    ∧ quiet.eaOf (.stSls 10 0x100C#21) = some 0x100C#32 :=
  ⟨⟨_, _, rfl, ⟨_, rfl, _, rfl, rfl⟩, rfl⟩, by decide, by decide, by decide⟩

theorem witness_PlacedWordRunsNext : decodeTableWord 32 0x052E0001 = some (.addRi 10 11 true false 1#16) := by decide

theorem witness_DecodeOfEncodeIsTheInstruction :
    (Instr.ldRm 10 11 false false 0#16).unusedZero = true ∧ (Instr.ldRrmSub 10 11 12 true false .w).unusedZero = true := by decide

theorem witness_DecodeReadsBackEncodedBytes : (Instr.stSls 10 0x1FFFFC#21).unusedZero = true := by decide

/-- T101; and a word with every ignored bit of an RRM without `P` and `Q` set. -/
theorem witness_DecodedWordIsItsEncodingUpToIgnoredBits :
    decodeWord 0xC52C60F8#32 = .ok (.addRr 10 11 12 false) ∧ (Instr.addRr 10 11 12 false).ignoredBits = 0xF8#32
    ∧ decodeWord 0xA52C6683#32 = .ok (.ldRrmXor 10 11 12 false false .w)
    ∧ (Instr.ldRrmXor 10 11 12 false false .w).avoidsIsr = true := ⟨rfl, rfl, rfl, by decide⟩

/-- T100, and a word with each of bits 5, 4, 3 set. -/
theorem witness_ReservedRrSpecialsAreNoInstruction :
    ∀ w ∈ [0xC52C6708#32, 0xC52C67A0#32, 0xC52C6790#32, 0xC52C6788#32], w.extractLsb' 28 4 = 12#4 ∧ w.extractLsb' 8 3 = 7#3
      ∧ (w.getLsbD 7 = false ∨ w.getLsbD 5 = true ∨ w.getLsbD 4 = true ∨ w.getLsbD 3 = true) := by
  intro w hw
  simp only [List.mem_cons, List.not_mem_nil, or_false] at hw
  rcases hw with rfl | rfl | rfl | rfl <;> decide

/-- One word for each group of reserved bits: T102, T179, T252, T225. -/
theorem witness_WordsWithReservedBitsAreNoInstruction :
    (BitVec.extractLsb' 28 4 0xC52D6000#32 = 12#4 ∧ BitVec.getLsbD 0xC52D6000#32 16 = true)
    ∧ (BitVec.extractLsb' 29 3 0xA52E678A#32 = 5#3 ∧ BitVec.extractLsb' 8 3 0xA52E678A#32 = 7#3
      ∧ BitVec.extractLsb' 3 3 0xA52E678A#32 ≠ 0#3)
    ∧ (BitVec.extractLsb' 28 4 0xF803FF47#32 = 15#4 ∧ BitVec.extractLsb' 8 10 0xF803FF47#32 = 1023#10
      ∧ BitVec.getLsbD 0xF803FF47#32 6 = true ∧ BitVec.extractLsb' 0 3 0xF803FF47#32 = 7#3
      ∧ BitVec.extractLsb' 18 10 0xF803FF47#32 ≠ 0#10)
    ∧ (BitVec.extractLsb' 28 4 0xF0AFC060#32 = 15#4 ∧ BitVec.extractLsb' 8 10 0xF0AFC060#32 = 960#10
      ∧ BitVec.extractLsb' 1 2 0xF0AFC060#32 = 0#2 ∧ BitVec.extractLsb' 23 2 0xF0AFC060#32 ≠ 0#2) := by decide

theorem witness_RrmWidthElevenIsNoInstruction : BitVec.extractLsb' 29 3 0xA52E6006#32 = 5#3
    ∧ BitVec.extractLsb' 8 3 0xA52E6006#32 ≠ 7#3 ∧ BitVec.extractLsb' 1 2 0xA52E6006#32 = 3#2 := by decide

/-- T226, and words with bit 24, bit 23, bit 2 set. -/
theorem witness_SbrWordsAreExactlyTheMaskedOnes :
    ∀ w ∈ [0xF003C002#32, 0xF12FC060#32, 0xF0AFC060#32, 0xF02FC064#32], w.extractLsb' 28 4 = 15#4
      ∧ w.extractLsb' 8 10 = 960#10
      ∧ (w.getLsbD 24 = true ∨ w.getLsbD 23 = true ∨ w.getLsbD 2 = true ∨ w.getLsbD 1 = true) := by
  intro w hw
  simp only [List.mem_cons, List.not_mem_nil, or_false] at hw
  rcases hw with rfl | rfl | rfl | rfl <;> decide

theorem witness_UnassignedWordsAreNoInstruction :
    BitVec.extractLsb' 28 4 0xF003FF40#32 = 15#4 ∧ BitVec.extractLsb' 15 3 0xF003FF40#32 = 7#3 := by decide

theorem witness_AllZerosWordIsTheNoOp : ¬ quiet.pending 0 := by decide

/-- The three clauses of an ALU outcome: a pending late write, a misaligned jump, completion as a register write and as a jump. -/
theorem witness_RiArithmeticOutcome :
    ((10 : RegNum) ≠ isrReg ∧ (11 : RegNum) ≠ isrReg) ∧ (clash 10).pending 10
    ∧ (¬ quiet.pending 2 ∧ (quiet.x 11 + 2#32).toNat % 4 ≠ 0)
    ∧ (¬ quiet.pending 10 ∧ (10 : RegNum) ≠ pcReg) ∧ (¬ quiet.pending 2 ∧ (quiet.x 11 + 4#32).toNat % 4 = 0)
    ∧ (¬ shadowed.pending 2 ∧ (shadowed.x 11 + 4#32).toNat % 4 = 0 ∧ shadowed.jumpBarred)
    ∧ (¬ wired.pending 0 ∧ wired.constBarred 0 (wired.x 11 + 4#32)) := by decide

theorem witness_RiLogicOutcome :
    ((2 : RegNum) ≠ isrReg ∧ (11 : RegNum) ≠ isrReg) ∧ (clash 2).pending 2
    ∧ (¬ quiet.pending 2 ∧ (quiet.x 11 ||| 1#32).toNat % 4 ≠ 0)
    ∧ (¬ quiet.pending 10 ∧ (10 : RegNum) ≠ pcReg) ∧ (¬ quiet.pending 2 ∧ (quiet.x 11 ^^^ 4#32).toNat % 4 = 0)
    ∧ (¬ shadowed.pending 2 ∧ (shadowed.x 11 ||| 4#32).toNat % 4 = 0 ∧ shadowed.jumpBarred)
    ∧ (¬ wired.pending 0 ∧ wired.constBarred 0 (wired.x 11 ||| 4#32)) := by decide

/-- Left amounts 0 and 31, right amounts 1 and 31, each with a clause of the outcome. -/
theorem witness_RiShiftOutcome :
    ((10 : RegNum) ≠ isrReg ∧ (11 : RegNum) ≠ isrReg) ∧ (0 ≤ 31 ∧ (clash 10).pending 10)
    ∧ (31 ≤ 31 ∧ ¬ quiet.pending 10 ∧ (10 : RegNum) ≠ pcReg)
    ∧ (1 ≤ 31 ∧ 1 ≤ 1 ∧ ¬ quiet.pending 2 ∧ (quiet.x 12 >>> 1).toNat % 4 ≠ 0)
    ∧ (31 ≤ 31 ∧ 1 ≤ 31 ∧ ¬ quiet.pending 2 ∧ (quiet.x 12 >>> 31).toNat % 4 = 0)
    ∧ (¬ shadowed.pending 2 ∧ (shadowed.x 11 <<< 31).toNat % 4 = 0 ∧ shadowed.jumpBarred)
    ∧ (¬ wired.pending 0 ∧ wired.constBarred 0 (wired.x 11 <<< 1)) := by decide

theorem witness_RrArithmeticOutcome :
    ((10 : RegNum) ≠ isrReg ∧ (11 : RegNum) ≠ isrReg ∧ (12 : RegNum) ≠ isrReg) ∧ (clash 10).pending 10
    ∧ (¬ quiet.pending 2 ∧ (quiet.x 11 + quiet.x 13).toNat % 4 ≠ 0)
    ∧ (¬ quiet.pending 10 ∧ (10 : RegNum) ≠ pcReg) ∧ (¬ quiet.pending 2 ∧ (quiet.x 11 - quiet.x 12).toNat % 4 = 0)
    ∧ (¬ shadowed.pending 2 ∧ (shadowed.x 11 + shadowed.x 12).toNat % 4 = 0 ∧ shadowed.jumpBarred)
    ∧ (¬ wired.pending 0 ∧ wired.constBarred 0 (wired.x 11 + wired.x 12)) := by decide

theorem witness_RrLogicOutcome :
    ((10 : RegNum) ≠ isrReg ∧ (11 : RegNum) ≠ isrReg ∧ (13 : RegNum) ≠ isrReg) ∧ (clash 10).pending 10
    ∧ (¬ quiet.pending 2 ∧ (quiet.x 11 ||| quiet.x 13).toNat % 4 ≠ 0)
    ∧ (¬ quiet.pending 10 ∧ (10 : RegNum) ≠ pcReg) ∧ (¬ quiet.pending 2 ∧ (quiet.x 11 &&& quiet.x 12).toNat % 4 = 0)
    ∧ (¬ shadowed.pending 2 ∧ (shadowed.x 11 ||| shadowed.x 12).toNat % 4 = 0 ∧ shadowed.jumpBarred)
    ∧ (¬ wired.pending 0 ∧ wired.constBarred 0 (wired.x 11 ||| wired.x 12)) := by decide

/-- R0 holds 0, R13 holds 31, R14 holds -31; amount -1 is R1 of the second state. -/
theorem witness_RrShiftOutcome :
    ((10 : RegNum) ≠ isrReg ∧ (11 : RegNum) ≠ isrReg ∧ (14 : RegNum) ≠ isrReg)
    ∧ quiet.x 0 = BitVec.ofNat 32 0 ∧ quiet.x 13 = BitVec.ofNat 32 31 ∧ quiet.x 14 = -BitVec.ofNat 32 31
    ∧ (start [⟨1, 0xFFFFFFFF#32⟩] (znvc 0 0 0 0)).x 1 = -BitVec.ofNat 32 1
    ∧ (clash 10).pending 10 ∧ ¬ quiet.pending 10
    ∧ (¬ quiet.pending 2 ∧ (quiet.x 13 <<< 0).toNat % 4 ≠ 0) ∧ (quiet.x 11 <<< 0).toNat % 4 = 0
    ∧ (¬ shadowed.pending 2 ∧ (shadowed.x 11 <<< 0).toNat % 4 = 0 ∧ shadowed.jumpBarred)
    ∧ (¬ wired.pending 0 ∧ wired.constBarred 0 (wired.x 11 <<< 0)) := by decide

/-- The clauses for shifts at their boundary amounts, and both sides of the range. -/
theorem witness_Op1TableOfRrr :
    quiet.x 0 = BitVec.ofNat 32 0 ∧ quiet.x 13 = BitVec.ofNat 32 31 ∧ quiet.x 14 = -BitVec.ofNat 32 31
    ∧ 31 < BitVec.toInt 32#32 ∧ BitVec.toInt 0xFFFFFFE0#32 < -31 := by decide

theorem witness_RrrArithmeticOutcome :
    ((10 : RegNum) ≠ pcReg ∧ (10 : RegNum) ≠ isrReg ∧ (11 : RegNum) ≠ isrReg ∧ (12 : RegNum) ≠ isrReg
      ∧ (13 : RegNum) ≠ isrReg)
    ∧ OpValue (Op1.alu .sha) (quiet.x 12) (quiet.x 14) quiet.flags.c 0#32
    ∧ OpValue (Op1.alu .subb) (quiet.x 11) (quiet.x 12) quiet.flags.c 0x1FFC#32
    ∧ (clash 10).pending 10 ∧ ¬ quiet.pending 10
    ∧ (¬ wired.pending 1 ∧ wired.constBarred 1 (wired.x 11 + 4#32)) :=
  ⟨by decide, .inr ⟨31, by decide, by decide, by decide, by decide⟩, (by decide : (0x1FFC#32 : Word) = _), by decide, by decide, by decide⟩

theorem witness_RrrLogicOutcome :
    ((10 : RegNum) ≠ pcReg ∧ (10 : RegNum) ≠ isrReg ∧ (11 : RegNum) ≠ isrReg ∧ (12 : RegNum) ≠ isrReg
      ∧ (13 : RegNum) ≠ isrReg)
    ∧ OpValue (Op1.alu .or) (quiet.x 12) (quiet.x 13) quiet.flags.c 31#32 ∧ (clash 10).pending 10 ∧ ¬ quiet.pending 10
    ∧ (¬ wired.pending 1 ∧ wired.constBarred 1 (wired.x 11 + 4#32)) :=
  ⟨by decide, (by decide : (31#32 : Word) = _), by decide, by decide, by decide⟩

/-- op1 gives 0, 31, -1 and -31. -/
theorem witness_RrrShiftOutcome :
    ((10 : RegNum) ≠ pcReg ∧ (10 : RegNum) ≠ isrReg ∧ (11 : RegNum) ≠ isrReg ∧ (12 : RegNum) ≠ isrReg
      ∧ (13 : RegNum) ≠ isrReg)
    ∧ OpValue (Op1.alu .sub) (quiet.x 12) (quiet.x 12) quiet.flags.c (BitVec.ofNat 32 0)
    ∧ OpValue (Op1.alu .add) (quiet.x 0) (quiet.x 13) quiet.flags.c (BitVec.ofNat 32 31)
    ∧ OpValue (Op1.alu .sub) ((start [⟨12, 1#32⟩] (znvc 0 0 0 0)).x 0) ((start [⟨12, 1#32⟩] (znvc 0 0 0 0)).x 12) false
        (-BitVec.ofNat 32 1)
    ∧ OpValue (Op1.alu .add) (quiet.x 0) (quiet.x 14) quiet.flags.c (-BitVec.ofNat 32 31)
    ∧ (clash 10).pending 10 ∧ ¬ quiet.pending 10
    ∧ (¬ wired.pending 1 ∧ wired.constBarred 1 (wired.x 11 + 4#32)) :=
  ⟨by decide, (by decide : (BitVec.ofNat 32 0 : Word) = _), (by decide : (BitVec.ofNat 32 31 : Word) = _),
    (by decide : (-BitVec.ofNat 32 1 : Word) = _), (by decide : (-BitVec.ofNat 32 31 : Word) = _), by decide, by decide, by decide⟩

/-- T66, T67, T97 and -32 in a register; each clause on both sides of the range. -/
theorem witness_ShiftsOutOfRangeAreRefused :
    ((10 : RegNum) ≠ pcReg ∧ (10 : RegNum) ≠ isrReg ∧ (11 : RegNum) ≠ isrReg ∧ (11 : RegNum) ≠ pcReg ∧ (12 : RegNum) ≠ isrReg
      ∧ (13 : RegNum) ≠ isrReg)
    ∧ 31 < BitVec.toInt 0x20#16 ∧ BitVec.toInt 0xFFE0#16 < -31
    ∧ 31 < ((start [⟨12, 0x20#32⟩] (znvc 0 0 0 0)).x 12).toInt
    ∧ ((start [⟨12, 0xFFFFFFE0#32⟩] (znvc 0 0 0 0)).x 12).toInt < -31
    ∧ 31 < ((start [⟨13, 0x20#32⟩] (znvc 0 0 0 0)).x 13).toInt
    ∧ ((start [⟨13, 0xFFFFFFE0#32⟩] (znvc 0 0 0 0)).x 13).toInt < -31
    ∧ OpValue (Op1.alu .add) (quiet.x 13) (quiet.x 12) quiet.flags.c 35#32 ∧ 31 < BitVec.toInt 35#32
    ∧ OpValue (Op1.alu .sub) (quiet.x 14) (quiet.x 12) quiet.flags.c 0xFFFFFFDD#32 ∧ BitVec.toInt 0xFFFFFFDD#32 < -31 :=
  ⟨by decide, by decide, by decide, by decide, by decide, by decide, by decide, (by decide : (35#32 : Word) = _), by decide,
    (by decide : (0xFFFFFFDD#32 : Word) = _), by decide⟩

theorem witness_LogicalOperationsActBitByBit : 0 < 32 ∧ 31 < 32 := by decide

theorem witness_RrOverflowAndCarryAreExact :
    (∃ t, exec (.addRr 10 11 12 true) quiet = .next t) ∧ (∃ t, exec (.addcRr 10 11 12 true) quiet = .next t)
    ∧ (∃ t, exec (.subRr 10 11 12 true) quiet = .next t) ∧ ∃ t, exec (.subbRr 10 11 12 true) quiet = .next t :=
  ⟨next_of_completes (by decide), next_of_completes (by decide), next_of_completes (by decide), next_of_completes (by decide)⟩

theorem witness_ConditionsCompareAfterSubtract :
    (∃ t, exec (.subRi 10 11 true true 1#16) quiet = .next t) ∧ (∃ t, exec (.subRr 10 11 12 true) quiet = .next t)
    ∧ (∃ t, exec (.subRrr 10 11 12 13 .add true) quiet = .next t)
    ∧ OpValue (Op1.alu .add) (quiet.x 12) (quiet.x 13) quiet.flags.c 35#32 :=
  ⟨next_of_completes (by decide), next_of_completes (by decide), next_of_completes (by decide), (by decide : (35#32 : Word) = _)⟩

/-- Each way of reading register 2, the decided one among them. -/
theorem witness_RegisterReadGivesStoredValueOrNextFetch :
    (31 : RegNum) ≠ pcReg ∧ quiet.cfg.pcRead.fromNext = true ∧ quiet.cfg.pcRead = Config.atReset.pcRead
    ∧ ({ quiet with cfg := { quiet.cfg with pcRead := ⟨false, 8#32⟩ } } : State).cfg.pcRead.fromNext = false := by decide

/-- The clauses of a branch outcome. An absolute target is always a multiple of 4, so the misaligned clause has no case here. -/
theorem witness_BrAbsOutcome :
    (Cond.holds .cs (clash 2).flags = true ∧ (clash 2).pending pcReg)
    ∧ (Cond.holds .cs quiet.flags = true ∧ ¬ quiet.pending pcReg ∧ (BitVec.ofNat 32 (4 * (0x7FFFFF#23).toNat)).toNat % 4 = 0)
    ∧ Cond.holds .cc quiet.flags = false
    ∧ (¬ shadowed.pending 2 ∧ (BitVec.ofNat 32 (4 * (0xC00#23).toNat)).toNat % 4 = 0 ∧ shadowed.jumpBarred) := by decide

/-- The misaligned clause needs a misaligned `fa1`, which the invariant rules out. -/
theorem witness_BrRelOutcome :
    (Cond.holds .t (clash 2).flags = true ∧ (clash 2).pending pcReg)
    ∧ (¬ ({ quiet with fa1 := 0x1002#32 } : State).pending pcReg
      ∧ (({ quiet with fa1 := 0x1002#32 } : State).x pcReg + BitVec.ofInt 32 (4 * (0#23).toInt)).toNat % 4 ≠ 0)
    ∧ (¬ quiet.pending pcReg ∧ (quiet.x pcReg + BitVec.ofInt 32 (4 * (0x400000#23).toInt)).toNat % 4 = 0)
    ∧ Cond.holds .f quiet.flags = false
    ∧ (¬ shadowed.pending 2 ∧ (shadowed.x pcReg + BitVec.ofInt 32 (4 * (0#23).toInt)).toNat % 4 = 0 ∧ shadowed.jumpBarred) := by decide

/-- The misaligned clause is T222's. -/
theorem witness_SbrOutcome :
    ((11 : RegNum) ≠ isrReg ∧ (12 : RegNum) ≠ isrReg) ∧ (Cond.holds .t (clash 2).flags = true ∧ (clash 2).pending pcReg)
    ∧ (¬ quiet.pending pcReg ∧ (quiet.x 11 + quiet.x 13).toNat % 4 ≠ 0)
    ∧ (¬ quiet.pending pcReg ∧ (quiet.x 11 + quiet.x 12).toNat % 4 = 0) ∧ Cond.holds .ne (start [] (znvc 1 0 0 0)).flags = false
    ∧ (¬ shadowed.pending 2 ∧ (shadowed.x 11 + shadowed.x 12).toNat % 4 = 0 ∧ shadowed.jumpBarred) := by
  decide

/-- The word at 0x2000 as a datum. -/
theorem quiet_datum : quiet.datum 0x2000#32 .w 0x11223344#32 :=
  ⟨0x11#8, 0x22#8, 0x33#8, 0x44#8, by decide, by decide⟩

/-- The clauses of a load and of a store outcome, in this order: misaligned, outside the map, a byte without a value (one past
the last), a base update that meets a late write, completion with and without base update. -/
theorem witness_RmLoadAndStoreOutcome :
    ((10 : RegNum) ≠ pcReg ∧ (10 : RegNum) ≠ isrReg ∧ (11 : RegNum) ≠ isrReg ∧ (11 : RegNum) ≠ pcReg)
    ∧ (0x2001#32).toNat % 4 ≠ 0 ∧ ((0x2000#32).toNat % 4 = 0 ∧ ¬ walled.mapped 0x2000#32 4)
    ∧ (quiet.mapped 0x2010#32 4 ∧ quiet.mem.get ((0x2010#32).toNat + 0) = none)
    ∧ ((clash 11).pending 11 ∧ (clash 11).mapped 0x2000#32 4) ∧ (clash 11).datum 0x2000#32 .w 0x11223344#32
    ∧ (¬ quiet.pending 11 ∧ quiet.mapped 0x2000#32 4) ∧ quiet.datum 0x2000#32 .w 0x11223344#32
    ∧ (¬ wired.pending 0 ∧ wired.constBarred 0 4#32 ∧ wired.constBarred 1 0x11223344#32) :=
  ⟨by decide, by decide, by decide, by decide, by decide, ⟨0x11#8, 0x22#8, 0x33#8, 0x44#8, by decide, by decide⟩, by decide,
    quiet_datum, by decide⟩

/-- The address operation's value, where it is performed, for an addition and for a shift by 31, and each clause. -/
theorem witness_RrmLoadOutcome :
    ((10 : RegNum) ≠ pcReg ∧ (10 : RegNum) ≠ isrReg ∧ (11 : RegNum) ≠ isrReg ∧ (12 : RegNum) ≠ isrReg ∧ (11 : RegNum) ≠ pcReg)
    ∧ OpValue .add (quiet.x 11) (quiet.x 12) quiet.flags.c 0x2004#32 ∧ OpValue .sh (quiet.x 11) (quiet.x 13) quiet.flags.c 0#32
    ∧ (0x2003#32).toNat % loadLen .hz ≠ 0 ∧ ((0x2004#32).toNat % loadLen .hz = 0 ∧ ¬ walled.mapped 0x2004#32 2)
    ∧ (quiet.mapped 0#32 4 ∧ quiet.mem.get ((0#32).toNat + 3) = none)
    ∧ (clash 11).pending 11 ∧ ¬ quiet.pending 11 ∧ quiet.mapped 0x2004#32 2 ∧ quiet.datum 0x2004#32 .hz 0x8091#32
    ∧ quiet.datum 0x2005#32 .b 0xFFFFFF91#32 ∧ quiet.datum 0x2005#32 .bz 0x91#32 ∧ quiet.datum 0x2004#32 .h 0xFFFF8091#32
    ∧ (¬ wired.pending 0 ∧ wired.constBarred 0 4#32 ∧ wired.constBarred 1 0x11223344#32) :=
  ⟨by decide, (by decide : (0x2004#32 : Word) = _), .inl ⟨31, by decide, by decide, by decide⟩, by decide, by decide, by decide,
    by decide, by decide, by decide, ⟨0x80#8, 0x91#8, by decide, by decide⟩, ⟨0x91#8, by decide, by decide⟩,
    ⟨0x91#8, by decide, by decide⟩, ⟨0x80#8, 0x91#8, by decide, by decide⟩, by decide⟩

theorem witness_RrmStoreOutcome :
    ((10 : RegNum) ≠ pcReg ∧ (10 : RegNum) ≠ isrReg ∧ (11 : RegNum) ≠ isrReg ∧ (12 : RegNum) ≠ isrReg ∧ (11 : RegNum) ≠ pcReg)
    ∧ OpValue .xor (quiet.x 11) (quiet.x 12) quiet.flags.c 0x2004#32
    ∧ OpValue .sha (quiet.x 11) (quiet.x 14) quiet.flags.c 0#32
    ∧ (0x2002#32).toNat % storeLen .w ≠ 0 ∧ ((0x2004#32).toNat % storeLen .w = 0 ∧ ¬ walled.mapped 0x2004#32 4)
    ∧ (clash 11).pending 11 ∧ ((clash 11).mapped 0x2004#32 4) ∧ ¬ quiet.pending 11 ∧ blank.mapped 0x2004#32 4
    ∧ (¬ wired.pending 0 ∧ wired.constBarred 0 4#32) :=
  ⟨by decide, (by decide : (0x2004#32 : Word) = _), .inr ⟨31, by decide, by decide, by decide, by decide⟩, by decide, by decide,
    by decide, by decide, by decide, by decide, by decide⟩

/-- An SLS address is always aligned and there is no base update, so those clauses have no case. -/
theorem witness_LdSlsOutcome :
    ((10 : RegNum) ≠ pcReg ∧ (10 : RegNum) ≠ isrReg) ∧ ((2 : RegNum) = pcReg ∧ (31 : RegNum) = isrReg)
    ∧ ¬ walled.mapped (BitVec.ofNat 32 ((0x2003#21).toNat / 4 * 4)) 4
    ∧ (quiet.mapped (BitVec.ofNat 32 ((0x1FFFFF#21).toNat / 4 * 4)) 4
      ∧ quiet.mem.get ((BitVec.ofNat 32 ((0x1FFFFF#21).toNat / 4 * 4)).toNat + 0) = none)
    ∧ quiet.mapped (BitVec.ofNat 32 ((0x2003#21).toNat / 4 * 4)) 4
    ∧ quiet.datum (BitVec.ofNat 32 ((0x2003#21).toNat / 4 * 4)) .w 0x11223344#32
    ∧ wired.constBarred 0 0x11223344#32 ∧ (0x2004#21).toNat % 4 = 0 :=
  ⟨by decide, by decide, by decide, by decide, by decide, ⟨0x11#8, 0x22#8, 0x33#8, 0x44#8, by decide, by decide⟩, by decide⟩

theorem witness_StSlsOutcome :
    ((10 : RegNum) ≠ pcReg ∧ (10 : RegNum) ≠ isrReg) ∧ ((2 : RegNum) = pcReg ∧ (31 : RegNum) = isrReg)
    ∧ ¬ walled.mapped (BitVec.ofNat 32 ((0x2003#21).toNat / 4 * 4)) 4
    ∧ quiet.mapped (BitVec.ofNat 32 ((0x1FFFFF#21).toNat / 4 * 4)) 4
    ∧ (0x1FFFFC#21).toNat % 4 = 0 := by decide

/-- Each clause, and the step after an SLI to the pc. -/
theorem witness_SliOutcome :
    (31 : RegNum) = isrReg ∧ ((2 : RegNum) = pcReg ∧ quiet.cfg.sliPc = .follow ∧ (0x1FFFFF#21).toNat % 4 ≠ 0)
    ∧ ({ quiet with cfg := { quiet.cfg with sliPc := .refuse } } : State).cfg.sliPc = .refuse
    ∧ (shadowed.cfg.sliPc = .follow ∧ (0x3000#21).toNat % 4 = 0 ∧ shadowed.jumpBarred)
    ∧ wired.constBarred 1 (BitVec.ofNat 32 (0x1FFFFF#21).toNat)
    ∧ ((2 : RegNum) ≠ isrReg ∧ ¬ quiet.jumpBarred) ∧ ((10 : RegNum) ≠ isrReg ∧ (10 : RegNum) ≠ pcReg)
    ∧ after (.sli 2 0x3000#21) quiet (fun t => after (.addRi 0 0 false false 0#16) t (fun u => (u.fa0, u.fa1)))
      = some (some (0x1008#32, 0x3000#32)) := by decide

theorem witness_SplsOutcome :
    ((10 : RegNum) ≠ pcReg ∧ (10 : RegNum) ≠ isrReg ∧ (11 : RegNum) ≠ isrReg ∧ (11 : RegNum) ≠ pcReg)
    ∧ (quiet.x 11 + (0x3FF#10).signExtend 32).toNat % loadLen .h ≠ 0 ∧ ¬ walled.mapped 0x2000#32 2
    ∧ (quiet.mapped 0x2010#32 1 ∧ quiet.mem.get ((0x2010#32).toNat + 0) = none)
    ∧ (clash 11).pending 11 ∧ ¬ quiet.pending 11 ∧ quiet.mapped 0x2000#32 2 ∧ quiet.datum 0x2000#32 .h 0x1122#32
    ∧ ((2 : RegNum) = pcReg ∧ (31 : RegNum) = isrReg)
    ∧ (¬ wired.pending 0 ∧ wired.constBarred 0 4#32 ∧ wired.constBarred 1 0x11223344#32) :=
  ⟨by decide, by decide, by decide, by decide, by decide, by decide, by decide, ⟨0x11#8, 0x22#8, by decide, by decide⟩, by decide, by decide⟩

theorem witness_PartsReadBackAfterWordStore :
    quiet.memStore 0x2000#32 .w 0x01020304#32 = .ok ⟨0x2000#32, [1#8, 2#8, 3#8, 4#8]⟩ ∧ quiet.cfg.endian = .big := ⟨rfl, rfl⟩

/-- T149; and a byte stored by SPLS and loaded by RRM. -/
theorem witness_LoadRightAfterStoreSeesIt :
    (after (.stRm 10 11 true false 8#16) quiet (fun t => (t.eaOf (.ldRm 12 11 true false 8#16),
        after (.ldRm 12 11 true false 8#16) t (fun u => u.late))) = some (some 0x2008#32, some (some ⟨12, 7#32⟩)))
    ∧ quiet.eaOf (.stRm 10 11 true false 8#16) = some 0x2008#32
    ∧ (after (.stbSpls 14 11 true false 4#10) quiet (fun t => (t.eaOf (.ldRrmAdd 13 11 12 true false .b),
        after (.ldRrmAdd 13 11 12 true false .b) t (fun u => u.late))) = some (some 0x2004#32, some (some ⟨13, 0xFFFFFFE1#32⟩)))
    ∧ quiet.eaOf (.stbSpls 14 11 true false 4#10) = some 0x2004#32 ∧ storeLen .b = loadLen .b := by decide

/-- T117, T79, T142. -/
theorem witness_IllFormedInstructionsAreRefused :
    (Instr.addRrr 2 11 12 13 .add false).rdAllowed = false
    ∧ ((Instr.addRi 10 31 false false 0#16).rdAllowed = true ∧ (Instr.addRi 10 31 false false 0#16).avoidsIsr = false)
    ∧ ((Instr.ldRm 10 2 false true 4#16).rdAllowed = true ∧ (Instr.ldRm 10 2 false true 4#16).avoidsIsr = true
      ∧ (Instr.ldRm 10 2 false true 4#16).baseAllowed = false) := by decide

theorem witness_PendingLateWriteLands :
    ((∃ t, exec (.brAbs .f 0#23) (clash 10) = .next t) ∧ (clash 10).late = some ⟨10, 0x3000#32⟩ ∧ (10 : RegNum) ≠ pcReg)
    ∧ (∃ t, exec (.brAbs .f 0#23) (clash 2) = .next t) ∧ (clash 2).late = some ⟨2, 0x3000#32⟩ ∧ (2 : RegNum) = pcReg :=
  ⟨⟨next_of_completes (by decide), by decide⟩, next_of_completes (by decide), by decide⟩

/-- T145's first two instructions; and T135, where the base update writes the loaded register. -/
theorem witness_LoadShadowIsOneInstruction :
    (after (.ldRm 10 11 true false 0#16) quiet
        (fun t => after (.addRi 12 10 false false 1#16) t (fun u => u.reg 10 == 0x11223344#32)) = some (some true))
    ∧ (Instr.ldRm 10 11 true false 0#16).loadOf = some (10, .w) ∧ (Instr.ldRm 10 11 true false 0#16).updatedBase ≠ some 10
    ∧ (after (.ldRm 11 11 false true 4#16) quiet
        (fun t => after (.addRi 0 0 false false 0#16) t (fun u => u.reg 11 == 0x11223344#32)) = some (some true)) := by decide

/-- A flag-writing ALU instruction completes and is no jump, stores nothing and draws nothing. -/
theorem witness_OnlyJumpsRedirectFetch : (∃ t, exec (.addRr 10 11 12 true) quiet = .next t) ∧ (Instr.addRr 10 11 12 true).jumps = false :=
  ⟨next_of_completes (by decide), by decide⟩

theorem witness_FlagsChangeOnlyUnderF : (∃ t, exec (.sbr .t 11 12) quiet = .next t) ∧ (Instr.sbr .t 11 12).writesFlags = false :=
  ⟨next_of_completes (by decide), by decide⟩

theorem witness_MemoryChangesOnlyByStores : (∃ t, exec (.ldSls 10 0x2000#21) quiet = .next t) ∧ (Instr.ldSls 10 0x2000#21).stores = false :=
  ⟨next_of_completes (by decide), by decide⟩

theorem witness_ContextIsrAndParametersNeverChange :
    (∃ t, exec (.stSls 10 0x2000#21) quiet = .next t) ∧ ¬ quiet.pending isrReg :=
  ⟨next_of_completes (by decide), by decide⟩

/-- A flag-setting shift by 0 draws, one by 1 does not. -/
theorem witness_FreeValuesAreUsedOnlyWhereDrawn :
    (∃ t, exec (.shRi 10 11 true 0#16) quiet = .next t) ∧ quiet.drawsAt (.shRi 10 11 true 0#16) = true
    ∧ (∃ t, exec (.shRi 10 11 true 1#16) quiet = .next t) ∧ quiet.drawsAt (.shRi 10 11 true 1#16) = false :=
  ⟨next_of_completes (by decide), by decide, next_of_completes (by decide), by decide⟩

/-- Each reason of the statement is met by some instruction and state. -/
theorem witness_MeaningsStopOnlyForListedReasons :
    exec (.ldSls 10 0x2000#21) walled = .fault .outsideMemMap ∧ exec (.ldSls 10 0x2000#21) blank = .fault .unwrittenByte
    ∧ exec (.stRm 10 11 true false 2#16) quiet = .refused .misaligned ∧ exec .punt quiet = .refused .contextSwitch
    ∧ exec (.ldSls 2 0x2000#21) quiet = .refused .prohibitedRd ∧ exec (.sbr .t 31 11) quiet = .refused .register31
    ∧ exec (.ldRm 10 2 false true 4#16) quiet = .refused .pcBaseUpdate ∧ exec (.shRi 10 11 false 32#16) quiet = .refused .shiftRange
    ∧ exec (.sbr .t 11 13) quiet = .refused .pcMisaligned ∧ exec (.addRi 10 11 false false 1#16) (clash 10) = .refused .writeCollision
    ∧ exec (.brAbs .t 0#23) shadowed = .refused .shadowJump
    ∧ exec (.sli 2 0#21) { quiet with cfg := { quiet.cfg with sliPc := .refuse } } = .refused .sliToPc
    ∧ exec (.addRi 1 11 false false 0#16) wired = .refused .constantRegister :=
  ⟨fault_of_faultOf (by decide), fault_of_faultOf (by decide), refused_of_refusal (by decide), refused_of_refusal (by decide),
    refused_of_refusal (by decide), refused_of_refusal (by decide), refused_of_refusal (by decide), refused_of_refusal (by decide),
    refused_of_refusal (by decide), refused_of_refusal (by decide), refused_of_refusal (by decide), refused_of_refusal (by decide),
    refused_of_refusal (by decide)⟩

/-- A run that ends by a step count, one that ends at an address, and a launch that names no end. -/
theorem witness_RunsEndWhereTheLaunchSays :
    (noops (.steps 1)).state.cfg.endOfRun = some (.steps 1) ∧ (noops (.fetch 0x1008#32)).state.cfg.endOfRun = some (.fetch 0x1008#32)
    ∧ State.reset.cfg.endOfRun = none := by decide

/-- The loop that programs P1 to P5 of 95_test_vectors.md end in: `b.t abs 0x1000` at 0x1000 and a no-op. -/
theorem witness_SelfBranchLoopStaysPut :
    let s := { running 0xE0001000#32 with
      mem := ([0x1000, 0x1001, 0x1002, 0x1003, 0x1004, 0x1005, 0x1006, 0x1007].zip (splitWord .big 0xE0001000#32 ++ [0, 0, 0, 0])) }
    s.fa0.toNat = 4 * (0x400#23).toNat ∧ s.fa1 = s.fa0 + 4#32 ∧ s.late = none ∧ s.store1 = none ∧ s.store2 = none
    ∧ s.mapped s.fa0 8 ∧ s.holds s.fa0 (splitWord s.cfg.endian (encode (.brAbs .t 0x400#23)) ++ [0, 0, 0, 0]) := by
  decide

end Sys2Proof.Tests
end

section
/-! The all-zeros word (30_encoding.md R121), as a case of what ADD_RI does with any legal registers (40_ri.md R150). -/

namespace Sys2Proof.Machine

/-! ### Addition with a constant (40_ri.md R140, R141, R150) -/

/-- The effect of an addition, in any format: the sum, its flags under `F`, and no free value. -/
theorem State.aluEffect_add (s : State) (logic : CarryRule) (rd : RegNum) (f : Bool) (a b : Word) :
    s.aluEffect logic .add rd f a b
      = .ok { write := some ⟨rd, a + b⟩, flags := if f then some (sumFlags a b false) else none } := by
  simp [aluEffect, alu, addWithCarry_flags, addWithCarry_r]

theorem exec_addRi (rd rs1 : RegNum) (f h : Bool) (k : BitVec 16) (s : State) :
    exec (.addRi rd rs1 f h k) s = s.ri .add rd rs1 f (riConst h k) := rfl

theorem addRi_outcome (s : State) {rd rs1 : RegNum} (f h : Bool) (k : BitVec 16) (hd : rd ≠ isrReg) (h1 : rs1 ≠ isrReg) :
    AluOutcome (.addRi rd rs1 f h k) s rd (s.x rs1 + riConst h k) f (sumFlags (s.x rs1) (riConst h k) false) false := by
  apply aluOutcome_of_commit
  rw [exec_addRi, State.ri_legal s .add f (riConst h k) hd h1, State.aluEffect_add, Bool.and_false]
  rfl

/-! ### The no-op (30_encoding.md R121) -/

/-- `REG_CONST` bars no write of the value that was read (10_state.md R24): it changes nothing. -/
theorem State.not_constBarred_x (s : State) (r : RegNum) : ¬ s.constBarred r (s.x r) := by
  intro hb
  have hpc : r ≠ pcReg := State.constBarred_ne_pc hb
  obtain ⟨-, -, changed⟩ := hb
  exact changed (s.x_of_ne hpc)

/-- Adding 0 to a register other than the pc, in place and without `F`, writes back the value read and leaves the flags. -/
theorem addRi_zero_in_place (s : State) {r : RegNum} (h : Bool) (hpc : r ≠ pcReg) (hisr : r ≠ isrReg) (hp : ¬ s.pending r) :
    ∃ t, exec (.addRi r r false h 0#16) s = .next t ∧ AluNext s t r (s.x r) s.flags false := by
  have hk : riConst h 0#16 = 0#32 := by cases h <;> rfl
  have hsum : s.x r + riConst h 0#16 = s.x r := by rw [hk, BitVec.add_zero]
  obtain ⟨-, -, -, -, completes⟩ := addRi_outcome s false h 0#16 hisr hisr
  rw [hsum] at completes
  exact completes hp (fun h2 => absurd h2 hpc) (s.not_constBarred_x r)

/-- Settles O20: the word's fields are those of ADD_RI with R0, R0, F = 0, H = 0 and constant 0, and adding 0 in place writes back
what was read, which `REG_CONST` does not bar either. -/
theorem allZerosWordIsTheNoOp : Obligations.AllZerosWordIsTheNoOp := by
  unfold Obligations.AllZerosWordIsTheNoOp
  refine ⟨rfl, fun s hp => ?_⟩
  exact addRi_zero_in_place s false (by decide) (by decide) hp

end Sys2Proof.Machine
end

section
/-! The logical operations (40_ri.md R148): what the shared ALU answers for each, and its result bit by bit. -/

namespace Sys2Proof.Machine

/-! ### One equation per logical operation, for every carry rule a format may give -/

@[simp] theorem alu_and (rule : CarryRule) (a b : Word) (c : Bool) : alu .and rule a b c = some ⟨a &&& b, false, rule⟩ := rfl

@[simp] theorem alu_or (rule : CarryRule) (a b : Word) (c : Bool) : alu .or rule a b c = some ⟨a ||| b, false, rule⟩ := rfl

@[simp] theorem alu_xor (rule : CarryRule) (a b : Word) (c : Bool) : alu .xor rule a b c = some ⟨a ^^^ b, false, rule⟩ := rfl

/-- Settles O32: each operation answers the word operation of its name with overflow false and the format's own carry rule, and
the library's bit rules read that word's bits. -/
theorem logicalOperationsActBitByBit : Obligations.LogicalOperationsActBitByBit := by
  unfold Obligations.LogicalOperationsActBitByBit
  intro a b c rule
  refine ⟨?and, ?or, ?xor⟩
  case and => exact ⟨_, alu_and rule a b c, fun _ _ => BitVec.getLsbD_and, rfl, rfl⟩
  case or => exact ⟨_, alu_or rule a b c, fun _ _ => BitVec.getLsbD_or, rfl, rfl⟩
  case xor => exact ⟨_, alu_xor rule a b c, fun _ _ => BitVec.getLsbD_xor, rfl, rfl⟩

end Sys2Proof.Machine
end

section
/-! The reserved special codes of RR (41_rr.md R192): which JJJJJ name no shift, and that the RR decoder passes the refusal on. -/

namespace Sys2Proof.Machine

/-! ### The special codes (30_encoding.md R103, R116, R118) -/

/-- A field is not zero when one of its bits is set. -/
theorem extractLsb'_ne_zero_iff {n : Nat} (x : BitVec n) (start len : Nat) :
    x.extractLsb' start len ≠ 0#len ↔ ∃ i : Fin len, x.getLsbD (start + i) = true := by
  simp [BitVec.eq_of_getLsbD_eq_iff, BitVec.getLsbD_extractLsb', Fin.exists_iff]

/-- The codes that name no shift: the top bit is 0, or a dash of `10---` or `11---` is set. -/
theorem specialShift_error_iff (j : BitVec 5) :
    (∃ e, specialShift j = .error e) ↔ j.getLsbD 4 = false ∨ j.extractLsb' 0 3 ≠ 0#3 := by
  unfold specialShift
  split
  case isTrue top => exact iff_of_true ⟨_, rfl⟩ (.inl top)
  case isFalse top =>
    split
    case isTrue dash => exact iff_of_true ⟨_, rfl⟩ (.inr dash)
    case isFalse dash => simp only [reduceCtorEq, exists_false, top, dash, or_self]

/-- JJJJJ is bits 7:3 of the word: its top bit is bit 7, its dashes are bits 5:3. -/
theorem specialShift_field_error_iff (w : Word) :
    (∃ e, specialShift (w.extractLsb' 3 5) = .error e) ↔
      w.getLsbD 7 = false ∨ w.getLsbD 5 = true ∨ w.getLsbD 4 = true ∨ w.getLsbD 3 = true := by
  have top : (w.extractLsb' 3 5).getLsbD 4 = w.getLsbD 7 := by simp
  have dashes : (w.extractLsb' 3 5).extractLsb' 0 3 ≠ 0#3 ↔
      w.getLsbD 5 = true ∨ w.getLsbD 4 = true ∨ w.getLsbD 3 = true := by
    rw [extractLsb'_ne_zero_iff]
    simp [Fin.exists_fin_succ, or_comm, or_assoc]
  rw [specialShift_error_iff, top, dashes]

/-! ### The RR words among all words (R101, R103) -/

theorem decodeWord_of_rr {w : Word} (rr : w.extractLsb' 28 4 = 12#4) : decodeWord w = decodeRr w := by
  simp [decodeWord, rr]

/-- With BBB = 111 the RR decoder accepts no word whose JJJJJ names no shift; a reserved bit elsewhere is refused before it. -/
theorem decodeRr_error_of_specialShift {w : Word} (special : w.extractLsb' 8 3 = 7#3)
    (reserved : ∃ e, specialShift (w.extractLsb' 3 5) = .error e) : ∃ e, decodeRr w = .error e := by
  obtain ⟨e, he⟩ := reserved
  unfold decodeRr
  split
  case isTrue => exact ⟨_, rfl⟩
  case isFalse => exact ⟨e, by simp [special, he]⟩

/-- Settles O15: such a word's JJJJJ names no shift, and with BBB = 111 the RR decoder passes that refusal on. -/
theorem reservedRrSpecialsAreNoInstruction : Obligations.ReservedRrSpecialsAreNoInstruction := by
  unfold Obligations.ReservedRrSpecialsAreNoInstruction
  intro w rr special reserved
  rw [decodeWord_of_rr rr]
  exact decodeRr_error_of_specialShift special ((specialShift_field_error_iff w).2 reserved)

end Sys2Proof.Machine
end

section
/-! The condition codes (45_br.md R292): the table, and the `I` bit, which selects the opposite condition. -/

namespace Sys2Proof.Machine

/-- The condition whose name says the contrary: the neighbour in the table that differs in the `I` bit. -/
def oppositeCond : Cond → Cond
  | .t => .f
  | .f => .t
  | .hi => .ls
  | .ls => .hi
  | .cc => .cs
  | .cs => .cc
  | .ne => .eq
  | .eq => .ne
  | .vc => .vs
  | .vs => .vc
  | .pl => .mi
  | .mi => .pl
  | .ge => .lt
  | .lt => .ge
  | .gt => .le
  | .le => .gt

theorem condOfCode_append_one (d : BitVec 3) : condOfCode (d ++ 1#1) = oppositeCond (condOfCode (d ++ 0#1)) := by
  revert d; decide

/-- LT, "N and V differ", is the complement of GE, "N and V agree". -/
theorem holds_lt (fl : Flags) : Cond.holds .lt fl = !Cond.holds .ge fl := by
  simp only [Cond.holds]
  cases fl.n <;> cases fl.v <;> rfl

theorem holds_gt (fl : Flags) : Cond.holds .gt fl = (Cond.holds .ge fl && !fl.z) := by
  simp only [Cond.holds, Bool.and_or_distrib_right]

theorem holds_le (fl : Flags) : Cond.holds .le fl = (fl.z || Cond.holds .lt fl) := by
  simp only [Cond.holds, Bool.or_assoc]

theorem holds_oppositeCond (c : Cond) (fl : Flags) : Cond.holds (oppositeCond c) fl = !Cond.holds c fl := by
  cases c
  case ge => exact holds_lt fl
  case lt => simp [oppositeCond, holds_lt]
  case gt => simp [oppositeCond, holds_gt, holds_le, holds_lt, Bool.or_comm]
  case le => simp [oppositeCond, holds_gt, holds_le, holds_lt, Bool.and_comm]
  all_goals simp [oppositeCond, Cond.holds]

/-- Settles O34: each row is the function `Cond.holds` gives its code; the `I` bit turns a code into that of the opposite condition. -/
theorem conditionTable : Obligations.ConditionTable := by
  unfold Obligations.ConditionTable
  intro fl
  refine ⟨rfl, rfl, rfl, rfl, rfl, rfl, rfl, rfl, rfl, rfl, rfl, rfl, rfl, rfl, rfl, rfl, ?invertSense⟩
  case invertSense =>
    intro d
    rw [condOfCode_append_one, holds_oppositeCond]

end Sys2Proof.Machine
end

section
/-! Which words are SBR (49_sbr.md R346): the mask against the four fields that mark the format, the decoder on the words of its
row, and that no other format decodes to SBR. -/

namespace Sys2Proof.Machine

/-! ### The mask and the fields it holds fixed (R346) -/

/-- The fields that mark an SBR word: bits 31:28 = 1111, 17:8 = 1111000000, 2:1 = 00 and 24:23 = 00. -/
structure SbrMarked (w : Word) : Prop where
  op : w.extractLsb' 28 4 = 15#4
  row : w.extractLsb' 8 10 = 960#10
  low : w.extractLsb' 1 2 = 0#2
  reserved : w.extractLsb' 23 2 = 0#2

/-- A word is its fields put back in their places. -/
theorem word_eq_fields (w : Word) :
    w = w.extractLsb' 28 4 ++ w.extractLsb' 25 3 ++ w.extractLsb' 23 2 ++ w.extractLsb' 18 5 ++ w.extractLsb' 8 10
      ++ w.extractLsb' 3 5 ++ w.extractLsb' 1 2 ++ w.extractLsb' 0 1 := by
  apply BitVec.eq_of_getLsbD_eq; intro i hi
  simp only [BitVec.getLsbD_extractLsb', BitVec.getLsbD_append]
  interval_cases i <;> simp

/-- The code `DDDI` lies in two parts (45_br.md R292). -/
theorem condField_parts (w : Word) :
    (condField w).extractLsb' 1 3 = w.extractLsb' 25 3 ∧ (condField w).extractLsb' 0 1 = w.extractLsb' 0 1 := by
  constructor <;>
  · apply BitVec.eq_of_getLsbD_eq; intro i hi
    simp only [condField, BitVec.getLsbD_extractLsb', BitVec.getLsbD_append]
    interval_cases i <;> simp

/-- A marked word is the encoding of its condition and registers. -/
theorem SbrMarked.eq_encSbr {w : Word} (h : SbrMarked w) :
    w = encSbr (condOfCode (condField w)) (rs1Field w) (rs3Field w) := by
  obtain ⟨op, row, low, reserved⟩ := h
  obtain ⟨ddd, i⟩ := condField_parts w
  rw [encSbr, codeOfCond_condOfCode, ddd, i, rs1Field, rs3Field]
  conv_lhs => rw [word_eq_fields w, op, row, low, reserved]

theorem sbrMarked_encSbr (c : Cond) (rs1 rs3 : RegNum) : SbrMarked (encSbr c rs1 rs3) := by
  obtain ⟨row, low, reserved, -, -, -⟩ := encSbr_marks c rs1 rs3
  exact ⟨encSbr_op c rs1 rs3, row, low, reserved⟩

/-- A field of a word under a mask that keeps it is the word's field. -/
theorem extractLsb'_and_of_allOnes {start len : Nat} {m : Word} (keeps : m.extractLsb' start len = BitVec.allOnes len) (w : Word) :
    (w &&& m).extractLsb' start len = w.extractLsb' start len := by
  rw [BitVec.extractLsb'_and, keeps, BitVec.and_allOnes]

/-- The mask of R346 keeps exactly the marked fields, and the value it must leave is the marked fields of an SBR word. -/
theorem sbr_mask_iff (w : Word) : w &&& 0xF183FF06#32 = 0xF003C000#32 ↔ SbrMarked w := by
  constructor
  case mp =>
    intro masked
    have field {start len : Nat} (keeps : BitVec.extractLsb' start len 0xF183FF06#32 = BitVec.allOnes len) :
        w.extractLsb' start len = BitVec.extractLsb' start len 0xF003C000#32 := by
      rw [← masked, extractLsb'_and_of_allOnes keeps]
    exact ⟨field rfl, field rfl, field rfl, field rfl⟩
  case mpr =>
    intro marked
    rw [marked.eq_encSbr, Laws.encSbr_mask]
    rfl

/-! ### The decoder on the words of SBR's row (30_encoding.md R101, R119) -/

/-- Bits 17 to 15 of a word with bits 17:8 = 1111000000 are set, which leads the `1111` words to the SBR and PUNT row. -/
theorem decodeF_of_sbr_row {w : Word} (row : w.extractLsb' 8 10 = 960#10) : decodeF w = decodeSbrPunt w := by
  have bit (i : Nat) (hi : i < 10) : w.getLsbD (8 + i) = (960#10).getLsbD i := by
    rw [← row, BitVec.getLsbD_extractLsb', decide_eq_true hi, Bool.true_and]
  have h17 : w.getLsbD 17 = true := bit 9 (by decide)
  have h16 : w.getLsbD 16 = true := bit 8 (by decide)
  have h15 : w.getLsbD 15 = true := bit 7 (by decide)
  simp only [decodeF, h17, h16, h15, Bool.true_eq_false, if_false]

theorem decodeWord_of_sbr_row {w : Word} (op : w.extractLsb' 28 4 = 15#4) (row : w.extractLsb' 8 10 = 960#10) :
    decodeWord w =
      if w.extractLsb' 1 2 ≠ 0#2 then .error .unassignedWord
      else if w.extractLsb' 23 2 ≠ 0#2 then .error .reservedBit
      else .ok (.sbr (condOfCode (condField w)) (rs1Field w) (rs3Field w)) := by
  have toF : decodeWord w = decodeF w := by simp [decodeWord, op]
  have notPunt : (960#10 : BitVec 10) ≠ 1023#10 := by decide
  rw [toF, decodeF_of_sbr_row row, decodeSbrPunt, row]
  by_cases low : w.extractLsb' 1 2 = 0#2 <;> simp [low, notPunt]

theorem decodeWord_of_sbrMarked {w : Word} (h : SbrMarked w) :
    decodeWord w = .ok (.sbr (condOfCode (condField w)) (rs1Field w) (rs3Field w)) := by
  rw [decodeWord_of_sbr_row h.op h.row, if_neg (not_not_intro h.low), if_neg (not_not_intro h.reserved)]

/-- A set bit among 24, 23, 2 and 1 leaves no SBR word, and no other instruction has this row. -/
theorem decodeWord_error_of_sbr_row {w : Word} (op : w.extractLsb' 28 4 = 15#4) (row : w.extractLsb' 8 10 = 960#10)
    (unmarked : ¬ SbrMarked w) : ∃ e, decodeWord w = .error e := by
  rw [decodeWord_of_sbr_row op row]
  split
  case isTrue => exact ⟨_, rfl⟩
  case isFalse low =>
    split
    case isTrue => exact ⟨_, rfl⟩
    case isFalse reserved => exact absurd ⟨op, row, not_not.1 low, not_not.1 reserved⟩ unmarked

/-! ### No other format decodes to SBR (R101) -/

theorem decodeRi_ne_sbr (w : Word) (c : Cond) (rs1 rs3 : RegNum) : decodeRi w ≠ .sbr c rs1 rs3 := by
  unfold decodeRi
  repeat' split
  all_goals nofun

theorem decodeRr_ne_sbr (w : Word) (c : Cond) (rs1 rs3 : RegNum) : decodeRr w ≠ .ok (.sbr c rs1 rs3) := by
  unfold decodeRr
  repeat' split
  all_goals nofun

theorem decodeRrr_ne_sbr (w : Word) (c : Cond) (rs1 rs3 : RegNum) : decodeRrr w ≠ .sbr c rs1 rs3 := by
  unfold decodeRrr
  repeat' split
  all_goals nofun

theorem decodeRrmLoad_ne_sbr (w : Word) (c : Cond) (rs1 rs3 : RegNum) : decodeRrmLoad w ≠ .ok (.sbr c rs1 rs3) := by
  unfold decodeRrmLoad rrmLoadOf
  repeat' split
  all_goals nofun

theorem decodeRrmStore_ne_sbr (w : Word) (c : Cond) (rs1 rs3 : RegNum) : decodeRrmStore w ≠ .ok (.sbr c rs1 rs3) := by
  unfold decodeRrmStore rrmStoreOf
  repeat' split
  all_goals nofun

theorem decodeBr_ne_sbr (w : Word) (c : Cond) (rs1 rs3 : RegNum) : decodeBr w ≠ .sbr c rs1 rs3 := by
  unfold decodeBr
  split
  all_goals nofun

theorem decodeSpls_ne_sbr (w : Word) (c : Cond) (rs1 rs3 : RegNum) : decodeSpls w ≠ .sbr c rs1 rs3 := by
  unfold decodeSpls
  split
  all_goals nofun

/-- Among the words of the SBR and PUNT row only those that pass the first test can be SBR. -/
theorem decodeSbrPunt_sbr {w : Word} {c : Cond} {rs1 rs3 : RegNum} (h : decodeSbrPunt w = .ok (.sbr c rs1 rs3)) :
    w.extractLsb' 8 10 = 960#10 ∧ w.extractLsb' 1 2 = 0#2 ∧ w.extractLsb' 23 2 = 0#2 := by
  unfold decodeSbrPunt at h
  split at h
  case isTrue marks =>
    obtain ⟨row, low⟩ := marks
    split at h
    case isTrue => cases h
    case isFalse reserved => exact ⟨row, low, not_not.1 reserved⟩
  case isFalse =>
    split at h
    case isTrue => split at h <;> cases h
    case isFalse => cases h

/-- Among the `1111` words only those of the SBR and PUNT row can be SBR. -/
theorem decodeF_sbr {w : Word} {c : Cond} {rs1 rs3 : RegNum} (h : decodeF w = .ok (.sbr c rs1 rs3)) :
    decodeSbrPunt w = .ok (.sbr c rs1 rs3) := by
  unfold decodeF at h
  split at h
  case isTrue => split at h <;> cases h
  case isFalse =>
    split at h
    case isTrue => cases h
    case isFalse =>
      split at h
      case isTrue => exact absurd (Except.ok.inj h) (decodeSpls_ne_sbr w c rs1 rs3)
      case isFalse => exact h

theorem sbrMarked_of_decodeWord {w : Word} {c : Cond} {rs1 rs3 : RegNum} (h : decodeWord w = .ok (.sbr c rs1 rs3)) :
    SbrMarked w := by
  unfold decodeWord at h
  split at h
  case h_1 | h_2 => cases h
  case h_3 => exact absurd h (decodeRrmLoad_ne_sbr w c rs1 rs3)
  case h_4 => exact absurd h (decodeRrmStore_ne_sbr w c rs1 rs3)
  case h_5 => exact absurd h (decodeRr_ne_sbr w c rs1 rs3)
  case h_6 => exact absurd (Except.ok.inj h) (decodeRrr_ne_sbr w c rs1 rs3)
  case h_7 => exact absurd (Except.ok.inj h) (decodeBr_ne_sbr w c rs1 rs3)
  case h_8 op =>
    obtain ⟨row, low, reserved⟩ := decodeSbrPunt_sbr (decodeF_sbr h)
    exact ⟨BitVec.eq_of_toNat_eq op, row, low, reserved⟩
  case h_9 => exact absurd (Except.ok.inj h) (decodeRi_ne_sbr w c rs1 rs3)

theorem sbrMarked_iff_decodeWord (w : Word) : SbrMarked w ↔ ∃ c rs1 rs3, decodeWord w = .ok (.sbr c rs1 rs3) :=
  ⟨fun marked => ⟨_, _, _, decodeWord_of_sbrMarked marked⟩, fun ⟨_, _, _, h⟩ => sbrMarked_of_decodeWord h⟩

/-! ### The two sentences of R346 -/

/-- A marked word has bits 24, 23, 2 and 1 clear. -/
theorem SbrMarked.bits_clear {w : Word} (h : SbrMarked w) :
    ¬ (w.getLsbD 24 = true ∨ w.getLsbD 23 = true ∨ w.getLsbD 2 = true ∨ w.getLsbD 1 = true) := by
  have clear23 := not_imp_not.2 (extractLsb'_ne_zero_iff w 23 2).2 (not_not_intro h.reserved)
  have clear1 := not_imp_not.2 (extractLsb'_ne_zero_iff w 1 2).2 (not_not_intro h.low)
  rintro (bit24 | bit23 | bit2 | bit1)
  · exact clear23 ⟨1, bit24⟩
  · exact clear23 ⟨0, bit23⟩
  · exact clear1 ⟨1, bit2⟩
  · exact clear1 ⟨0, bit1⟩

/-- Settles O18: the mask and the decoder select the same marked words; on SBR's row a word that is not marked is refused. -/
theorem sbrWordsAreExactlyTheMaskedOnes : Obligations.SbrWordsAreExactlyTheMaskedOnes := by
  unfold Obligations.SbrWordsAreExactlyTheMaskedOnes
  intro w
  refine ⟨(sbr_mask_iff w).trans (sbrMarked_iff_decodeWord w), fun op row bits => ?_⟩
  exact decodeWord_error_of_sbr_row op row fun marked => marked.bits_clear bits

end Sys2Proof.Machine
end

section
/-! The invariant of the machine, from one completed step to the next (10_state.md R23, R24, R31, R36, 20_memory.md R61, R64, R74):
each clause of `State.Inv` follows from the shape of the effect that landed. -/

namespace Sys2Proof.Machine

/-! ### Memory and remembered stores (20_memory.md R60, R61, R72) -/

/-- The bytes of a store of legal shape end inside the 32-bit address space. -/
theorem Span.ok_end_le {sp : Span} (h : sp.ok) : sp.addr.toNat + sp.len ≤ 4294967296 := by
  obtain ⟨hlen, haligned⟩ := h
  have hlt : sp.addr.toNat < 4294967296 := sp.addr.isLt
  rcases hlen with hlen | hlen | hlen <;> rw [hlen] at haligned ⊢ <;> omega

theorem State.advance_mem_wf {s : State} {i : Instr} {e : Effect} (hfit : Effect.Fits i s e) (h : Memory.wf s.mem = true) :
    Memory.wf (s.advance e).mem = true :=
  memAfter_wf h fun st hst => Span.ok_end_le (hfit.stored st hst).1

/-- A step lists no address that `MEM_MAP` does not admit. -/
theorem State.advance_mem_admitted {s : State} {i : Instr} {e : Effect} (hfit : Effect.Fits i s e)
    (h : ∀ c ∈ s.mem, Config.admits s.cfg c.1 = true) : ∀ c ∈ (s.advance e).mem, Config.admits s.cfg c.1 = true := by
  intro c hc
  rw [State.advance_mem] at hc
  cases hst : e.store with
  | none => rw [hst] at hc; exact h c hc
  | some st =>
    rw [hst] at hc
    rcases Memory.mem_of_mem_setBytes hc with ⟨hlo, hhi⟩ | hold
    · have hadm := (hfit.stored st hst).2 (c.1 - st.addr.toNat) (by omega)
      rwa [Nat.add_sub_cancel' hlo] at hadm
    · exact h c hold

theorem State.advance_store1_ok {s : State} {i : Instr} {e : Effect} (hfit : Effect.Fits i s e) :
    ∀ sp ∈ (s.advance e).store1, sp.ok := by
  intro sp hsp
  obtain ⟨st, hst, rfl⟩ := Option.map_eq_some_iff.1 hsp
  exact (hfit.stored st hst).1

/-! ### Fetch addresses (20_memory.md R64, 10_state.md R36) -/

theorem pcTarget_eq_some {w : Option RegWrite} {v : Word} (h : pcTarget w = some v) : w = some ⟨pcReg, v⟩ := by
  cases w with
  | none => cases h
  | some w =>
    obtain ⟨r, u⟩ := w
    simp only [pcTarget] at h
    split at h <;> simp_all

/-- The fetch address after next is a multiple of 4 when the instruction's write, the pending late write and `fa1` are legal. -/
theorem nextFetch_aligned {fa1 : Word} {late write : Option RegWrite} (hw : pcAligned write = true)
    (hl : ∀ w ∈ late, w.reg = pcReg → w.val.toNat % 4 = 0) (h1 : fa1.toNat % 4 = 0) :
    (nextFetch fa1 late write).toNat % 4 = 0 := by
  unfold nextFetch
  split
  case h_1 v hv =>
    rw [pcTarget_eq_some hv, pcAligned_some] at hw
    exact hw rfl
  case h_2 =>
    split
    case h_1 v hv => exact hl ⟨pcReg, v⟩ (pcTarget_eq_some hv) rfl
    case h_2 => rw [BitVec.toNat_add]; simp; omega

/-! ### Constant registers (10_state.md R24) -/

theorem State.Lands.write_val {s : State} {e : Effect} (h : s.Lands e) (hc : s.cfg.regConst = .zeroOnes) {w : RegWrite}
    (hw : e.write = some w) (hr : w.reg = 0 ∨ w.reg = 1) : w.val = s.reg w.reg := by
  have hfree : ¬ s.constBarred w.reg w.val := by
    rw [← State.barsConst_some, ← hw, h.writeConst]; exact Bool.false_ne_true
  exact not_not.1 fun hne => hfree ⟨hc, hr, hne⟩

theorem State.Lands.late_val {s : State} {e : Effect} (h : s.Lands e) (hc : s.cfg.regConst = .zeroOnes) {w : RegWrite}
    (hw : e.late = some w) (hr : w.reg = 0 ∨ w.reg = 1) : w.val = s.reg w.reg := by
  have hfree : ¬ s.constBarred w.reg w.val := by
    rw [← State.barsConst_some, ← hw, h.lateConst]; exact Bool.false_ne_true
  exact not_not.1 fun hne => hfree ⟨hc, hr, hne⟩

theorem State.landed_of_forall {s : State} {r : RegNum} (h : ∀ w ∈ s.late, w.reg = r → w.val = s.reg r) : s.landed r = s.reg r := by
  unfold State.landed
  split
  case h_1 w hw => split <;> simp_all
  case h_2 => rfl

/-- Under `REG_CONST` = `zeroOnes` neither the write of a step nor the late write that lands in it changes R0 or R1. -/
theorem State.Lands.reg_const {s : State} {e : Effect} (h : s.Lands e) (hc : s.cfg.regConst = .zeroOnes)
    (hl : ∀ w ∈ s.late, w.reg = 0 ∨ w.reg = 1 → w.val = s.reg w.reg) {r : RegNum} (hr : r = 0 ∨ r = 1) :
    (s.advance e).reg r = s.reg r := by
  have hpc : r ≠ pcReg := by rcases hr with rfl | rfl <;> decide
  have hlanded : s.landed r = s.reg r := State.landed_of_forall fun w hw hwr => by subst hwr; exact hl w hw hr
  rw [s.advance_reg e hpc]
  split
  case h_1 w hw =>
    split
    case isTrue hwr => subst hwr; exact h.write_val hc hw hr
    case isFalse => exact hlanded
  case h_2 => exact hlanded

/-! ### The step -/

theorem State.Lands.late_aligned {s : State} {e : Effect} (h : s.Lands e) {w : RegWrite} (hw : e.late = some w)
    (hpc : w.reg = pcReg) : w.val.toNat % 4 = 0 := by
  have ha := h.lateAligned
  rw [hw] at ha
  exact (pcAligned_some w.reg w.val).1 ha hpc

/-- An effect of an instruction's shape that lands keeps the invariant. -/
theorem State.advance_inv {s : State} {i : Instr} {e : Effect} (hfit : Effect.Fits i s e) (hland : s.Lands e) (hinv : s.Inv) :
    (s.advance e).Inv := by
  obtain ⟨hwf, hadm, -, hfa1, hlate, hst1, -, hconst⟩ := hinv
  refine ⟨State.advance_mem_wf hfit hwf, State.advance_mem_admitted hfit hadm, hfa1, ?fetch, ?late,
    State.advance_store1_ok hfit, hst1, ?const⟩
  case fetch => exact nextFetch_aligned hland.writeAligned (fun w hw => (hlate w hw).2) hfa1
  case late =>
    intro w hw
    exact ⟨(hfit.late w hw).1, hland.late_aligned hw⟩
  case const =>
    intro hc
    obtain ⟨h0, h1, hpend⟩ := hconst hc
    have hreg {r : RegNum} (hr : r = 0 ∨ r = 1) : (s.advance e).reg r = s.reg r := hland.reg_const hc hpend hr
    refine ⟨(hreg (.inl rfl)).trans h0, (hreg (.inr rfl)).trans h1, fun w hw hr => ?_⟩
    rw [hreg hr]
    exact hland.late_val hc hw hr

/-- Settles O4: a completed step is an instruction's effect that landed. -/
theorem everyStepKeepsInvariant : Obligations.EveryStepKeepsInvariant := by
  unfold Obligations.EveryStepKeepsInvariant
  intro s t hinv hstep
  obtain ⟨i, hexec⟩ := step_next hstep
  obtain ⟨e, hfit, hland, rfl⟩ := exec_next hexec
  exact State.advance_inv hfit hland hinv

/-! ### Launches (70_reset_and_hazards.md R392, 10_state.md R40) -/

theorem Launch.state_inv {l : Launch} (h : l.ok) : l.state.Inv := by
  obtain ⟨hpc, hwf, hadm, hconst⟩ := h
  refine ⟨hwf, hadm, hpc, ?_, nofun, nofun, nofun, fun hc => ?_⟩
  · rw [Launch.state_fa1, BitVec.toNat_add]; simp; omega
  · obtain ⟨h0, h1⟩ := hconst hc
    exact ⟨h0, h1, nofun⟩

theorem Launch.atReset_ok : Launch.atReset.ok := by
  refine ⟨rfl, rfl, nofun, nofun⟩

/-- Settles O3: reset is one of the launches that give what they must. -/
theorem resetMeetsInvariant : Obligations.ResetMeetsInvariant := by
  unfold Obligations.ResetMeetsInvariant
  exact ⟨Launch.state_inv Launch.atReset_ok, fun _ => Launch.state_inv⟩

/-- Settles O1. -/
theorem resetFetchesInSequenceWithNothingLate : Obligations.ResetFetchesInSequenceWithNothingLate := by
  unfold Obligations.ResetFetchesInSequenceWithNothingLate
  exact ⟨fun l => ⟨l.state_late, l.state_fa0, l.state_fa1⟩, rfl, rfl⟩

/-- Settles O2: the cells of the register file all hold 0, and `MEM_MAP` at reset is the one region of every 32-bit address. -/
theorem resetHoldsTheChosenValues : Obligations.ResetHoldsTheChosenValues := by
  unfold Obligations.ResetHoldsTheChosenValues
  have hregs (r : RegNum) : State.reset.reg r = 0#32 := by
    simp [State.reg, State.reset, Launch.atReset]
  have hmap (a : Nat) : Config.admits State.reset.cfg a = true ↔ a < 4294967296 := by
    simp [Config.admits, State.reset, Launch.atReset, Config.atReset]
  have hpc : State.reset.x pcReg = State.reset.fa1 := (State.x_pc _).trans (pcRead_decided _ _)
  exact ⟨fun r _ => hregs r, rfl, rfl, rfl, fun _ => rfl, hmap, rfl, rfl, rfl, rfl, rfl, rfl, hpc, rfl, rfl⟩

/-- Settles O36. -/
theorem registerReadGivesStoredValueOrNextFetch : Obligations.RegisterReadGivesStoredValueOrNextFetch := by
  unfold Obligations.RegisterReadGivesStoredValueOrNextFetch
  intro s r
  rw [State.x_pc]
  refine ⟨fun h => ?next, fun h => ?own, fun h => ?decided, s.x_of_ne⟩
  case next => simp [pcRead, h]
  case own => simp [pcRead, h]
  case decided => rw [h, pcRead_decided]

end Sys2Proof.Machine
end

section
/-! Fetch and the step (10_state.md R31, 20_memory.md R64, R70, R74): what fetch refuses, what it reads, and memory read back after a
store, by a load and by a later fetch. -/

namespace Sys2Proof.Machine

/-! ### Fetch (R31 step 1, R64, R74) -/

theorem State.fetch_of_storedRecently {s : State} (h : s.storedRecently s.fa0 = true) :
    s.fetch = .error (.refuse .fetchAfterStore) := by
  simp [fetch, h, bind, Except.bind]

theorem State.fetch_of_not_storedRecently {s : State} (h : s.storedRecently s.fa0 = false) : s.fetch = s.readWord s.fa0 := by
  simp [fetch, h, bind, Except.bind]

theorem State.storedRecently_iff (s : State) (a : Word) :
    s.storedRecently a = true ↔ ∃ sp, (s.store1 = some sp ∨ s.store2 = some sp) ∧ sp.overlaps a = true := by
  simp only [storedRecently, Bool.or_eq_true, Option.any_eq_true, or_and_right, exists_or]

theorem Span.overlaps_iff (sp : Span) (a : Word) :
    sp.overlaps a = true ↔ sp.addr.toNat < a.toNat + 4 ∧ a.toNat < sp.addr.toNat + sp.len := by
  simp [overlaps]

theorem step_of_storedRecently {s : State} (h : s.storedRecently s.fa0 = true) : step s = .refused .fetchAfterStore := by
  simp only [step, State.fetch_of_storedRecently h]; rfl

theorem step_of_fetch {s : State} {w : Word} {i : Instr} (hw : s.fetch = .ok w) (hi : decodeWord w = .ok i) : step s = exec i s := by
  simp only [step, hw, hi]

theorem step_of_undecodable {s : State} {w : Word} {e : DecodeError} (hw : s.fetch = .ok w) (he : decodeWord w = .error e) :
    step s = .refused (.undecodable e) := by
  simp only [step, hw, he]

/-- A fullword load is a fullword read (43_rm.md R230). -/
theorem State.memLoad_w (s : State) (ea : Word) : s.memLoad ea .w = s.readWord ea := rfl

theorem State.readWord_of_holds {s : State} {ea : Word} {b0 b1 b2 b3 : Byte} (ha : ea.toNat % 4 = 0) (hm : s.mapped ea 4)
    (hb : s.holds ea [b0, b1, b2, b3]) : s.readWord ea = .ok (joinWord s.cfg.endian b0 b1 b2 b3) := by
  rw [← memLoad_w]
  exact memLoad_datum ha hm ⟨b0, b1, b2, b3, hb, joinWord_eq _ _ _ _ _⟩

theorem decode_eq_ok {e : Endian} {b0 b1 b2 b3 : Byte} {tail rest : List Byte} {i : Instr} :
    decode e (b0 :: b1 :: b2 :: b3 :: tail) = .ok (i, rest) ↔ decodeWord (joinWord e b0 b1 b2 b3) = .ok i ∧ rest = tail := by
  simp only [decode]
  cases decodeWord (joinWord e b0 b1 b2 b3) <;> simp [eq_comm]

theorem decode_eq_error {e : Endian} {b0 b1 b2 b3 : Byte} {tail : List Byte} {r : DecodeError} :
    decode e (b0 :: b1 :: b2 :: b3 :: tail) = .error r ↔ decodeWord (joinWord e b0 b1 b2 b3) = .error r := by
  simp only [decode]
  cases decodeWord (joinWord e b0 b1 b2 b3) <;> simp

/-- Settles O5: fetch joins the four bytes in the byte order that the decoder joins them in. -/
theorem stepExecutesDecodedInstruction : Obligations.StepExecutesDecodedInstruction := by
  unfold Obligations.StepExecutesDecodedInstruction
  intro s b0 b1 b2 b3 i rest hst ha hm hb hd
  have hfetch := (State.fetch_of_not_storedRecently hst).trans (State.readWord_of_holds ha hm hb)
  exact step_of_fetch hfetch (decode_eq_ok.1 hd).1

/-- Settles O6. -/
theorem stepRefusesUndecodableWord : Obligations.StepRefusesUndecodableWord := by
  unfold Obligations.StepRefusesUndecodableWord
  intro s b0 b1 b2 b3 e hst ha hm hb hd
  have hfetch := (State.fetch_of_not_storedRecently hst).trans (State.readWord_of_holds ha hm hb)
  exact step_of_undecodable hfetch (decode_eq_error.1 hd)

/-! ### The window of two instructions (R74, D25) -/

/-- Settles O7. -/
theorem fetchOfRecentlyStoredWordIsRefused : Obligations.FetchOfRecentlyStoredWordIsRefused := by
  unfold Obligations.FetchOfRecentlyStoredWordIsRefused
  intro s sp hst hlo hhi
  exact step_of_storedRecently ((s.storedRecently_iff _).2 ⟨sp, hst, (sp.overlaps_iff _).2 ⟨hlo, hhi⟩⟩)

/-- A step that finds a byte of its word in a remembered store is refused. -/
theorem step_of_remembered_byte {s : State} {sp : Span} {a : Nat} (hst : s.store1 = some sp ∨ s.store2 = some sp)
    (hsp : sp.addr.toNat ≤ a ∧ a < sp.addr.toNat + sp.len) (hlo : s.fa0.toNat ≤ a) (hhi : a < s.fa0.toNat + 4) :
    step s = .refused .fetchAfterStore :=
  fetchOfRecentlyStoredWordIsRefused s sp hst (by omega) (by omega)

/-- A byte that an instruction changed lies in the store it is remembered for. -/
theorem exec_changed_remembered {i : Instr} {s t : State} {a : Nat} (h : exec i s = .next t) (hne : t.mem.get a ≠ s.mem.get a) :
    ∃ sp, t.store1 = some sp ∧ sp.addr.toNat ≤ a ∧ a < sp.addr.toNat + sp.len := by
  obtain ⟨e, -, -, rfl⟩ := exec_next h
  cases hst : e.store with
  | none => exact absurd ((s.advance_memorySame hst).bytes a) hne
  | some st =>
    have hmem := s.advance_memoryStored hst
    refine ⟨_, hmem.remembered, ?_⟩
    by_contra hout
    exact hne (hmem.others a (by simp only at hout; omega))

theorem exec_window {i : Instr} {s t : State} (h : exec i s = .next t) : t.store2 = s.store1 := by
  obtain ⟨e, -, -, rfl⟩ := exec_next h
  rfl

/-- Settles O8: the change is remembered, first as `store1`, then as `store2`. -/
theorem changedBytesAreNotFetchedForTwoSteps : Obligations.ChangedBytesAreNotFetchedForTwoSteps := by
  unfold Obligations.ChangedBytesAreNotFetchedForTwoSteps
  intro s t u i j a hi hne
  obtain ⟨sp, hst, hsp⟩ := exec_changed_remembered hi hne
  exact ⟨step_of_remembered_byte (.inl hst) hsp, fun hj => step_of_remembered_byte (.inr ((exec_window hj).trans hst)) hsp⟩

/-! ### Memory read back (R62, R63, R65, R67, R68) -/

/-- What a run of stored bytes leaves at its address. -/
theorem State.holds_of_setBytes {t : State} {m : Memory} {ea : Word} {bs : List Byte} (h : t.mem = m.setBytes ea.toNat bs) :
    t.holds ea bs := by
  intro i hi
  simp [h, Memory.get_setBytes, hi]

/-- The bytes a store lays out make, for a load of the same width, the part of the register it stored, extended (R67, R68). -/
theorem State.datum_of_holds_layout {s : State} {ea v : Word} {ty : StoreType} {ty' : LoadType} (hlen : storeLen ty = loadLen ty')
    (h : s.holds ea (layout s.cfg.endian ty v)) : s.datum ea ty' (loadedBack ty' v) := by
  have half : v.extractLsb' 8 8 ++ v.extractLsb' 0 8 = v.extractLsb' 0 16 := by
    rw [BitVec.extractLsb'_append_extractLsb'_eq_extractLsb' (by decide)]
  cases ty <;> cases ty' <;> simp only [storeLen, loadLen, Nat.reduceEqDiff] at hlen
  case w.w =>
    cases he : s.cfg.endian <;> rw [he] at h
    case big => exact ⟨_, _, _, _, h, by simpa [he, joinWord, loadedBack] using (join_big v).symm⟩
    case little => exact ⟨_, _, _, _, h, by simpa [he, joinWord, loadedBack] using (join_little v).symm⟩
  case h.h | h.hz =>
    cases he : s.cfg.endian <;> rw [he] at h <;> exact ⟨_, _, h, by simp [he, loadedBack, half]⟩
  case b.b | b.bz =>
    cases he : s.cfg.endian <;> rw [he] at h <;> exact ⟨_, h, rfl⟩

/-- What a store made ready says of its address and its bytes. -/
theorem State.memStore_ready {s : State} {ea v : Word} {ty : StoreType} {st : Store} (h : s.memStore ea ty v = .ok st) :
    ea.toNat % storeLen ty = 0 ∧ s.mapped ea (storeLen ty) ∧ st = ⟨ea, layout s.cfg.endian ty v⟩ := by
  rcases s.memStore_cases ea ty v with ⟨-, e⟩ | ⟨-, -, e⟩ | ⟨ha, hm, e⟩
  · rw [e] at h; cases h
  · rw [e] at h; cases h
  · rw [e] at h; cases h
    exact ⟨ha, hm, by rw [storeBytes_eq_layout]⟩

/-- A load at the address of a store of the same width, from the memory the store left, reads the stored part back. -/
theorem State.memLoad_after_memStore {s t : State} {ea v : Word} {ty : StoreType} {ty' : LoadType} {st : Store}
    (h : s.memStore ea ty v = .ok st) (hmem : t.mem = memAfter s.mem (some st)) (hcfg : t.cfg = s.cfg)
    (hlen : storeLen ty = loadLen ty') : t.memLoad ea ty' = .ok (loadedBack ty' v) := by
  obtain ⟨ha, hm, rfl⟩ := State.memStore_ready h
  rw [← hcfg] at hmem
  refine memLoad_datum (hlen ▸ ha) ?_ (datum_of_holds_layout hlen (holds_of_setBytes hmem))
  rw [← hlen]
  unfold State.mapped
  rw [hcfg]
  exact hm

/-! ### A load right after a store (43_rm.md R232, R70) -/

/-- Settles O49: the load reads the memory that the store left at the same address. -/
theorem loadRightAfterStoreSeesIt : Obligations.LoadRightAfterStoreSeesIt := by
  unfold Obligations.LoadRightAfterStoreSeesIt
  intro s t u i j rd rd' ty ty' ea hst hld hlen hea hea' hi hj
  obtain ⟨ea1, st, e, hea1, hmst, hest, rfl⟩ := exec_store_next hst hi
  obtain ⟨ea2, v, e', hea2, hmld, -, hlate, -, rfl⟩ := exec_load_next hld hj
  obtain rfl : ea1 = ea := Option.some.inj (hea1.symm.trans hea)
  obtain rfl : ea2 = ea1 := Option.some.inj (hea2.symm.trans hea')
  have hback : (s.advance e).memLoad ea2 ty' = .ok (loadedBack ty' (s.x rd)) :=
    State.memLoad_after_memStore hmst (by rw [State.advance_mem, hest]) rfl hlen
  rw [State.advance_late, hlate, Except.ok.inj (hmld.symm.trans hback)]

/-! ### Parts of a stored fullword (R65, D18) -/

theorem State.readByte_of_get {s : State} {ea : Word} {b : Byte} (hm : s.mapped ea 1) (hb : s.mem.get ea.toNat = some b) :
    s.readByte ea = .ok b := by
  simp [readByte, access_ok (Nat.mod_one _) hm, byteAt, hb, bind, Except.bind]

theorem State.readHalf_of_get {s : State} {ea : Word} {b0 b1 : Byte} (ha : ea.toNat % 2 = 0) (hm : s.mapped ea 2)
    (h0 : s.mem.get ea.toNat = some b0) (h1 : s.mem.get (ea.toNat + 1) = some b1) :
    s.readHalf ea = .ok (joinHalf s.cfg.endian b0 b1) := by
  simp [readHalf, access_ok ha hm, byteAt, h0, h1, bind, Except.bind]

/-- An address inside an aligned fullword does not wrap. -/
theorem toNat_add_of_aligned {ea : Word} (ha : ea.toNat % 4 = 0) {n : Nat} (hn : n < 4) :
    (ea + BitVec.ofNat 32 n).toNat = ea.toNat + n := by
  have hlt : ea.toNat < 4294967296 := ea.isLt
  rw [BitVec.toNat_add, BitVec.toNat_ofNat]
  omega

/-- The part of an admitted fullword from its byte `n` on is admitted. -/
theorem State.mapped_part {s : State} {ea : Word} (ha : ea.toNat % 4 = 0) (hm : s.mapped ea 4) {n len : Nat} (hn : n < 4)
    (hlen : n + len ≤ 4) : s.mapped (ea + BitVec.ofNat 32 n) len := by
  intro i hi
  rw [toNat_add_of_aligned ha hn, Nat.add_assoc]
  exact hm (n + i) (by omega)

/-- A byte of a fullword held in big-endian order is read at its place. -/
theorem State.readByte_part {s : State} {ea : Word} {bs : List Byte} (ha : ea.toNat % 4 = 0) (hm : s.mapped ea 4)
    (hb : s.holds ea bs) {n : Nat} (hn : n < 4) (hbs : n < bs.length) : s.readByte (ea + BitVec.ofNat 32 n) = .ok bs[n] := by
  refine readByte_of_get (mapped_part ha hm hn (by omega)) ?_
  rw [toNat_add_of_aligned ha hn]
  exact hb n hbs

/-- A halfword of a fullword held in memory is read at its place. -/
theorem State.readHalf_part {s : State} {ea : Word} {bs : List Byte} (ha : ea.toNat % 4 = 0) (hm : s.mapped ea 4)
    (hb : s.holds ea bs) {n : Nat} (hn : n + 1 < 4) (h2 : n % 2 = 0) (hbs : n + 1 < bs.length) :
    s.readHalf (ea + BitVec.ofNat 32 n) = .ok (joinHalf s.cfg.endian bs[n] bs[n + 1]) := by
  have haddr := toNat_add_of_aligned ha (show n < 4 by omega)
  refine readHalf_of_get (by omega) (mapped_part ha hm (by omega) (by omega)) ?_ ?_
  · rw [haddr]; exact hb n (by omega)
  · rw [haddr, Nat.add_assoc]; exact hb (n + 1) hbs

/-- The bytes and halfwords of a fullword held in big-endian order, the most significant first. -/
theorem State.read_parts_big {s : State} {ea v : Word} (ha : ea.toNat % 4 = 0) (hm : s.mapped ea 4) (he : s.cfg.endian = .big)
    (hb : s.holds ea (layout .big .w v)) :
    s.readByte ea = .ok (v.extractLsb' 24 8) ∧ s.readByte (ea + 3#32) = .ok (v.extractLsb' 0 8)
    ∧ s.readHalf ea = .ok (v.extractLsb' 16 16) ∧ s.readHalf (ea + 2#32) = .ok (v.extractLsb' 0 16) := by
  have high : v.extractLsb' 24 8 ++ v.extractLsb' 16 8 = v.extractLsb' 16 16 := by
    rw [BitVec.extractLsb'_append_extractLsb'_eq_extractLsb' (by decide)]
  have low : v.extractLsb' 8 8 ++ v.extractLsb' 0 8 = v.extractLsb' 0 16 := by
    rw [BitVec.extractLsb'_append_extractLsb'_eq_extractLsb' (by decide)]
  refine ⟨?byteFirst, ?byteLast, ?halfFirst, ?halfLast⟩
  case byteFirst => simpa [layout] using readByte_part ha hm hb (n := 0) (by decide) (by simp [layout])
  case byteLast => exact readByte_part ha hm hb (n := 3) (by decide) (by simp [layout])
  case halfFirst => simpa [layout, he, joinHalf, high] using readHalf_part ha hm hb (n := 0) (by decide) rfl (by simp [layout])
  case halfLast => simpa [layout, he, joinHalf, low] using readHalf_part ha hm hb (n := 2) (by decide) rfl (by simp [layout])

/-- Settles O48: the four bytes lie at `ea` in the order of the byte order. -/
theorem partsReadBackAfterWordStore : Obligations.PartsReadBackAfterWordStore := by
  unfold Obligations.PartsReadBackAfterWordStore
  intro s ea v st hst t
  refine ⟨State.memLoad_after_memStore (t := t) (ty' := .w) hst rfl rfl rfl, fun hbig => ?_⟩
  obtain ⟨ha, hm, rfl⟩ := State.memStore_ready hst
  exact State.read_parts_big (s := t) ha hm hbig (State.holds_of_setBytes (m := s.mem) (by rw [← hbig]; rfl))

/-! ### Fetch from the third instruction after a store on (R70, R74) -/

theorem exec_cfg {i : Instr} {s t : State} (h : exec i s = .next t) : t.cfg = s.cfg := by
  obtain ⟨e, -, -, rfl⟩ := exec_next h
  rfl

/-- An instruction that is no store leaves every byte of memory, and no store is remembered for it (R63, R78). -/
theorem exec_memorySame {i : Instr} {s t : State} (h : exec i s = .next t) (hst : i.stores = false) : MemorySame s t := by
  obtain ⟨e, hfit, -, rfl⟩ := exec_next h
  exact s.advance_memorySame (hfit.store hst)

theorem Executes.bytes_cfg {is : List Instr} {s t : State} (h : Executes is s t) (hst : ∀ j ∈ is, j.stores = false) :
    (∀ a, t.mem.get a = s.mem.get a) ∧ t.cfg = s.cfg := by
  induction is generalizing s with
  | nil => cases h; exact ⟨fun _ => rfl, rfl⟩
  | cons i is ih =>
    obtain ⟨u, hi, h⟩ := h
    obtain ⟨hbytes, hcfg⟩ := ih h fun j hj => hst j (List.mem_cons_of_mem i hj)
    have hsame := exec_memorySame hi (hst i List.mem_cons_self)
    exact ⟨fun a => (hbytes a).trans (hsame.bytes a), hcfg.trans (exec_cfg hi)⟩

/-- One instruction that is no store empties the first place of the window, two empty both. -/
theorem Executes.window_empty {is : List Instr} {s t : State} (h : Executes is s t) (hst : ∀ j ∈ is, j.stores = false) :
    (1 ≤ is.length → t.store1 = none) ∧ (2 ≤ is.length → t.store2 = none) := by
  induction is generalizing s with
  | nil => exact ⟨nofun, nofun⟩
  | cons i is ih =>
    obtain ⟨u, hi, h⟩ := h
    have hempty : u.store1 = none := (exec_memorySame hi (hst i List.mem_cons_self)).noStore
    obtain ⟨ih1, ih2⟩ := ih h fun j hj => hst j (List.mem_cons_of_mem i hj)
    match is, h, ih1, ih2 with
    | [], h, _, _ => cases h; exact ⟨fun _ => hempty, fun h2 => absurd h2 (by simp)⟩
    | [j], ⟨v, hj, h⟩, ih1, _ =>
      cases h
      exact ⟨fun _ => ih1 (Nat.le_refl 1), fun _ => (exec_window hj).trans hempty⟩
    | _ :: _ :: _, _, ih1, ih2 => exact ⟨fun _ => ih1 (by simp), fun _ => ih2 (by simp)⟩

/-- A read depends on memory by its bytes and on the launch parameters only. -/
theorem State.readWord_congr {s t : State} (hmem : ∀ a, s.mem.get a = t.mem.get a) (hcfg : s.cfg = t.cfg) (ea : Word) :
    s.readWord ea = t.readWord ea := by
  simp only [readWord, access, byteAt, hmem, hcfg]

theorem Executes.fetch_eq {is : List Instr} {s t : State} (h : Executes is s t) (hst : ∀ j ∈ is, j.stores = false)
    (hlen : 2 ≤ is.length) : t.fetch = s.readWord t.fa0 := by
  obtain ⟨hbytes, hcfg⟩ := h.bytes_cfg hst
  obtain ⟨h1, h2⟩ := h.window_empty hst
  have hclear : t.storedRecently t.fa0 = false := by
    simp [State.storedRecently, h1 (by omega), h2 hlen]
  rw [State.fetch_of_not_storedRecently hclear, State.readWord_congr hbytes hcfg]

/-- Settles O9: the window is empty and memory is as the first instruction left it; if that is a fullword store, a fullword read at
its address gives the word back. -/
theorem storedWordIsFetchedFromTheThirdInstructionOn : Obligations.StoredWordIsFetchedFromTheThirdInstructionOn := by
  unfold Obligations.StoredWordIsFetchedFromTheThirdInstructionOn
  intro s t v i is hi his hlen hst
  have hfetch := his.fetch_eq hst hlen
  refine ⟨hfetch, fun rd ea hstore hea hv => ?_⟩
  obtain ⟨ea1, st, e, hea1, hmst, hest, rfl⟩ := exec_store_next hstore hi
  obtain rfl : ea1 = ea := Option.some.inj (hea1.symm.trans hea)
  rw [hfetch, hv]
  exact State.memLoad_after_memStore (ty' := .w) hmst (by rw [State.advance_mem, hest]) rfl rfl

/-! ### A word placed for the next fetch (70_reset_and_hazards.md R392, log 7) -/

theorem State.placeWord_aligned (s : State) (w : Word) : (s.placeWord w).fa0.toNat % 4 = 0 := by
  have h : (s.fa0 &&& 0xFFFFFFFC#32).extractLsb' 0 2 = 0#2 := by
    rw [BitVec.extractLsb'_and, show BitVec.extractLsb' 0 2 0xFFFFFFFC#32 = 0#2 from rfl, BitVec.and_zero]
  simpa [BitVec.extractLsb'_toNat] using congrArg BitVec.toNat h

@[simp] theorem State.placeWord_endian (s : State) (w : Word) : (s.placeWord w).cfg.endian = s.cfg.endian := by
  simp only [placeWord]
  split <;> rfl

theorem State.placeWord_mapped (s : State) (w : Word) : (s.placeWord w).mapped (s.placeWord w).fa0 4 := by
  refine (Config.admitsRun_iff _ _ _).1 ?_
  simp only [placeWord]
  split
  case isTrue h => exact h
  case isFalse => simp [Config.admitsRun, Config.admits]; omega

theorem State.placeWord_storedRecently (s : State) (w : Word) : (s.placeWord w).storedRecently (s.placeWord w).fa0 = false := by
  simp [storedRecently, placeWord]

theorem splitWord_eq_layout (e : Endian) (v : Word) : splitWord e v = layout e .w v := by cases e <;> rfl

theorem State.fetch_placeWord (s : State) (w : Word) : (s.placeWord w).fetch = .ok w := by
  rw [fetch_of_not_storedRecently (s.placeWord_storedRecently w)]
  have hb : (s.placeWord w).holds (s.placeWord w).fa0 (layout (s.placeWord w).cfg.endian .w w) := by
    refine holds_of_setBytes (m := s.mem) ?_
    rw [← splitWord_eq_layout, placeWord_endian]
    rfl
  exact memLoad_datum (t := .w) (s.placeWord_aligned w) (s.placeWord_mapped w) (datum_of_holds_layout (ty := .w) rfl hb)

theorem decodeTableWord_eq_some {nbits w : Nat} {i : Instr} (h : decodeTableWord nbits w = some i) :
    decodeWord (BitVec.ofNat 32 (w % 2 ^ nbits)) = .ok i := by
  simp only [decodeTableWord, splitWord, decode, join_big] at h
  cases hd : decodeWord (BitVec.ofNat 32 (w % 2 ^ nbits)) <;> rw [hd] at h <;> simp at h
  rw [h]

/-- Settles O10. -/
theorem placedWordRunsNext : Obligations.PlacedWordRunsNext := by
  unfold Obligations.PlacedWordRunsNext
  intro s w i h
  exact step_of_fetch (s.fetch_placeWord _) (decodeTableWord_eq_some h)

end Sys2Proof.Machine
end

section
/-! The encoder against the decoder (30_encoding.md R101 to R112, R117, R120, R123): every format decodes its own words, first as words,
then through the bytes of memory. -/

namespace Sys2Proof.Machine

/-- Every constructor's fields in their places decode to it: the decoder takes the constructor's branch by the bits that mark it, and reads
each field back from its place. -/
theorem decodeWord_encodeFields (i : Instr) : decodeWord (encodeFields i) = .ok i := by
  cases i
  case addRi | addcRi | subRi | subbRi | andRi | orRi | xorRi | shRi | shaRi => simp [encodeFields, decodeWord, decodeRi]
  case addRr | addcRr | subRr | subbRr | andRr | orRr | xorRr | shRr | shaRr =>
    simp [encodeFields, decodeWord, decodeRr, specialShift]
  case addRrr | addcRrr | subRrr | subbRrr | andRrr | orRrr | xorRrr | shRrr | shaRrr =>
    simp [encodeFields, decodeWord, decodeRrr, rs3Field]
  case ldRm | stRm => simp [encodeFields, decodeWord, fBit, hBit, rs1Field]
  case ldRrmAdd | ldRrmAddc | ldRrmSub | ldRrmSubb | ldRrmAnd | ldRrmOr | ldRrmXor | ldRrmSh | ldRrmSha =>
    simp [encodeFields, decodeWord, decodeRrmLoad, rrmLoadOf, specialShift]
  case stRrmAdd | stRrmAddc | stRrmSub | stRrmSubb | stRrmAnd | stRrmOr | stRrmXor | stRrmSh | stRrmSha =>
    simp [encodeFields, decodeWord, decodeRrmStore, rrmStoreOf, specialShift]
  case brAbs | brRel => simp [encodeFields, decodeWord, decodeBr]
  case punt => rfl
  case ldSls | stSls | sli => simp [encodeFields, decodeWord, decodeF, field21, join21]
  case ldhSpls | ldbSpls | sthSpls | stbSpls => simp [encodeFields, decodeWord, decodeF, encSpls_bits, decodeSpls]
  case sbr => simp [encodeFields, decodeWord, decodeF, encSbr_marks, decodeSbrPunt]

/-- Settles O11: the encoder puts the fields of the clean form in their places, and an instruction whose unused fields are 0 is its own
clean form. -/
theorem decodeOfEncodeIsTheInstruction : Obligations.DecodeOfEncodeIsTheInstruction := by
  unfold Obligations.DecodeOfEncodeIsTheInstruction
  have hclean (i : Instr) : decodeWord (encode i) = .ok i.clean := decodeWord_encodeFields i.clean
  exact ⟨fun i hi => by rw [hclean, Instr.clean_of_unusedZero hi], hclean⟩

/-- The bytes of a word decode as the word, in either byte order. -/
theorem decode_splitWord (e : Endian) (w : Word) (rest : List Byte) {i : Instr} (h : decodeWord w = .ok i) :
    decode e (splitWord e w ++ rest) = .ok (i, rest) := by
  cases e
  case big => simp [splitWord, decode, join_big, h]
  case little => simp [splitWord, decode, join_little, h]

/-- Settles O12. -/
theorem decodeReadsBackEncodedBytes : Obligations.DecodeReadsBackEncodedBytes := by
  unfold Obligations.DecodeReadsBackEncodedBytes
  exact fun e i rest hi => decode_splitWord e (encode i) rest (decodeOfEncodeIsTheInstruction.1 i hi)

/-- Settles O14. -/
theorem sampleWordsDecode : Obligations.SampleWordsDecode := by
  unfold Obligations.SampleWordsDecode
  exact ⟨rfl, rfl, rfl, rfl, rfl, rfl, rfl, rfl, rfl, rfl, rfl⟩

end Sys2Proof.Machine
end

section
/-! Words that are no instruction (30_encoding.md R116, R118, R119, the spec's decisions D16 and D22): the reserved bits of RR, RRM, SBR and
PUNT, the reserved width of RRM, and the unassigned `1111` words. -/

namespace Sys2Proof.Machine

/-! ### RR and RRM (R103, R106) -/

theorem decodeRr_error_of_reserved {w : Word} (h : w.getLsbD 16 = true ∨ w.extractLsb' 0 3 ≠ 0#3) : ∃ e, decodeRr w = .error e :=
  ⟨_, if_pos h⟩

/-- Bits 31:29 = 101 are the two RRM formats. -/
theorem rrm_op {w : Word} (h : w.extractLsb' 29 3 = 5#3) : w.extractLsb' 28 4 = 10#4 ∨ w.extractLsb' 28 4 = 11#4 := by
  have hop : w.extractLsb' 28 4 = w.extractLsb' 29 3 ++ w.extractLsb' 28 1 := by
    rw [BitVec.extractLsb'_append_extractLsb'_eq_extractLsb' (by decide)]
  rw [hop, h]
  generalize w.extractLsb' 28 1 = b
  revert b
  decide

theorem decodeWord_of_rrmLoad {w : Word} (op : w.extractLsb' 28 4 = 10#4) : decodeWord w = decodeRrmLoad w := by
  simp [decodeWord, op]

theorem decodeWord_of_rrmStore {w : Word} (op : w.extractLsb' 28 4 = 11#4) : decodeWord w = decodeRrmStore w := by
  simp [decodeWord, op]

theorem decodeWord_rrm_error_of_specialShift {w : Word} (op : w.extractLsb' 29 3 = 5#3) (special : w.extractLsb' 8 3 = 7#3)
    (reserved : ∃ e, specialShift (w.extractLsb' 3 5) = .error e) : ∃ e, decodeWord w = .error e := by
  obtain ⟨e, he⟩ := reserved
  rcases rrm_op op with op | op
  · exact ⟨e, by simp [decodeWord_of_rrmLoad op, decodeRrmLoad, special, he]⟩
  · exact ⟨e, by simp [decodeWord_of_rrmStore op, decodeRrmStore, special, he]⟩

/-- The dashes of `10---` and `11---` are bits 5:3 of the word. -/
theorem specialShift_error_of_dashes {w : Word} (h : w.extractLsb' 3 3 ≠ 0#3) : ∃ e, specialShift (w.extractLsb' 3 5) = .error e := by
  have hdash : (w.extractLsb' 3 5).extractLsb' 0 3 = w.extractLsb' 3 3 := by
    apply BitVec.eq_of_getLsbD_eq; intro i hi
    simp only [BitVec.getLsbD_extractLsb']
    interval_cases i <;> simp
  exact (specialShift_error_iff _).2 (.inr (hdash ▸ h))

/-- `YLE` with `YL` = 11 names no width. -/
theorem rrm_width_eleven {w : Word} (h : w.extractLsb' 1 2 = 3#2) :
    loadTypeOfCode (w.extractLsb' 0 3) = none ∧ storeTypeOfCode (w.extractLsb' 0 3) = none := by
  have hyle : w.extractLsb' 0 3 = w.extractLsb' 1 2 ++ w.extractLsb' 0 1 := by
    rw [BitVec.extractLsb'_append_extractLsb'_eq_extractLsb' (by decide)]
  rw [hyle, h]
  generalize w.extractLsb' 0 1 = b
  revert b
  decide

/-- Settles O17. -/
theorem rrmWidthElevenIsNoInstruction : Obligations.RrmWidthElevenIsNoInstruction := by
  unfold Obligations.RrmWidthElevenIsNoInstruction
  intro w op bbb width
  obtain ⟨hload, hstore⟩ := rrm_width_eleven width
  rcases rrm_op op with op | op
  · simp [decodeWord_of_rrmLoad op, decodeRrmLoad, bbb, hload]
  · simp [decodeWord_of_rrmStore op, decodeRrmStore, bbb, hstore]

/-! ### SBR and PUNT (R108, R112) -/

/-- The `1111` words with bits 17:15 = 111 are those of the SBR and PUNT row (R101). -/
theorem decodeWord_of_sbrPunt {w : Word} (op : w.extractLsb' 28 4 = 15#4) (row : w.extractLsb' 15 3 = 7#3) :
    decodeWord w = decodeSbrPunt w := by
  have bit (i : Nat) (hi : i < 3) : w.getLsbD (15 + i) = (7#3).getLsbD i := by
    rw [← row, BitVec.getLsbD_extractLsb', decide_eq_true hi, Bool.true_and]
  have h17 : w.getLsbD 17 = true := bit 2 (by decide)
  have h16 : w.getLsbD 16 = true := bit 1 (by decide)
  have h15 : w.getLsbD 15 = true := bit 0 (by decide)
  have toF : decodeWord w = decodeF w := by simp [decodeWord, op]
  rw [toF]
  simp only [decodeF, h17, h16, h15, Bool.true_eq_false, if_false]

/-- The bits that select PUNT on that row: 17:8 = 1111111111, bit 6 and bits 2:0 (R108). -/
structure PuntSelected (w : Word) : Prop where
  row : w.extractLsb' 8 10 = 1023#10
  bit6 : w.getLsbD 6 = true
  low : w.extractLsb' 0 3 = 7#3

/-- The reserved bits of PUNT, 27:18, 7 and 5:3, are all 0 (R116). -/
structure PuntReservedClear (w : Word) : Prop where
  high : w.extractLsb' 18 10 = 0#10
  bit7 : w.getLsbD 7 = false
  mid : w.extractLsb' 3 3 = 0#3

theorem puntReservedClear_iff (w : Word) :
    PuntReservedClear w ↔ ¬ (w.extractLsb' 18 10 ≠ 0#10 ∨ w.getLsbD 7 = true ∨ w.extractLsb' 3 3 ≠ 0#3) := by
  simp only [not_or, not_not, Bool.not_eq_true]
  exact ⟨fun ⟨h1, h2, h3⟩ => ⟨h1, h2, h3⟩, fun ⟨h1, h2, h3⟩ => ⟨h1, h2, h3⟩⟩

theorem decodeSbrPunt_of_punt {w : Word} (h : PuntSelected w) :
    decodeSbrPunt w = if w.extractLsb' 18 10 ≠ 0#10 ∨ w.getLsbD 7 = true ∨ w.extractLsb' 3 3 ≠ 0#3 then .error .reservedBit
      else .ok .punt := by
  have notSbr : (1023#10 : BitVec 10) ≠ 960#10 := by decide
  rw [decodeSbrPunt, if_neg (by rw [h.row]; exact fun hs => notSbr hs.1), if_pos ⟨h.row, h.bit6, h.low⟩]

/-- Bits 17:15 are the top of bits 17:8. -/
theorem PuntSelected.row_top {w : Word} (h : PuntSelected w) : w.extractLsb' 15 3 = 7#3 := by
  have htop : w.extractLsb' 15 3 = (w.extractLsb' 8 10).extractLsb' 7 3 := by
    apply BitVec.eq_of_getLsbD_eq; intro i hi
    simp only [BitVec.getLsbD_extractLsb']
    interval_cases i <;> simp
  rw [htop, h.row]; rfl

theorem decodeWord_error_of_punt_reserved {w : Word} (op : w.extractLsb' 28 4 = 15#4) (selected : PuntSelected w)
    (reserved : w.extractLsb' 18 10 ≠ 0#10 ∨ w.getLsbD 7 = true ∨ w.extractLsb' 3 3 ≠ 0#3) : ∃ e, decodeWord w = .error e := by
  rw [decodeWord_of_sbrPunt op selected.row_top, decodeSbrPunt_of_punt selected, if_pos reserved]
  exact ⟨_, rfl⟩

/-- Settles O16: each group of reserved bits is refused by its own format's branch of the decoder. -/
theorem wordsWithReservedBitsAreNoInstruction : Obligations.WordsWithReservedBitsAreNoInstruction := by
  unfold Obligations.WordsWithReservedBitsAreNoInstruction
  rintro w (⟨op, reserved⟩ | ⟨op | op, special, dashes⟩ | ⟨op, row, bit6, low, reserved⟩ | ⟨op, row, -, reserved⟩)
  · rw [decodeWord_of_rr op]
    exact decodeRr_error_of_reserved reserved
  · rw [decodeWord_of_rr op]
    exact decodeRr_error_of_specialShift special (specialShift_error_of_dashes dashes)
  · exact decodeWord_rrm_error_of_specialShift op special (specialShift_error_of_dashes dashes)
  · exact decodeWord_error_of_punt_reserved op ⟨row, bit6, low⟩ reserved
  · exact decodeWord_error_of_sbr_row op row fun marked => reserved marked.reserved

/-! ### The unassigned words (R119) -/

/-- A word is its fields as PUNT has them, put back in their places. -/
theorem word_eq_punt_fields (w : Word) :
    w = w.extractLsb' 28 4 ++ w.extractLsb' 18 10 ++ w.extractLsb' 8 10 ++ BitVec.ofBool (w.getLsbD 7) ++ BitVec.ofBool (w.getLsbD 6)
      ++ w.extractLsb' 3 3 ++ w.extractLsb' 0 3 := by
  apply BitVec.eq_of_getLsbD_eq; intro i hi
  simp only [BitVec.getLsbD_extractLsb', BitVec.getLsbD_append]
  interval_cases i <;> simp

theorem eq_punt_word_iff (w : Word) : w = 0xF003FF47#32 ↔ w.extractLsb' 28 4 = 15#4 ∧ PuntSelected w ∧ PuntReservedClear w := by
  constructor
  case mp => rintro rfl; exact ⟨rfl, ⟨rfl, rfl, rfl⟩, ⟨rfl, rfl, rfl⟩⟩
  case mpr =>
    rintro ⟨op, ⟨row, bit6, low⟩, ⟨high, bit7, mid⟩⟩
    rw [word_eq_punt_fields w, op, row, bit6, low, high, bit7, mid]
    rfl

/-- The decoder accepts nothing else on the SBR and PUNT row. -/
theorem decodeSbrPunt_eq_ok {w : Word} {i : Instr} (h : decodeSbrPunt w = .ok i) :
    (w.extractLsb' 8 10 = 960#10 ∧ w.extractLsb' 1 2 = 0#2 ∧ w.extractLsb' 23 2 = 0#2) ∨ (PuntSelected w ∧ PuntReservedClear w) := by
  unfold decodeSbrPunt at h
  split at h
  case isTrue marks =>
    split at h
    case isTrue => cases h
    case isFalse reserved => exact .inl ⟨marks.1, marks.2, not_not.1 reserved⟩
  case isFalse =>
    split at h
    case isTrue selected =>
      obtain ⟨row, bit6, low⟩ := selected
      split at h
      case isTrue => cases h
      case isFalse reserved => exact .inr ⟨⟨row, bit6, low⟩, (puntReservedClear_iff w).2 reserved⟩
    case isFalse => cases h

/-- Settles O19: on the SBR and PUNT row the decoder accepts the marked SBR words and the one PUNT word. -/
theorem unassignedWordsAreNoInstruction : Obligations.UnassignedWordsAreNoInstruction := by
  unfold Obligations.UnassignedWordsAreNoInstruction
  intro w op row
  rw [sbr_mask_iff, eq_punt_word_iff]
  constructor
  case mp =>
    rintro ⟨i, h⟩
    rw [decodeWord_of_sbrPunt op row] at h
    rcases decodeSbrPunt_eq_ok h with ⟨marks, low, reserved⟩ | punt
    · exact .inl ⟨op, marks, low, reserved⟩
    · exact .inr ⟨op, punt⟩
  case mpr =>
    rintro (marked | ⟨-, selected, clear⟩)
    · exact ⟨_, decodeWord_of_sbrMarked marked⟩
    · rw [decodeWord_of_sbrPunt op row, decodeSbrPunt_of_punt selected, if_neg ((puntReservedClear_iff w).1 clear)]
      exact ⟨_, rfl⟩

end Sys2Proof.Machine
end

section
/-! What the decoder ignores (30_encoding.md R117, R120): a decoded word is its instruction's word outside the ignored bits, the encoder
writes 0 in them, and no meaning reads the fields they hold. -/

namespace Sys2Proof.Machine

/-! ### Words by layout, and masks field by field (R102 to R112) -/

theorem eq_encReg (w : Word) : w = encReg (w.extractLsb' 28 4) (rdField w) (rs1Field w) (fBit w) (hBit w) (rs2Field w)
    (w.extractLsb' 8 3) (w.extractLsb' 3 5) (w.extractLsb' 0 3) := by
  apply BitVec.eq_of_getLsbD_eq; intro i hi
  simp only [encReg, rdField, rs1Field, rs2Field, fBit, hBit, BitVec.getLsbD_extractLsb', BitVec.getLsbD_append]
  interval_cases i <;> simp

theorem eq_encConst (w : Word) : w = encConst (w.extractLsb' 28 4) (rdField w) (rs1Field w) (fBit w) (hBit w) (w.extractLsb' 0 16) := by
  apply BitVec.eq_of_getLsbD_eq; intro i hi
  simp only [encConst, rdField, rs1Field, fBit, hBit, BitVec.getLsbD_extractLsb', BitVec.getLsbD_append]
  interval_cases i <;> simp

/-! ### Each set of ignored bits, hidden (R117, R120): the mask is the complement -/

@[simp] theorem encReg_hide_h (op : BitVec 4) (rd rs1 : RegNum) (b17 b16 : Bool) (rs2 : RegNum) (bbb : BitVec 3) (j : BitVec 5)
    (low : BitVec 3) :
    encReg op rd rs1 b17 b16 rs2 bbb j low &&& 0xFFFEFFFF#32 = encReg op rd rs1 b17 false rs2 bbb j low := by
  apply BitVec.eq_of_getLsbD_eq; intro i hi
  simp only [encReg, BitVec.getLsbD_and, BitVec.getLsbD_append]
  interval_cases i <;> simp

@[simp] theorem encReg_hide_j (op : BitVec 4) (rd rs1 : RegNum) (b17 b16 : Bool) (rs2 : RegNum) (bbb : BitVec 3) (j : BitVec 5)
    (low : BitVec 3) :
    encReg op rd rs1 b17 b16 rs2 bbb j low &&& 0xFFFFFF07#32 = encReg op rd rs1 b17 b16 rs2 bbb 0#5 low := by
  apply BitVec.eq_of_getLsbD_eq; intro i hi
  simp only [encReg, BitVec.getLsbD_and, BitVec.getLsbD_append]
  interval_cases i <;> simp

@[simp] theorem encReg_hide_j_e (op : BitVec 4) (rd rs1 : RegNum) (b17 b16 : Bool) (rs2 : RegNum) (bbb : BitVec 3) (j : BitVec 5)
    (low : BitVec 3) :
    encReg op rd rs1 b17 b16 rs2 bbb j low &&& 0xFFFFFF06#32 = encReg op rd rs1 b17 b16 rs2 bbb 0#5 (low &&& 6#3) := by
  apply BitVec.eq_of_getLsbD_eq; intro i hi
  simp only [encReg, BitVec.getLsbD_and, BitVec.getLsbD_append]
  interval_cases i <;> simp

@[simp] theorem encReg_hide_yle (op : BitVec 4) (rd rs1 : RegNum) (b17 b16 : Bool) (rs2 : RegNum) (bbb : BitVec 3) (j : BitVec 5)
    (low : BitVec 3) :
    encReg op rd rs1 b17 b16 rs2 bbb j low &&& 0xFFFFFFF8#32 = encReg op rd rs1 b17 b16 rs2 bbb j 0#3 := by
  apply BitVec.eq_of_getLsbD_eq; intro i hi
  simp only [encReg, BitVec.getLsbD_and, BitVec.getLsbD_append]
  interval_cases i <;> simp

@[simp] theorem encReg_hide_operation (op : BitVec 4) (rd rs1 : RegNum) (b17 b16 : Bool) (rs2 : RegNum) (bbb : BitVec 3) (j : BitVec 5)
    (low : BitVec 3) :
    encReg op rd rs1 b17 b16 rs2 bbb j low &&& 0xFFFF0007#32 = encReg op rd rs1 b17 b16 0#5 0#3 0#5 low := by
  apply BitVec.eq_of_getLsbD_eq; intro i hi
  simp only [encReg, BitVec.getLsbD_and, BitVec.getLsbD_append]
  interval_cases i <;> simp

@[simp] theorem encReg_hide_operation_e (op : BitVec 4) (rd rs1 : RegNum) (b17 b16 : Bool) (rs2 : RegNum) (bbb : BitVec 3) (j : BitVec 5)
    (low : BitVec 3) :
    encReg op rd rs1 b17 b16 rs2 bbb j low &&& 0xFFFF0006#32 = encReg op rd rs1 b17 b16 0#5 0#3 0#5 (low &&& 6#3) := by
  apply BitVec.eq_of_getLsbD_eq; intro i hi
  simp only [encReg, BitVec.getLsbD_and, BitVec.getLsbD_append]
  interval_cases i <;> simp

@[simp] theorem encReg_hide_low_half (op : BitVec 4) (rd rs1 : RegNum) (b17 b16 : Bool) (rs2 : RegNum) (bbb : BitVec 3) (j : BitVec 5)
    (low : BitVec 3) :
    encReg op rd rs1 b17 b16 rs2 bbb j low &&& 0xFFFF0000#32 = encReg op rd rs1 b17 b16 0#5 0#3 0#5 0#3 := by
  apply BitVec.eq_of_getLsbD_eq; intro i hi
  simp only [encReg, BitVec.getLsbD_and, BitVec.getLsbD_append]
  interval_cases i <;> simp

@[simp] theorem encConst_hide_k (op : BitVec 4) (rd rs1 : RegNum) (b17 b16 : Bool) (k : BitVec 16) :
    encConst op rd rs1 b17 b16 k &&& 0xFFFF0000#32 = encConst op rd rs1 b17 b16 0#16 := by
  apply BitVec.eq_of_getLsbD_eq; intro i hi
  simp only [encConst, BitVec.getLsbD_and, BitVec.getLsbD_append]
  interval_cases i <;> simp

@[simp] theorem encConst_hide_sls (op : BitVec 4) (rd rs1 : RegNum) (b17 b16 : Bool) (k : BitVec 16) :
    encConst op rd rs1 b17 b16 k &&& 0xFFFFFFFC#32 = encConst op rd rs1 b17 b16 (k &&& 0xFFFC#16) := by
  apply BitVec.eq_of_getLsbD_eq; intro i hi
  simp only [encConst, BitVec.getLsbD_and, BitVec.getLsbD_append]
  interval_cases i <;> simp

@[simp] theorem encSpls_hide_k (rd rs1 : RegNum) (y s e p q : Bool) (k : BitVec 10) :
    encSpls rd rs1 y s e p q k &&& 0xFFFFFC00#32 = encSpls rd rs1 y s e p q 0#10 := by
  apply BitVec.eq_of_getLsbD_eq; intro i hi
  simp only [encSpls, BitVec.getLsbD_and, BitVec.getLsbD_append]
  interval_cases i <;> simp

@[simp] theorem encSpls_hide_e (rd rs1 : RegNum) (y s e p q : Bool) (k : BitVec 10) :
    encSpls rd rs1 y s e p q k &&& 0xFFFFEFFF#32 = encSpls rd rs1 y s false p q k := by
  apply BitVec.eq_of_getLsbD_eq; intro i hi
  simp only [encSpls, BitVec.getLsbD_and, BitVec.getLsbD_append]
  interval_cases i <;> simp

@[simp] theorem encSpls_hide_e_k (rd rs1 : RegNum) (y s e p q : Bool) (k : BitVec 10) :
    encSpls rd rs1 y s e p q k &&& 0xFFFFEC00#32 = encSpls rd rs1 y s false p q 0#10 := by
  apply BitVec.eq_of_getLsbD_eq; intro i hi
  simp only [encSpls, BitVec.getLsbD_and, BitVec.getLsbD_append]
  interval_cases i <;> simp

@[simp] theorem and_all32 (w : Word) : w &&& 0xFFFFFFFF#32 = w := BitVec.and_allOnes

@[simp] theorem and_all5 (r : RegNum) : r &&& 31#5 = r := BitVec.and_allOnes

/-! ### A decoded word (R117) -/

/-- `w` is the word of the instruction's fields in their places, but for the bits the decoder ignores. -/
def AgreesWith (w : Word) (i : Instr) : Prop := w &&& ~~~i.ignoredBits = encodeFields i &&& ~~~i.ignoredBits

theorem agreesWith_of_eq {w : Word} {i : Instr} (h : w = encodeFields i) : AgreesWith w i := by rw [AgreesWith, ← h]

theorem AgreesWith.of_mask {w : Word} {i : Instr} (m : Word) (hm : i.ignoredBits = m) (h : w &&& ~~~m = encodeFields i &&& ~~~m) :
    AgreesWith w i := by
  rwa [← hm] at h

theorem bitVec3_cases (b : BitVec 3) : b = 0#3 ∨ b = 1#3 ∨ b = 2#3 ∨ b = 3#3 ∨ b = 4#3 ∨ b = 5#3 ∨ b = 6#3 ∨ b = 7#3 := by
  revert b; decide

/-- The JJJJJ of a shift is the one the encoder writes (R103). -/
theorem specialShift_eq_ok {j : BitVec 5} {arithmetic : Bool} (h : specialShift j = .ok arithmetic) :
    j = if arithmetic then 24#5 else 16#5 := by
  revert h; revert j arithmetic; decide

/-- `YLE` of a load is the one the encoder writes, but for `E` of a fullword (R252). -/
theorem loadTypeOfCode_eq_some {c : BitVec 3} {t : LoadType} (h : loadTypeOfCode c = some t) :
    if t = .w then c &&& 6#3 = codeOfLoadType t &&& 6#3 else c = codeOfLoadType t := by
  revert h; cases t <;> revert c <;> decide

/-- `YLE` of a store is the one the encoder writes, but for `E` (R252). -/
theorem storeTypeOfCode_eq_some {c : BitVec 3} {t : StoreType} (h : storeTypeOfCode c = some t) :
    c &&& 6#3 = codeOfStoreType t &&& 6#3 := by
  revert h; cases t <;> revert c <;> decide

section
variable {rd rs1 rs2 : RegNum} {b17 b16 : Bool} {bbb : BitVec 3} {j : BitVec 5} {low : BitVec 3} {i : Instr}

theorem decodeRr_agrees (h : decodeRr (encReg 12#4 rd rs1 b17 b16 rs2 bbb j low) = .ok i) :
    AgreesWith (encReg 12#4 rd rs1 b17 b16 rs2 bbb j low) i := by
  unfold decodeRr at h
  split at h
  case isTrue => cases h
  case isFalse reserved =>
    obtain ⟨rfl, rfl⟩ : b16 = false ∧ low = 0#3 := by simpa using reserved
    rcases bitVec3_cases bbb with rfl | rfl | rfl | rfl | rfl | rfl | rfl | rfl
    case inr.inr.inr.inr.inr.inr.inr =>
      simp only [encReg_bbb, BitVec.toNat_ofNat, Nat.reducePow, Nat.reduceMod, encReg_j, encReg_rd, encReg_rs1, encReg_rs2, encReg_b17] at h
      split at h
      case h_1 => cases h
      case h_2 hs =>
        obtain rfl : j = 24#5 := specialShift_eq_ok hs
        cases h
        exact agreesWith_of_eq rfl
      case h_3 hs =>
        obtain rfl : j = 16#5 := specialShift_eq_ok hs
        cases h
        exact agreesWith_of_eq rfl
    all_goals
      simp only [encReg_bbb, BitVec.toNat_ofNat, Nat.reducePow, Nat.reduceMod, encReg_rd, encReg_rs1, encReg_rs2, encReg_b17, Except.ok.injEq] at h
      subst h
      exact .of_mask 0xF8#32 rfl (by simp [encodeFields])

theorem decodeRrr_agrees :
    AgreesWith (encReg 13#4 rd rs1 b17 b16 rs2 bbb j low) (decodeRrr (encReg 13#4 rd rs1 b17 b16 rs2 bbb j low)) := by
  rcases bitVec3_cases bbb with rfl | rfl | rfl | rfl | rfl | rfl | rfl | rfl
  case inr.inr.inr.inr.inr.inr.inr =>
    cases b16 <;> simp [decodeRrr, AgreesWith, encodeFields, rs3Field]
  all_goals simp [decodeRrr, AgreesWith, Instr.ignoredBits, encodeFields, rs3Field]

/-- What an RRM load ignores is its JJJJJ, with `PQ` = 00 its Rs2 and BBB too, and `E` of a fullword. -/
theorem encReg_agrees_load {p q : Bool} {t : LoadType} (ht : loadTypeOfCode low = some t) {m : Word}
    (hm : m = (if p || q then 0xF8#32 else 0xFFF8#32) ||| (if t = .w then 1#32 else 0#32)) :
    encReg 10#4 rd rs1 p q rs2 bbb j low &&& ~~~m = encReg 10#4 rd rs1 p q rs2 bbb 0#5 (codeOfLoadType t) &&& ~~~m := by
  have hlow := loadTypeOfCode_eq_some ht
  subst hm
  by_cases hw : t = .w <;> by_cases hpq : (p || q) = true <;> simp only [hw, hpq, if_true, if_false] at hlow ⊢ <;> simp [hlow]

theorem decodeRrmLoad_agrees (h : decodeRrmLoad (encReg 10#4 rd rs1 b17 b16 rs2 bbb j low) = .ok i) :
    AgreesWith (encReg 10#4 rd rs1 b17 b16 rs2 bbb j low) i := by
  unfold decodeRrmLoad at h
  split at h
  case isTrue shift =>
    obtain rfl : bbb = 7#3 := by simpa using shift
    simp only [encReg_j, encReg_rd, encReg_rs1, encReg_rs2, encReg_b17, encReg_b16] at h
    split at h
    case h_1 => cases h
    case h_2 hs | h_3 hs =>
      cases h; rw [specialShift_eq_ok hs]
      by_cases hpq : (b17 || b16) = true <;> simp [AgreesWith, Instr.ignoredBits, encodeFields, hpq]
  case isFalse =>
    split at h
    case h_1 => cases h
    case h_2 ht =>
      rw [encReg_low] at ht
      cases h
      rcases bitVec3_cases bbb with rfl | rfl | rfl | rfl | rfl | rfl | rfl | rfl
      case inr.inr.inr.inr.inr.inr.inr notShift => simp at notShift
      all_goals
        simp only [rrmLoadOf, encReg_rd, encReg_rs1, encReg_rs2, encReg_b17, encReg_b16, encReg_bbb]
        exact encReg_agrees_load ht rfl

/-- What an RRM store ignores is its JJJJJ and `E`, with `PQ` = 00 its Rs2 and BBB too. -/
theorem encReg_agrees_store {p q : Bool} {t : StoreType} (ht : storeTypeOfCode low = some t) {m : Word}
    (hm : m = if p || q then 0xF9#32 else 0xFFF9#32) :
    encReg 11#4 rd rs1 p q rs2 bbb j low &&& ~~~m = encReg 11#4 rd rs1 p q rs2 bbb 0#5 (codeOfStoreType t) &&& ~~~m := by
  have hlow := storeTypeOfCode_eq_some ht
  subst hm
  by_cases hpq : (p || q) = true <;> simp [hpq, hlow]

theorem decodeRrmStore_agrees (h : decodeRrmStore (encReg 11#4 rd rs1 b17 b16 rs2 bbb j low) = .ok i) :
    AgreesWith (encReg 11#4 rd rs1 b17 b16 rs2 bbb j low) i := by
  unfold decodeRrmStore at h
  split at h
  case isTrue shift =>
    obtain rfl : bbb = 7#3 := by simpa using shift
    simp only [encReg_j, encReg_rd, encReg_rs1, encReg_rs2, encReg_b17, encReg_b16] at h
    split at h
    case h_1 => cases h
    case h_2 hs | h_3 hs =>
      cases h; rw [specialShift_eq_ok hs]
      by_cases hpq : (b17 || b16) = true <;> simp [AgreesWith, Instr.ignoredBits, encodeFields, hpq]
  case isFalse =>
    split at h
    case h_1 => cases h
    case h_2 ht =>
      rw [encReg_low] at ht
      cases h
      rcases bitVec3_cases bbb with rfl | rfl | rfl | rfl | rfl | rfl | rfl | rfl
      case inr.inr.inr.inr.inr.inr.inr notShift => simp at notShift
      all_goals
        simp only [rrmStoreOf, encReg_rd, encReg_rs1, encReg_rs2, encReg_b17, encReg_b16, encReg_bbb]
        exact encReg_agrees_store ht rfl

end

/-! The formats whose words are their fields with few bits ignored or none. -/

/-- A word with bit 31 clear is the RI word of its fields. -/
theorem eq_encRi {w : Word} (h : w.getLsbD 31 = false) :
    w = encRi (w.extractLsb' 28 3) (rdField w) (rs1Field w) (fBit w) (hBit w) (w.extractLsb' 0 16) := by
  apply BitVec.eq_of_getLsbD_eq; intro i hi
  simp only [encRi, rdField, rs1Field, fBit, hBit, BitVec.getLsbD_extractLsb', BitVec.getLsbD_append]
  interval_cases i <;> simp
  simpa using h

theorem encodeFields_decodeRi {w : Word} (h : w.getLsbD 31 = false) : encodeFields (decodeRi w) = w := by
  conv_rhs => rw [eq_encRi h]
  unfold decodeRi
  rcases bitVec3_cases (w.extractLsb' 28 3) with hop | hop | hop | hop | hop | hop | hop | hop
  case inr.inr.inr.inr.inr.inr.inr => rw [hop]; cases hBit w <;> rfl
  all_goals rw [hop]; rfl

theorem eq_encBr {w : Word} (op : w.extractLsb' 28 4 = 14#4) :
    w = encBr (condOfCode (condField w)) (w.extractLsb' 2 23) (w.getLsbD 1) := by
  obtain ⟨ddd, i⟩ := condField_parts w
  rw [encBr, codeOfCond_condOfCode, ddd, i, ← op]
  apply BitVec.eq_of_getLsbD_eq; intro i hi
  simp only [BitVec.getLsbD_extractLsb', BitVec.getLsbD_append]
  interval_cases i <;> simp

theorem encodeFields_decodeBr {w : Word} (op : w.extractLsb' 28 4 = 14#4) : encodeFields (decodeBr w) = w := by
  conv_rhs => rw [eq_encBr op]
  unfold decodeBr
  cases w.getLsbD 1 <;> rfl

theorem eq_encSpls {w : Word} (op : w.extractLsb' 28 4 = 15#4) (row : w.extractLsb' 15 3 = 6#3) :
    w = encSpls (rdField w) (rs1Field w) (w.getLsbD 14) (w.getLsbD 13) (w.getLsbD 12) (w.getLsbD 11) (w.getLsbD 10)
      (w.extractLsb' 0 10) := by
  rw [encSpls, ← op, ← row]
  apply BitVec.eq_of_getLsbD_eq; intro i hi
  simp only [rdField, rs1Field, BitVec.getLsbD_extractLsb', BitVec.getLsbD_append]
  interval_cases i <;> simp

/-- A store of SPLS ignores `E`, and with `PQ` = 00 the constant. -/
theorem encSpls_agrees_store {rd rs1 : RegNum} {y e p q : Bool} {k : BitVec 10} {m : Word}
    (hm : m = if p || q then 0x1000#32 else 0x13FF#32) :
    encSpls rd rs1 y true e p q k &&& ~~~m = encSpls rd rs1 y true false p q k &&& ~~~m := by
  subst hm
  by_cases hpq : (p || q) = true <;> simp [hpq]

theorem decodeSpls_agrees {w : Word} (op : w.extractLsb' 28 4 = 15#4) (row : w.extractLsb' 15 3 = 6#3) :
    AgreesWith w (decodeSpls w) := by
  have hw := eq_encSpls op row
  unfold decodeSpls
  split
  case h_1 y s | h_2 y s =>
    rw [y, s] at hw
    exact agreesWith_of_eq hw
  case h_3 y s | h_4 y s =>
    rw [y, s] at hw
    exact (congrArg (· &&& _) hw).trans (encSpls_agrees_store rfl)

theorem eq_encConst_sls {w : Word} (op : w.extractLsb' 28 4 = 15#4) :
    w = encConst 15#4 (rdField w) ((field21 w).extractLsb' 16 5) (w.getLsbD 17) (w.getLsbD 16) ((field21 w).extractLsb' 0 16) := by
  rw [encConst, ← op]
  apply BitVec.eq_of_getLsbD_eq; intro i hi
  simp only [rdField, field21, BitVec.getLsbD_extractLsb', BitVec.getLsbD_append]
  interval_cases i <;> simp

theorem decodeWord_of_f {w : Word} (op : w.extractLsb' 28 4 = 15#4) : decodeWord w = decodeF w := by
  simp [decodeWord, op]

/-- SLS, SLI and SBR keep every field, and PUNT is one word. -/
theorem decodeF_agrees {w : Word} {i : Instr} (op : w.extractLsb' 28 4 = 15#4) (h : decodeF w = .ok i) : AgreesWith w i := by
  have hword : decodeWord w = .ok i := (decodeWord_of_f op).trans h
  have hsls := eq_encConst_sls op
  unfold decodeF at h
  split at h
  case isTrue h17 =>
    cases h
    cases h16 : w.getLsbD 16 <;> rw [h17, h16] at hsls <;> exact agreesWith_of_eq hsls
  case isFalse h17 =>
    rw [Bool.not_eq_false] at h17
    split at h
    case isTrue h16 =>
      rw [h17, h16] at hsls
      cases h
      exact agreesWith_of_eq hsls
    case isFalse h16 =>
      rw [Bool.not_eq_false] at h16
      split at h
      case isTrue h15 =>
        cases h
        refine decodeSpls_agrees op ?_
        apply BitVec.eq_of_getLsbD_eq; intro i hi
        rw [BitVec.getLsbD_extractLsb', decide_eq_true hi, Bool.true_and]
        interval_cases i
        · exact h15
        · exact h16
        · exact h17
      case isFalse =>
        rcases decodeSbrPunt_eq_ok h with ⟨row, low, reserved⟩ | ⟨selected, clear⟩
        · have marked : SbrMarked w := ⟨op, row, low, reserved⟩
          obtain rfl := Except.ok.inj (hword.symm.trans (decodeWord_of_sbrMarked marked))
          exact agreesWith_of_eq marked.eq_encSbr
        · obtain rfl := (eq_punt_word_iff w).2 ⟨op, selected, clear⟩
          obtain rfl : i = .punt := (Except.ok.inj h).symm
          rfl

theorem eq_encConst_of_op {w : Word} {b : BitVec 4} (op : w.extractLsb' 28 4 = b) :
    w = encConst b (rdField w) (rs1Field w) (fBit w) (hBit w) (w.extractLsb' 0 16) := op ▸ eq_encConst w

theorem eq_encReg_of_op {w : Word} {b : BitVec 4} (op : w.extractLsb' 28 4 = b) :
    w = encReg b (rdField w) (rs1Field w) (fBit w) (hBit w) (rs2Field w) (w.extractLsb' 8 3) (w.extractLsb' 3 5) (w.extractLsb' 0 3) :=
  op ▸ eq_encReg w

/-- Bits 31:28 below 1000 begin with 0. -/
theorem ri_bit {w : Word} (h : (w.extractLsb' 28 4).toNat < 8) : w.getLsbD 31 = false := by
  have hmsb : (w.extractLsb' 28 4).msb = w.getLsbD 31 := by simp [BitVec.msb_eq_getLsbD_last]
  rw [← hmsb, BitVec.msb_eq_false_iff_two_mul_lt]
  omega

theorem decodeWord_agrees {w : Word} {i : Instr} (h : decodeWord w = .ok i) : AgreesWith w i := by
  have op (b : BitVec 4) (hb : (w.extractLsb' 28 4).toNat = b.toNat) : w.extractLsb' 28 4 = b := BitVec.eq_of_toNat_eq hb
  unfold decodeWord at h
  split at h
  case h_1 hop => cases h; exact agreesWith_of_eq (eq_encConst_of_op (op 8#4 hop))
  case h_2 hop => cases h; exact agreesWith_of_eq (eq_encConst_of_op (op 9#4 hop))
  case h_3 hop => rw [eq_encReg_of_op (op 10#4 hop)] at h ⊢; exact decodeRrmLoad_agrees h
  case h_4 hop => rw [eq_encReg_of_op (op 11#4 hop)] at h ⊢; exact decodeRrmStore_agrees h
  case h_5 hop => rw [eq_encReg_of_op (op 12#4 hop)] at h ⊢; exact decodeRr_agrees h
  case h_6 hop => cases h; rw [eq_encReg_of_op (op 13#4 hop)]; exact decodeRrr_agrees
  case h_7 hop => cases h; exact agreesWith_of_eq (encodeFields_decodeBr (op 14#4 hop)).symm
  case h_8 hop => exact decodeF_agrees (op 15#4 hop) h
  case h_9 =>
    have hlt : (w.extractLsb' 28 4).toNat < 16 := (w.extractLsb' 28 4).isLt
    simp only [imp_false] at *
    have hri : (w.extractLsb' 28 4).toNat < 8 := by omega
    cases h
    exact agreesWith_of_eq (encodeFields_decodeRi (ri_bit hri)).symm

/-! ### The encoder's word (R120) -/

/-- The fields the encoder writes 0 lie in ignored bits. -/
theorem encode_agrees (i : Instr) : AgreesWith (encode i) i := by
  cases i
  case ldRm p q _ | stRm p q _ | ldhSpls _ p q _ | ldbSpls _ p q _ | sthSpls p q _ | stbSpls p q _ =>
    cases p <;> cases q <;> simp [AgreesWith, encode, Instr.clean, Instr.ignoredBits, encodeFields]
  case ldSls a | stSls a =>
    exact .of_mask 0x3#32 rfl (by simp [encode, Instr.clean, encodeFields, BitVec.extractLsb'_and, BitVec.and_assoc])
  case ldRrmAdd p q t | ldRrmAddc p q t | ldRrmSub p q t | ldRrmSubb p q t | ldRrmAnd p q t | ldRrmOr p q t | ldRrmXor p q t =>
    cases p <;> cases q <;> by_cases ht : t = .w <;> simp [AgreesWith, encode, Instr.clean, Instr.ignoredBits, encodeFields, ht]
  case ldRrmSh p q | ldRrmSha p q | stRrmSh p q | stRrmSha p q =>
    cases p <;> cases q <;> simp [AgreesWith, encode, Instr.clean, Instr.ignoredBits, encodeFields]
  case stRrmAdd p q t | stRrmAddc p q t | stRrmSub p q t | stRrmSubb p q t | stRrmAnd p q t | stRrmOr p q t | stRrmXor p q t =>
    cases p <;> cases q <;> simp [AgreesWith, encode, Instr.clean, Instr.ignoredBits, encodeFields]
  all_goals exact agreesWith_of_eq rfl

/-- No bit of the word lies in the mask. -/
def Misses (w m : Word) : Prop := w &&& ~~~m = w

theorem Misses.and_eq_zero {w m : Word} (h : Misses w m) : w &&& m = 0#32 := by
  rw [← h, BitVec.and_assoc, show ~~~m &&& m = 0#32 by simp, BitVec.and_zero]

theorem misses_zero (w : Word) : Misses w 0#32 := and_all32 w

/-- The fields of an instruction whose unused fields are 0 hold 0 in every ignored bit. -/
theorem encodeFields_misses {i : Instr} (h : i.unusedZero = true) : Misses (encodeFields i) i.ignoredBits := by
  cases i
  case addRr | addcRr | subRr | subbRr | andRr | orRr | xorRr =>
    refine (?_ : Misses _ 0xF8#32)
    simp [Misses, encodeFields]
  case addRrr | addcRrr | subRrr | subbRrr | andRrr | orRrr | xorRrr =>
    refine (?_ : Misses _ 0x10000#32)
    simp [Misses, encodeFields]
  case ldSls rd a | stSls rd a =>
    have hclean : a &&& 0x1FFFFC#21 = a := by simpa [Instr.clean] using Instr.clean_of_unusedZero h
    have ha : a.extractLsb' 0 16 &&& 0xFFFC#16 = a.extractLsb' 0 16 := by
      conv_rhs => rw [← hclean, BitVec.extractLsb'_and]
      rfl
    refine (?_ : Misses _ 0x3#32)
    simp [Misses, encodeFields, ha]
  case ldRm p q _ | stRm p q _ | ldhSpls _ p q _ | ldbSpls _ p q _ | sthSpls p q _ | stbSpls p q _ =>
    cases p <;> cases q <;> simp_all [Misses, Instr.unusedZero, Instr.ignoredBits, encodeFields]
  case ldRrmAdd p q t | ldRrmAddc p q t | ldRrmSub p q t | ldRrmSubb p q t | ldRrmAnd p q t | ldRrmOr p q t | ldRrmXor p q t =>
    cases p <;> cases q <;> cases t <;> simp_all [Misses, Instr.unusedZero, Instr.ignoredBits, encodeFields, codeOfLoadType]
  case stRrmAdd p q t | stRrmAddc p q t | stRrmSub p q t | stRrmSubb p q t | stRrmAnd p q t | stRrmOr p q t | stRrmXor p q t =>
    cases p <;> cases q <;> cases t <;> simp_all [Misses, Instr.unusedZero, Instr.ignoredBits, encodeFields, codeOfStoreType]
  case ldRrmSh p q | ldRrmSha p q | stRrmSh p q | stRrmSha p q =>
    cases p <;> cases q <;> simp_all [Misses, Instr.unusedZero, Instr.ignoredBits, encodeFields]
  all_goals exact misses_zero _

/-! ### The meanings (R118, R120) -/

/-- The two low address bits of SLS are dropped (47_sls_sli.md R315). -/
theorem slsAddr_clean (a : BitVec 21) : slsAddr (a &&& 0x1FFFFC#21) = slsAddr a := by
  have hmask : BitVec.setWidth 32 0x1FFFFC#21 &&& 0xFFFFFFFC#32 = BitVec.setWidth 32 (BitVec.allOnes 21) &&& 0xFFFFFFFC#32 := by decide
  rw [slsAddr, slsAddr, BitVec.setWidth_and, BitVec.and_assoc, hmask, ← BitVec.and_assoc, ← BitVec.setWidth_and, BitVec.and_allOnes]

/-- With `PQ` = 00 the constant of a load or a store is not read (43_rm.md R231). -/
theorem State.loadConst_plain (s : State) (rd rs1 : RegNum) (k k' : Word) (t : LoadType) :
    s.loadConst rd rs1 false false k t = s.loadConst rd rs1 false false k' t := rfl

theorem State.storeConst_plain (s : State) (rd rs1 : RegNum) (k k' : Word) (t : StoreType) :
    s.storeConst rd rs1 false false k t = s.storeConst rd rs1 false false k' t := rfl

/-- With `PQ` = 00 the operation of RRM is not performed and Rs2 is not read; but a field that names register 31 is refused
(44_rrm.md R251, R254). -/
theorem State.rrmLoad_plain (s : State) (op op' : AluOp) (rd rs1 : RegNum) {rs2 rs2' : RegNum} (t : LoadType)
    (h : rs2 ≠ isrReg) (h' : rs2' ≠ isrReg) :
    s.rrmLoad op rd rs1 rs2 false false t = s.rrmLoad op' rd rs1 rs2' false false t := by
  have hregs : allowRegs [rs1, rs2] = allowRegs [rs1, rs2'] := by
    simp only [allowRegs, List.all_cons, List.all_nil, bne_iff_ne.2 h, bne_iff_ne.2 h']
  simp only [rrmLoad, hregs]
  rfl

theorem State.rrmStore_plain (s : State) (op op' : AluOp) (rd rs1 : RegNum) {rs2 rs2' : RegNum} (t : StoreType)
    (h : rs2 ≠ isrReg) (h' : rs2' ≠ isrReg) :
    s.rrmStore op rd rs1 rs2 false false t = s.rrmStore op' rd rs1 rs2' false false t := by
  have hregs : allowRegs [rs1, rs2] = allowRegs [rs1, rs2'] := by
    simp only [allowRegs, List.all_cons, List.all_nil, bne_iff_ne.2 h, bne_iff_ne.2 h']
  simp only [rrmStore, hregs]
  rfl

theorem exec_clean {i : Instr} {s : State} (h : i.avoidsIsr = true) : exec i.clean s = exec i s := by
  have legal {r : RegNum} (hr : r ∈ i.regFields) : r ≠ isrReg := by simpa using List.all_eq_true.1 h r hr
  have r0 : (0#5 : RegNum) ≠ isrReg := by decide
  cases i
  case ldRm p q k | ldhSpls e p q k | ldbSpls e p q k => cases p <;> cases q <;> rfl
  case stRm p q k | sthSpls p q k | stbSpls p q k => cases p <;> cases q <;> rfl
  case ldSls rd a =>
    simp only [Instr.clean, exec, execLdSls, slsAddr_clean]
  case stSls rd a =>
    simp only [Instr.clean, exec, execStSls, slsAddr_clean]
  case ldRrmAdd p q t | ldRrmAddc p q t | ldRrmSub p q t | ldRrmSubb p q t | ldRrmAnd p q t | ldRrmOr p q t | ldRrmXor p q t =>
    cases p <;> cases q
    case false.false => exact s.rrmLoad_plain _ _ _ _ _ r0 (legal (by simp [Instr.regFields]))
    all_goals rfl
  case ldRrmSh p q | ldRrmSha p q =>
    cases p <;> cases q
    case false.false => exact s.rrmLoad_plain _ _ _ _ _ r0 (legal (by simp [Instr.regFields]))
    all_goals rfl
  case stRrmAdd p q t | stRrmAddc p q t | stRrmSub p q t | stRrmSubb p q t | stRrmAnd p q t | stRrmOr p q t | stRrmXor p q t =>
    cases p <;> cases q
    case false.false => exact s.rrmStore_plain _ _ _ _ _ r0 (legal (by simp [Instr.regFields]))
    all_goals rfl
  case stRrmSh p q | stRrmSha p q =>
    cases p <;> cases q
    case false.false => exact s.rrmStore_plain _ _ _ _ _ r0 (legal (by simp [Instr.regFields]))
    all_goals rfl
  all_goals rfl

/-- Settles O13: the decoded word and the encoded one agree with the instruction's fields outside the ignored bits, which hold 0 in a
clean form, and a meaning that does not perform its operation reads none of the fields it clears. -/
theorem decodedWordIsItsEncodingUpToIgnoredBits : Obligations.DecodedWordIsItsEncodingUpToIgnoredBits := by
  unfold Obligations.DecodedWordIsItsEncodingUpToIgnoredBits
  refine ⟨fun w i h => ?agree, fun i => ?zero, fun i s h => exec_clean h⟩
  case agree => exact (decodeWord_agrees h).trans (encode_agrees i).symm
  case zero => exact (encodeFields_misses i.clean_unusedZero).and_eq_zero

end Sys2Proof.Machine
end

section
/-! The ALU instructions (40_ri.md, 41_rr.md, 42_rrr.md R140 to R212): from the answer of the shared ALU to the outcome of every member of
the three formats, with any legal registers. -/

namespace Sys2Proof.Machine

/-! ### From an ALU rule to an outcome, one lemma for each kind of operation (R141 to R148) -/

section
variable {i : Instr} {s : State} {rd : RegNum} {f : Bool} {logic : CarryRule} {op : AluOp} {a b : Word}

/-- An instruction whose rule is an ALU operation with a value. -/
theorem aluOutcome_of_alu {o : AluOut} (h : exec i s = s.finish (s.aluEffect logic op rd f a b))
    (ho : alu op logic a b s.flags.c = some o) :
    AluOutcome i s rd o.r f (o.flags s.flags (Config.freeBit s.draws)) o.carry.draws := by
  apply aluOutcome_of_commit
  rw [h]
  simp only [State.aluEffect, ho]
  rfl

theorem aluOutcome_add (h : exec i s = s.finish (s.aluEffect logic .add rd f a b)) :
    AluOutcome i s rd (a + b) f (sumFlags a b false) false := by
  simpa [addWithCarry_r, addWithCarry_flags] using aluOutcome_of_alu h rfl

theorem aluOutcome_addc (h : exec i s = s.finish (s.aluEffect logic .addc rd f a b)) :
    AluOutcome i s rd (a + b + BitVec.ofNat 32 s.flags.c.toNat) f (sumFlags a b s.flags.c) false := by
  simpa [addWithCarry_r, addWithCarry_flags] using aluOutcome_of_alu h rfl

theorem aluOutcome_sub (h : exec i s = s.finish (s.aluEffect logic .sub rd f a b)) :
    AluOutcome i s rd (a - b) f (sumFlags a (~~~b) true) false := by
  simpa only [addWithCarry_r, addWithCarry_flags, addWithCarry_carry_draws, add_not_add_one] using aluOutcome_of_alu h rfl

theorem aluOutcome_subb (h : exec i s = s.finish (s.aluEffect logic .subb rd f a b)) :
    AluOutcome i s rd (a + ~~~b + BitVec.ofNat 32 s.flags.c.toNat) f (sumFlags a (~~~b) s.flags.c) false := by
  simpa only [addWithCarry_r, addWithCarry_flags, addWithCarry_carry_draws] using aluOutcome_of_alu h rfl

/-- Z and N are the result's, V is clear, and C is what the rule for it gives. -/
theorem AluOut.flags_of_no_overflow (r : Word) (rule : CarryRule) (old : Flags) (free : Bool) :
    AluOut.flags ⟨r, false, rule⟩ old free = resultFlags r (rule.apply old.c free) := by
  simp only [AluOut.flags, resultFlags, BitVec.msb_eq_getLsbD_last]

theorem aluOutcome_and (h : exec i s = s.finish (s.aluEffect logic .and rd f a b)) :
    AluOutcome i s rd (a &&& b) f (resultFlags (a &&& b) (logic.apply s.flags.c (Config.freeBit s.draws))) logic.draws := by
  rw [← AluOut.flags_of_no_overflow]
  exact aluOutcome_of_alu h (alu_and logic a b s.flags.c)

theorem aluOutcome_or (h : exec i s = s.finish (s.aluEffect logic .or rd f a b)) :
    AluOutcome i s rd (a ||| b) f (resultFlags (a ||| b) (logic.apply s.flags.c (Config.freeBit s.draws))) logic.draws := by
  rw [← AluOut.flags_of_no_overflow]
  exact aluOutcome_of_alu h (alu_or logic a b s.flags.c)

theorem aluOutcome_xor (h : exec i s = s.finish (s.aluEffect logic .xor rd f a b)) :
    AluOutcome i s rd (a ^^^ b) f (resultFlags (a ^^^ b) (logic.apply s.flags.c (Config.freeBit s.draws))) logic.draws := by
  rw [← AluOut.flags_of_no_overflow]
  exact aluOutcome_of_alu h (alu_xor logic a b s.flags.c)

@[simp] theorem alu_sh (rule : CarryRule) (a b : Word) (c : Bool) : alu .sh rule a b c = shift false a b := rfl

@[simp] theorem alu_sha (rule : CarryRule) (a b : Word) (c : Bool) : alu .sha rule a b c = shift true a b := rfl

/-- C after a left shift: a free value for the amount 0, which is counted as used, else the last bit shifted out (R146). -/
theorem leftShift_rule (a : Word) (n : Nat) (old free : Bool) :
    CarryRule.apply old free (if n = 0 then .anyBit else .is (a.getLsbD (32 - n))) = leftShiftCarry a n free
    ∧ CarryRule.draws (if n = 0 then .anyBit else .is (a.getLsbD (32 - n))) = (n == 0) := by
  unfold leftShiftCarry
  split
  case isTrue hn => exact ⟨rfl, by simp [hn, CarryRule.draws]⟩
  case isFalse hn => exact ⟨rfl, by simp [hn, CarryRule.draws]⟩

theorem aluOutcome_shift_left {ar : Bool} {n : Nat} (hn : n ≤ 31) (hb : b = BitVec.ofNat 32 n)
    (hop : alu op logic a b s.flags.c = shift ar a b) (h : exec i s = s.finish (s.aluEffect logic op rd f a b)) :
    AluOutcome i s rd (a <<< n) f (resultFlags (a <<< n) (leftShiftCarry a n (Config.freeBit s.draws))) (n == 0) := by
  subst hb
  obtain ⟨hc, hd⟩ := leftShift_rule a n s.flags.c (Config.freeBit s.draws)
  rw [← hc, ← hd, ← AluOut.flags_of_no_overflow]
  exact aluOutcome_of_alu h (hop.trans (shift_left ar a hn))

theorem aluOutcome_shift_right {ar : Bool} {m : Nat} (hm : m ≤ 31) (h1 : 1 ≤ m) (hb : b = -BitVec.ofNat 32 m)
    (hop : alu op logic a b s.flags.c = shift ar a b) (h : exec i s = s.finish (s.aluEffect logic op rd f a b)) :
    AluOutcome i s rd (if ar then a.sshiftRight m else a >>> m) f
      (resultFlags (if ar then a.sshiftRight m else a >>> m) false) false := by
  subst hb
  have hout := aluOutcome_of_alu h (hop.trans (shift_right ar a hm h1))
  rwa [AluOut.flags_of_no_overflow] at hout

/-- A shift by any other amount (D11). -/
theorem exec_shift_refused {ar : Bool} (hb : b.toInt < -31 ∨ 31 < b.toInt) (hop : alu op logic a b s.flags.c = shift ar a b)
    (h : exec i s = s.finish (s.aluEffect logic op rd f a b)) : exec i s = .refused .shiftRange := by
  rw [h, State.aluEffect, hop, shift_none ar a b hb]
  rfl

end

/-! ### RI (40_ri.md R150 to R158) -/

/-- Settles O21. -/
theorem riArithmeticOutcome : Obligations.RiArithmeticOutcome := by
  unfold Obligations.RiArithmeticOutcome
  intro s rd rs1 f h k hd h1 a b c
  have legal (op : AluOp) := s.ri_legal op f (riConst h k) hd h1
  exact ⟨aluOutcome_add (legal .add), aluOutcome_addc (legal .addc), aluOutcome_sub (legal .sub), aluOutcome_subb (legal .subb)⟩

/-- Settles O22. -/
theorem riLogicOutcome : Obligations.RiLogicOutcome := by
  unfold Obligations.RiLogicOutcome
  intro s rd rs1 f h k hd h1 a b bAnd
  have legal (op : AluOp) (b : Word) := s.ri_legal op f b hd h1
  exact ⟨aluOutcome_and (logic := .is false) (legal .and (riConstAnd h k)), aluOutcome_or (logic := .is false) (legal .or (riConst h k)),
    aluOutcome_xor (logic := .is false) (legal .xor (riConst h k))⟩

/-- The amounts of RI shifts, sign-extended. -/
theorem signExtend_amount {n : Nat} (hn : n ≤ 31) :
    (BitVec.ofNat 16 n).signExtend 32 = BitVec.ofNat 32 n ∧ (-BitVec.ofNat 16 n).signExtend 32 = -BitVec.ofNat 32 n := by
  interval_cases n <;> exact ⟨rfl, rfl⟩

/-- Settles O23. -/
theorem riShiftOutcome : Obligations.RiShiftOutcome := by
  unfold Obligations.RiShiftOutcome
  intro s rd rs1 f hd h1 a
  have legal (op : AluOp) (b : Word) := s.ri_legal op f b hd h1
  refine ⟨fun n hn => ?left, fun m hm hm1 => ?right⟩
  case left =>
    have hb := (signExtend_amount hn).1
    exact ⟨aluOutcome_shift_left hn hb (alu_sh _ _ _ _) (legal .sh _), aluOutcome_shift_left hn hb (alu_sha _ _ _ _) (legal .sha _)⟩
  case right =>
    have hb := (signExtend_amount hm).2
    exact ⟨aluOutcome_shift_right hm hm1 hb (alu_sh _ _ _ _) (legal .sh _),
      aluOutcome_shift_right hm hm1 hb (alu_sha _ _ _ _) (legal .sha _)⟩

/-! ### RR (41_rr.md R182 to R190) -/

/-- Settles O24. -/
theorem rrArithmeticOutcome : Obligations.RrArithmeticOutcome := by
  unfold Obligations.RrArithmeticOutcome
  intro s rd rs1 rs2 f hd h1 h2 a b c
  have legal (op : AluOp) := s.rr_legal op f hd h1 h2
  exact ⟨aluOutcome_add (legal .add), aluOutcome_addc (legal .addc), aluOutcome_sub (legal .sub), aluOutcome_subb (legal .subb)⟩

/-- Settles O25. -/
theorem rrLogicOutcome : Obligations.RrLogicOutcome := by
  unfold Obligations.RrLogicOutcome
  intro s rd rs1 rs2 f hd h1 h2 a b c
  have legal (op : AluOp) := s.rr_legal op f hd h1 h2
  exact ⟨aluOutcome_and (logic := .keep) (legal .and), aluOutcome_or (logic := .keep) (legal .or),
    aluOutcome_xor (logic := .keep) (legal .xor)⟩

/-- Settles O26. -/
theorem rrShiftOutcome : Obligations.RrShiftOutcome := by
  unfold Obligations.RrShiftOutcome
  intro s rd rs1 rs2 f hd h1 h2 a
  have legal (op : AluOp) := s.rr_legal op f hd h1 h2
  refine ⟨fun n hn hb => ?left, fun m hm hm1 hb => ?right⟩
  case left =>
    exact ⟨aluOutcome_shift_left hn hb (alu_sh _ _ _ _) (legal .sh), aluOutcome_shift_left hn hb (alu_sha _ _ _ _) (legal .sha)⟩
  case right =>
    exact ⟨aluOutcome_shift_right hm hm1 hb (alu_sh _ _ _ _) (legal .sh),
      aluOutcome_shift_right hm hm1 hb (alu_sha _ _ _ _) (legal .sha)⟩

/-! ### RRR (42_rrr.md R200 to R212) -/

/-- Settles O28. -/
theorem rrrArithmeticOutcome : Obligations.RrrArithmeticOutcome := by
  unfold Obligations.RrrArithmeticOutcome
  intro s rd rs1 rs2 rs3 op1 f y hpc hd h1 h2 h3 hy a c
  have legal (op2 : AluOp) := s.rrr_legal op2 op1 f hpc hd h1 h2 h3 hy
  exact ⟨aluOutcome_add (legal .add), aluOutcome_addc (legal .addc), aluOutcome_sub (legal .sub), aluOutcome_subb (legal .subb)⟩

/-- Settles O29. -/
theorem rrrLogicOutcome : Obligations.RrrLogicOutcome := by
  unfold Obligations.RrrLogicOutcome
  intro s rd rs1 rs2 rs3 op1 f y hpc hd h1 h2 h3 hy a c
  have legal (op2 : AluOp) := s.rrr_legal op2 op1 f hpc hd h1 h2 h3 hy
  exact ⟨aluOutcome_and (logic := .zeroOrOld) (legal .and), aluOutcome_or (logic := .zeroOrOld) (legal .or),
    aluOutcome_xor (logic := .zeroOrOld) (legal .xor)⟩

/-- Settles O30. -/
theorem rrrShiftOutcome : Obligations.RrrShiftOutcome := by
  unfold Obligations.RrrShiftOutcome
  intro s rd rs1 rs2 rs3 op1 f y hpc hd h1 h2 h3 hy a
  have legal (op2 : AluOp) := s.rrr_legal op2 op1 f hpc hd h1 h2 h3 hy
  refine ⟨fun n hn hb => ?left, fun m hm hm1 hb => ?right⟩
  case left =>
    exact ⟨aluOutcome_shift_left hn hb (alu_sh _ _ _ _) (legal .sh), aluOutcome_shift_left hn hb (alu_sha _ _ _ _) (legal .sha)⟩
  case right =>
    exact ⟨aluOutcome_shift_right hm hm1 hb (alu_sh _ _ _ _) (legal .sh),
      aluOutcome_shift_right hm hm1 hb (alu_sha _ _ _ _) (legal .sha)⟩

/-! ### op1 and amounts out of range (42_rrr.md R202, 44_rrm.md R251, D11) -/

theorem aluValue_shift_refused {op : AluOp} (hop : op = .sh ∨ op = .sha) (a : Word) {b : Word} (c : Bool)
    (hb : b.toInt < -31 ∨ 31 < b.toInt) : aluValue op a b c = .error (.refuse .shiftRange) := by
  rcases hop with rfl | rfl <;> simp only [aluValue, alu_sh, alu_sha, shift_none _ a b hb]

/-- Settles O27: the values are those of `OpValue` for the operation each code names. -/
theorem op1TableOfRrr : Obligations.Op1TableOfRrr := by
  unfold Obligations.Op1TableOfRrr
  intro x y c
  have value (op : AluOp) (r : Word) := (aluValue_eq_ok op x y c r).2
  refine ⟨value .add _ rfl, value .addc _ rfl, value .sub _ (add_not_add_one x y), value .subb _ rfl, value .and _ rfl,
    value .or _ rfl, value .xor _ rfl, fun n hn hy => ?left, fun m hm h1 hy => ?right, fun hy => ?out⟩
  case left => exact value .sha _ (.inl ⟨n, hn, hy, rfl⟩)
  case right => exact value .sha _ (.inr ⟨m, hm, h1, hy, rfl⟩)
  case out => exact aluValue_shift_refused (.inr rfl) x c hy

theorem State.rrr_op1_refused (s : State) (op2 : AluOp) {rd rs1 rs2 rs3 : RegNum} (f : Bool) (hpc : rd ≠ pcReg) (hd : rd ≠ isrReg)
    (h1 : rs1 ≠ isrReg) (h2 : rs2 ≠ isrReg) (h3 : rs3 ≠ isrReg) (hb : (s.x rs3).toInt < -31 ∨ 31 < (s.x rs3).toInt) :
    s.rrr op2 rd rs1 rs2 rs3 .sha f = .refused .shiftRange := by
  simp only [rrr]
  rw [allowRd_ok hpc hd, allowRegs_ok (by simp [h1, h2, h3]), aluValue_shift_refused (op := Op1.alu .sha) (.inr rfl) _ _ hb]
  rfl

theorem State.addrSum_refused (s : State) {op : AluOp} (hop : op = .sh ∨ op = .sha) {p q : Bool} (hpq : p = true ∨ q = true) (a : Word)
    {b : Word} (hb : b.toInt < -31 ∨ 31 < b.toInt) : s.addrSum op p q a b = .error (.refuse .shiftRange) := by
  rw [addrSum, if_pos (by simpa using hpq), aluValue_shift_refused hop a _ hb]

/-- Settles O31. -/
theorem shiftsOutOfRangeAreRefused : Obligations.ShiftsOutOfRangeAreRefused := by
  unfold Obligations.ShiftsOutOfRangeAreRefused
  intro s rd rs1 rs2 rs3 op1 f p q k y hd h1 h2 h3 out
  refine ⟨fun hk => ?ri, fun hb => ?rr, fun hpc hb => ?op1, fun hpc hy hb => ?op2, fun hpc hq hpq hb => ?rrm⟩
  case ri =>
    have hb : out (k.signExtend 32).toInt := by rwa [BitVec.toInt_signExtend_of_le (by decide)]
    have legal (op : AluOp) := s.ri_legal op f (k.signExtend 32) hd h1
    exact ⟨exec_shift_refused hb (alu_sh _ _ _ _) (legal .sh), exec_shift_refused hb (alu_sha _ _ _ _) (legal .sha)⟩
  case rr =>
    have legal (op : AluOp) := s.rr_legal op f hd h1 h2
    exact ⟨exec_shift_refused hb (alu_sh _ _ _ _) (legal .sh), exec_shift_refused hb (alu_sha _ _ _ _) (legal .sha)⟩
  case op1 =>
    have refused (op2 : AluOp) := s.rrr_op1_refused op2 f hpc hd h1 h2 h3 hb
    exact ⟨refused .add, refused .addc, refused .sub, refused .subb, refused .and, refused .or, refused .xor, refused .sh,
      refused .sha⟩
  case op2 =>
    have legal (op2 : AluOp) := s.rrr_legal op2 op1 f hpc hd h1 h2 h3 hy
    exact ⟨exec_shift_refused hb (alu_sh _ _ _ _) (legal .sh), exec_shift_refused hb (alu_sha _ _ _ _) (legal .sha)⟩
  case rrm =>
    have load {op : AluOp} (hop : op = .sh ∨ op = .sha) : s.rrmLoad op rd rs1 rs2 p q .w = .refused .shiftRange := by
      rw [s.rrmLoad_legal op p .w hpc hd h1 h2 hq, s.addrSum_refused hop hpq _ hb]; rfl
    have store {op : AluOp} (hop : op = .sh ∨ op = .sha) : s.rrmStore op rd rs1 rs2 p q .w = .refused .shiftRange := by
      rw [s.rrmStore_legal op p .w hpc hd h1 h2 hq, s.addrSum_refused hop hpq _ hb]; rfl
    exact ⟨load (.inl rfl), load (.inr rfl), store (.inl rfl), store (.inr rfl)⟩

end Sys2Proof.Machine
end

section
/-! What the flags of a sum and of a subtraction say of the operands (40_ri.md R143 to R146, 45_br.md R293, the spec's decisions D6, D7). -/

namespace Sys2Proof.Machine

/-! ### The flags of a completed flag-setting instruction -/

theorem aluEffect_flags {s : State} {logic : CarryRule} {op : AluOp} {rd : RegNum} {a b : Word} {e : Effect} {o : AluOut}
    (h : s.aluEffect logic op rd true a b = .ok e) (ho : alu op logic a b s.flags.c = some o) :
    (s.advance e).flags = o.flags s.flags (Config.freeBit s.draws) := by
  obtain ⟨o', ho', rfl⟩ := State.aluEffect_eq_ok h
  rw [ho] at ho'
  cases ho'
  rfl

theorem State.ri_flags {s t : State} {op : AluOp} {rd rs1 : RegNum} {b : Word} {o : AluOut} (h : s.ri op rd rs1 true b = .next t)
    (ho : alu op (.is false) (s.x rs1) b s.flags.c = some o) : t.flags = o.flags s.flags (Config.freeBit s.draws) := by
  obtain ⟨e, he, -, rfl⟩ := finish_next h
  obtain ⟨-, -, he⟩ := bind_eq_ok he
  exact aluEffect_flags he ho

theorem State.rr_flags {s t : State} {op : AluOp} {rd rs1 rs2 : RegNum} {o : AluOut} (h : s.rr op rd rs1 rs2 true = .next t)
    (ho : alu op .keep (s.x rs1) (s.x rs2) s.flags.c = some o) : t.flags = o.flags s.flags (Config.freeBit s.draws) := by
  obtain ⟨e, he, -, rfl⟩ := finish_next h
  obtain ⟨-, -, he⟩ := bind_eq_ok he
  exact aluEffect_flags he ho

theorem State.rrr_flags {s t : State} {op2 : AluOp} {rd rs1 rs2 rs3 : RegNum} {op1 : Op1} {y : Word} {o : AluOut}
    (h : s.rrr op2 rd rs1 rs2 rs3 op1 true = .next t) (hy : OpValue (Op1.alu op1) (s.x rs2) (s.x rs3) s.flags.c y)
    (ho : alu op2 .zeroOrOld (s.x rs1) y s.flags.c = some o) : t.flags = o.flags s.flags (Config.freeBit s.draws) := by
  obtain ⟨e, he, -, rfl⟩ := finish_next h
  obtain ⟨-, -, he⟩ := bind_eq_ok he
  obtain ⟨-, -, he⟩ := bind_eq_ok he
  obtain ⟨y', hy', he⟩ := bind_eq_ok he
  rw [(aluValue_eq_ok _ _ _ _ _).2 hy] at hy'
  cases hy'
  exact aluEffect_flags he ho

/-! ### V and C of a sum (R145, R146) -/

theorem getLsbD_31 (x : Word) : x.getLsbD 31 = decide (2147483648 ≤ x.toNat) := by
  rw [show x.getLsbD 31 = x.msb by simp [BitVec.msb_eq_getLsbD_last], BitVec.msb_eq_decide]

/-- The integer a word stands for, by its top bit. -/
theorem toInt_cases (x : Word) :
    (x.toNat < 2147483648 ∧ x.toInt = x.toNat) ∨ (2147483648 ≤ x.toNat ∧ x.toInt = (x.toNat : Int) - 4294967296) := by
  rw [BitVec.toInt_eq_toNat_cond]
  split <;> omega

/-- V says that the exact sum of the two integers and the carry does not fit 32 bits. -/
theorem sumFlags_v_iff (a b : Word) (c : Bool) :
    (sumFlags a b c).v = true ↔
      ¬ (-2147483648 ≤ a.toInt + b.toInt + c.toNat ∧ a.toInt + b.toInt + c.toNat < 2147483648) := by
  have hr : (a + b + BitVec.ofNat 32 c.toNat).toNat = (a.toNat + b.toNat + c.toNat) % 4294967296 := by
    simp [BitVec.toNat_add]
  have hc : c.toNat ≤ 1 := Bool.toNat_le c
  have ha := a.isLt
  have hb := b.isLt
  simp only [sumFlags, getLsbD_31, hr, Bool.and_eq_true, beq_iff_eq, bne_iff_ne, ne_eq, decide_eq_decide]
  rcases toInt_cases a with ⟨ha', ea⟩ | ⟨ha', ea⟩ <;> rcases toInt_cases b with ⟨hb', eb⟩ | ⟨hb', eb⟩ <;> rw [ea, eb] <;> omega

theorem sumFlags_c_iff (a b : Word) (c : Bool) : (sumFlags a b c).c = true ↔ 4294967296 ≤ a.toNat + b.toNat + c.toNat := by
  simp [sumFlags]

/-- The complement as an integer: one less than the negative. -/
theorem toInt_not (b : Word) : (~~~b).toInt = -b.toInt - 1 := by
  have hn : (~~~b).toNat = 4294967295 - b.toNat := by rw [BitVec.toNat_not]
  have hb := b.isLt
  rcases toInt_cases b with ⟨hb', eb⟩ | ⟨hb', eb⟩ <;> rcases toInt_cases (~~~b) with ⟨hn', en⟩ | ⟨hn', en⟩ <;> omega

theorem toNat_not (b : Word) : ((~~~b).toNat : Int) = 4294967295 - b.toNat := by
  have hb := b.isLt
  rw [BitVec.toNat_not]
  omega

/-- Settles O33: add and addc add Rs2, sub and subb its complement, with the carry each has. -/
theorem rrOverflowAndCarryAreExact : Obligations.RrOverflowAndCarryAreExact := by
  unfold Obligations.RrOverflowAndCarryAreExact
  intro s t rd rs1 rs2 a b c fits
  have hnot := toInt_not b
  have hnat := toNat_not b
  have hc : c = (s.flags.c.toNat : Int) := rfl
  have sum {op : AluOp} {b' : Word} {cin : Bool} (hop : alu op .keep a b s.flags.c = some (addWithCarry a b' cin))
      (h : s.rr op rd rs1 rs2 true = .next t) : t.flags = sumFlags a b' cin :=
    (State.rr_flags h hop).trans (addWithCarry_flags _ _ _ _ _)
  refine ⟨fun h => ?add, fun h => ?addc, fun h => ?sub, fun h => ?subb⟩
  case add => rw [sum (b' := b) (cin := false) rfl h, sumFlags_v_iff, sumFlags_c_iff]; simp [fits]
  case addc => rw [sum (b' := b) (cin := s.flags.c) rfl h, sumFlags_v_iff, sumFlags_c_iff]; exact ⟨Iff.rfl, by omega⟩
  case sub => rw [sum (b' := ~~~b) (cin := true) rfl h, sumFlags_v_iff, sumFlags_c_iff]; simp only [fits, hnot, Bool.toNat_true]; omega
  case subb => rw [sum (b' := ~~~b) (cin := s.flags.c) rfl h, sumFlags_v_iff, sumFlags_c_iff]; simp only [fits, hnot, hc]; omega

/-! ### The conditions after a subtraction (45_br.md R293) -/

theorem sumFlags_sub_z_iff (a b : Word) : (sumFlags a (~~~b) true).z = true ↔ a = b := by
  simp only [sumFlags, add_not_add_one, beq_iff_eq]
  exact sub_eq_zero

theorem sumFlags_sub_c_iff (a b : Word) : (sumFlags a (~~~b) true).c = true ↔ b.toNat ≤ a.toNat := by
  have hb := toNat_not b
  rw [sumFlags_c_iff, Bool.toNat_true]
  omega

theorem sumFlags_sub_v_iff (a b : Word) : (sumFlags a (~~~b) true).v = true ↔
    ¬ (-2147483648 ≤ a.toInt - b.toInt ∧ a.toInt - b.toInt < 2147483648) := by
  rw [sumFlags_v_iff, toInt_not, Bool.toNat_true]
  omega

theorem sumFlags_sub_n (a b : Word) : (sumFlags a (~~~b) true).n = (a - b).getLsbD 31 := by
  simp only [sumFlags, add_not_add_one]

/-- N and V differ exactly when the first operand is the smaller integer: N is the sign of the difference unless V says it overflowed. -/
theorem sumFlags_sub_n_ne_v_iff (a b : Word) : (sumFlags a (~~~b) true).n ≠ (sumFlags a (~~~b) true).v ↔ a.toInt < b.toInt := by
  have hd : (a - b).toNat = (4294967296 - b.toNat + a.toNat) % 4294967296 := BitVec.toNat_sub a b
  have ha := a.isLt
  have hb := b.isLt
  rw [ne_eq, Bool.eq_iff_iff, sumFlags_sub_v_iff, sumFlags_sub_n, getLsbD_31, decide_eq_true_eq, hd]
  rcases toInt_cases a with ⟨ha', ea⟩ | ⟨ha', ea⟩ <;> rcases toInt_cases b with ⟨hb', eb⟩ | ⟨hb', eb⟩ <;> rw [ea, eb] <;> omega

theorem holds_lt_iff (fl : Flags) : Cond.holds .lt fl = true ↔ fl.n ≠ fl.v := by
  simp only [Cond.holds]
  cases fl.n <;> cases fl.v <;> decide

theorem compares_sub (a b : Word) : Compares (sumFlags a (~~~b) true) a b := by
  have z := sumFlags_sub_z_iff a b
  have c := sumFlags_sub_c_iff a b
  have v := sumFlags_sub_v_iff a b
  have n := sumFlags_sub_n a b
  have lt := (holds_lt_iff _).trans (sumFlags_sub_n_ne_v_iff a b)
  generalize sumFlags a (~~~b) true = fl at *
  have zNat : fl.z = true ↔ a.toNat = b.toNat := z.trans BitVec.toNat_inj.symm
  have zInt : fl.z = true ↔ a.toInt = b.toInt := z.trans BitVec.toInt_inj.symm
  have ge : Cond.holds .ge fl = true ↔ b.toInt ≤ a.toInt := by
    rw [← Int.not_lt, ← lt, holds_lt, Bool.not_eq_true', Bool.not_eq_false]
  constructor
  case eq => exact z
  case ne => simp only [Cond.holds, Bool.not_eq_true', ← Bool.not_eq_true, z, ne_eq]
  case hi => simp only [Cond.holds, Bool.and_eq_true, Bool.not_eq_true', ← Bool.not_eq_true, zNat, c]; omega
  case ls => simp only [Cond.holds, Bool.or_eq_true, Bool.not_eq_true', ← Bool.not_eq_true, zNat, c]; omega
  case cs => exact c
  case cc => simp only [Cond.holds, Bool.not_eq_true', ← Bool.not_eq_true, c]; omega
  case ge => exact ge
  case lt => exact lt
  case gt => rw [holds_gt, Bool.and_eq_true, ge, Bool.not_eq_true', ← Bool.not_eq_true, zInt]; omega
  case le => rw [holds_le, Bool.or_eq_true, lt, zInt]; omega
  case mi => rw [← n]; rfl
  case pl => rw [← n]; simp only [Cond.holds, Bool.not_eq_true']
  case vs => rw [show Cond.holds .vs fl = fl.v from rfl, v]; omega
  case vc => simp only [Cond.holds, Bool.not_eq_true', ← Bool.not_eq_true, v]; omega

/-- Settles O35: in each format the flags are those of the sum with the complement and one. -/
theorem conditionsCompareAfterSubtract : Obligations.ConditionsCompareAfterSubtract := by
  unfold Obligations.ConditionsCompareAfterSubtract
  intro s t rd rs1 rs2 rs3 op1 h k y
  refine ⟨fun hx => ?ri, fun hx => ?rr, fun hx hy => ?rrr⟩
  case ri => exact (State.ri_flags (o := addWithCarry _ _ _) hx rfl).trans (addWithCarry_flags _ _ _ _ _) ▸ compares_sub _ _
  case rr => exact (State.rr_flags (o := addWithCarry _ _ _) hx rfl).trans (addWithCarry_flags _ _ _ _ _) ▸ compares_sub _ _
  case rrr => exact (State.rrr_flags (o := addWithCarry _ _ _) hx hy rfl).trans (addWithCarry_flags _ _ _ _ _) ▸ compares_sub _ _

end Sys2Proof.Machine
end

section
/-! Rules of the whole machine (10_state.md R27, R34 to R38, 60_exceptions.md R350 to R354): each follows from the shape of the effect behind
a next state, or from the reasons a meaning can stop for. -/

namespace Sys2Proof.Machine

/-! ### The pending late write (10_state.md R34, R35) -/

/-- No write of an effect that lands meets the pending late write. -/
theorem State.Lands.write_ne {s : State} {e : Effect} (h : s.Lands e) {w v : RegWrite} (hw : s.late = some w) (hv : e.write = some v) :
    v.reg ≠ w.reg := by
  intro heq
  have hcollide : collide s.late e.write = true := by
    rw [hv, collide_iff]
    exact ⟨w, hw, heq.symm⟩
  rw [h.apart] at hcollide
  cases hcollide

theorem State.landed_of_late {s : State} {w : RegWrite} (h : s.late = some w) : s.landed w.reg = w.val := by
  simp [landed, h]

theorem State.seqFetch_of_late {s : State} {w : RegWrite} (h : s.late = some w) (hpc : w.reg = pcReg) : s.seqFetch = w.val := by
  simp [seqFetch, h, hpc]

theorem State.landed_of_not_pending {s : State} {r : RegNum} (h : ¬ s.pending r) : s.landed r = s.reg r := by
  unfold landed
  split
  case h_1 w hw => rw [if_neg fun hr => h ⟨w, hw, hr⟩]
  case h_2 => rfl

/-- A register that the instruction's own write does not name holds what it held once the pending write has landed. -/
theorem State.advance_reg_of_ne {s : State} {e : Effect} {r : RegNum} (hr : r ≠ pcReg) (hw : ∀ w ∈ e.write, w.reg ≠ r) :
    (s.advance e).reg r = s.landed r := by
  rw [s.advance_reg e hr]
  split
  case h_1 w he => rw [if_neg (hw w he)]
  case h_2 => rfl

theorem exec_late_lands {i : Instr} {s t : State} {w : RegWrite} (h : exec i s = .next t) (hw : s.late = some w) :
    (w.reg ≠ pcReg → t.reg w.reg = w.val) ∧ (w.reg = pcReg → t.fa1 = w.val) := by
  obtain ⟨e, -, hland, rfl⟩ := exec_next h
  have hne : ∀ v ∈ e.write, v.reg ≠ w.reg := fun v hv => hland.write_ne hw hv
  refine ⟨fun hpc => ?_, fun hpc => ?_⟩
  · rw [State.advance_reg_of_ne hpc hne, State.landed_of_late hw]
  · rw [State.advance_fa1, nextFetch_seq s e.write fun v hv => hpc ▸ hne v hv, State.seqFetch_of_late hw hpc]

/-- Settles O51. -/
theorem pendingLateWriteLands : Obligations.PendingLateWriteLands := by
  unfold Obligations.PendingLateWriteLands
  exact fun _ _ _ _ h hw => exec_late_lands h hw

/-- Settles O52: the load's only time-2 write is the base update, and its datum is the late write that the next instruction lands. -/
theorem loadShadowIsOneInstruction : Obligations.LoadShadowIsOneInstruction := by
  unfold Obligations.LoadShadowIsOneInstruction
  intro s t u i j rd ty hload hi hj
  obtain ⟨ea, v, e, hea, hv, hrd, hlate, hbase, rfl⟩ := exec_load_next hload hi
  obtain ⟨-, -, hdatum⟩ := State.memLoad_eq_ok.1 hv
  refine ⟨ea, v, hea, hdatum, fun hne => ?between, (exec_late_lands hj hlate).1 hrd⟩
  case between =>
    rw [State.x_of_ne _ hrd]
    exact State.advance_reg_of_ne hrd fun w hw hwr => hne (hwr ▸ hbase w hw)

/-! ### What a completed instruction leaves unchanged -/

/-- Settles O53. -/
theorem onlyJumpsRedirectFetch : Obligations.OnlyJumpsRedirectFetch := by
  unfold Obligations.OnlyJumpsRedirectFetch
  intro i s t h
  obtain ⟨e, hfit, -, rfl⟩ := exec_next h
  exact ⟨s.advance_fa0 e, fun hj => nextFetch_seq s e.write (hfit.jump hj)⟩

/-- Settles O54. -/
theorem flagsChangeOnlyUnderF : Obligations.FlagsChangeOnlyUnderF := by
  unfold Obligations.FlagsChangeOnlyUnderF
  intro i s t h hf
  obtain ⟨e, hfit, -, rfl⟩ := exec_next h
  rw [State.advance_flags, hfit.flags hf]
  rfl

/-- Settles O55. -/
theorem memoryChangesOnlyByStores : Obligations.MemoryChangesOnlyByStores := by
  unfold Obligations.MemoryChangesOnlyByStores
  intro i s t h hst
  have hsame := exec_memorySame h hst
  exact ⟨hsame.bytes, hsame.noStore⟩

/-- Settles O56: no effect of an instruction's shape writes register 31 at time 2. -/
theorem contextIsrAndParametersNeverChange : Obligations.ContextIsrAndParametersNeverChange := by
  unfold Obligations.ContextIsrAndParametersNeverChange
  intro i s t h
  obtain ⟨e, hfit, -, rfl⟩ := exec_next h
  refine ⟨s.advance_ctx e, s.advance_cfg e, fun hpend => ?_⟩
  rw [State.advance_reg_of_ne (by decide) fun w hw => (hfit.write w hw).1, State.landed_of_not_pending hpend]

/-- Settles O57. -/
theorem freeValuesAreUsedOnlyWhereDrawn : Obligations.FreeValuesAreUsedOnlyWhereDrawn := by
  unfold Obligations.FreeValuesAreUsedOnlyWhereDrawn
  intro i s t h
  obtain ⟨e, hfit, -, rfl⟩ := exec_next h
  rw [State.advance_draws, hfit.drew]
  cases s.drawsAt i <;> rfl

/-! ### The reasons of a stop (60_exceptions.md R351) -/

theorem exec_fault {i : Instr} {s : State} {r : Fault} (h : exec i s = .fault r) : Stop.Fits i s (.fault r) := by
  rcases exec_stops (r := .fault r) h with hfit | ⟨_, _, -, -, hr⟩
  · exact hfit
  · cases hr

theorem exec_refused {i : Instr} {s : State} {r : Refusal} (h : exec i s = .refused r) :
    Stop.Fits i s (.refuse r) ∨ ∃ e, Effect.Fits i s e ∧ s.objection e = some r := by
  rcases exec_stops (r := .refuse r) h with hfit | ⟨e, o, hfit, ho, hr⟩
  · exact .inl hfit
  · cases hr; exact .inr ⟨e, hfit, ho⟩

/-- What an objection to an effect says of its writes (10_state.md R24, R35, R36, R38). -/
inductive Objects (s : State) (e : Effect) : Refusal → Prop where
  | collision (h : collide s.late e.write = true) : Objects s e .writeCollision
  | misaligned (h : pcAligned e.write = false ∨ pcAligned e.late = false) : Objects s e .pcMisaligned
  | shadow (h : s.barsJump e.write = true ∨ s.barsJump e.late = true) : Objects s e .shadowJump
  | constant (h : s.barsConst e.write = true ∨ s.barsConst e.late = true) : Objects s e .constantRegister

theorem objects_of_objection {s : State} {e : Effect} {r : Refusal} (h : s.objection e = some r) : Objects s e r := by
  unfold State.objection at h
  split at h
  case isTrue hc => cases h; exact .collision hc
  case isFalse =>
    split at h
    case isTrue ha => cases h; exact .misaligned (by simpa using ha)
    case isFalse =>
      split at h
      case isTrue hj => cases h; exact .shadow (by simpa using hj)
      case isFalse =>
        split at h
        case isTrue hc => cases h; exact .constant (by simpa using hc)
        case isFalse => cases h

theorem pcAligned_eq_false {w : Option RegWrite} (h : pcAligned w = false) : ∃ v, w = some ⟨pcReg, v⟩ := by
  unfold pcAligned at h
  split at h
  case h_1 v hv => exact ⟨v, pcTarget_eq_some hv⟩
  case h_2 => cases h

theorem barsJump_eq_true {s : State} {w : Option RegWrite} (h : s.barsJump w = true) : (∃ v, w = some ⟨pcReg, v⟩) ∧ s.jumpBarred := by
  cases w with
  | none => rw [State.barsJump_none] at h; cases h
  | some w =>
    obtain ⟨r, v⟩ := w
    obtain ⟨rfl, hj⟩ := (s.barsJump_some r v).1 h
    exact ⟨⟨v, rfl⟩, hj⟩

theorem barsConst_eq_true {s : State} {w : Option RegWrite} (h : s.barsConst w = true) :
    ∃ r v, w = some ⟨r, v⟩ ∧ r ≠ pcReg ∧ s.cfg.regConst = .zeroOnes ∧ (r = 0 ∨ r = 1) := by
  cases w with
  | none => rw [State.barsConst_none] at h; cases h
  | some w =>
    obtain ⟨r, v⟩ := w
    have hbar := (s.barsConst_some r v).1 h
    have hne := State.constBarred_ne_pc hbar
    obtain ⟨hc, hr, -⟩ := hbar
    exact ⟨r, v, rfl, hne, hc, hr⟩

section
variable {i : Instr} {s : State} {e : Effect} (hfit : Effect.Fits i s e)
include hfit

/-- An effect that writes the pc at time 2 or late belongs to an instruction that may write the pc. -/
theorem Effect.Fits.mayWritePc {v : Word} (h : e.write = some ⟨pcReg, v⟩ ∨ e.late = some ⟨pcReg, v⟩) : i.mayWritePc = true := by
  rcases h with hw | hl
  · cases hj : i.jumps with
    | true => simp [Instr.mayWritePc, hj]
    | false => exact absurd rfl (hfit.jump hj _ hw)
  · obtain ⟨-, -, hpc⟩ := hfit.late _ hl
    exact hpc rfl

theorem Effect.Fits.collision (h : collide s.late e.write = true) :
    ∃ w, s.late = some w ∧ (w.reg ∈ i.regFields ∨ (w.reg = pcReg ∧ i.mayWritePc = true)) := by
  cases hw : e.write with
  | none => rw [hw, collide_none] at h; cases h
  | some v =>
    rw [hw, collide_iff] at h
    obtain ⟨w, hl, hreg⟩ := h
    exact ⟨w, hl, hreg ▸ (hfit.write v hw).2⟩

theorem Effect.Fits.misaligned (h : pcAligned e.write = false ∨ pcAligned e.late = false) : i.mayWritePc = true := by
  rcases h with h | h
  · obtain ⟨v, hv⟩ := pcAligned_eq_false h; exact hfit.mayWritePc (.inl hv)
  · obtain ⟨v, hv⟩ := pcAligned_eq_false h; exact hfit.mayWritePc (.inr hv)

theorem Effect.Fits.shadowed (h : s.barsJump e.write = true ∨ s.barsJump e.late = true) : i.mayWritePc = true ∧ s.jumpBarred := by
  rcases h with h | h
  · obtain ⟨⟨v, hv⟩, hj⟩ := barsJump_eq_true h; exact ⟨hfit.mayWritePc (.inl hv), hj⟩
  · obtain ⟨⟨v, hv⟩, hj⟩ := barsJump_eq_true h; exact ⟨hfit.mayWritePc (.inr hv), hj⟩

/-- Register 2 is neither R0 nor R1, so a write that `REG_CONST` bars names a register field. -/
theorem Effect.Fits.constant (h : s.barsConst e.write = true ∨ s.barsConst e.late = true) :
    s.cfg.regConst = .zeroOnes ∧ (0 ∈ i.regFields ∨ 1 ∈ i.regFields) := by
  have named {r : RegNum} (hr : r = 0 ∨ r = 1) (hm : r ∈ i.regFields) : 0 ∈ i.regFields ∨ 1 ∈ i.regFields := by
    rcases hr with rfl | rfl
    · exact .inl hm
    · exact .inr hm
  rcases h with h | h
  · obtain ⟨r, v, hv, hne, hc, hr⟩ := barsConst_eq_true h
    rcases (hfit.write _ hv).2 with hm | ⟨hpc, -⟩
    · exact ⟨hc, named hr hm⟩
    · exact absurd hpc hne
  · obtain ⟨r, v, hv, -, hc, hr⟩ := barsConst_eq_true h
    obtain ⟨-, hm, -⟩ := hfit.late _ hv
    exact ⟨hc, named hr hm⟩

end

/-- A refusal that is no objection to writes is one of the meaning's own checks. -/
theorem fits_of_refused {i : Instr} {s : State} {r : Refusal} (h : exec i s = .refused r)
    (hr : r ≠ .writeCollision ∧ r ≠ .pcMisaligned ∧ r ≠ .shadowJump ∧ r ≠ .constantRegister) : Stop.Fits i s (.refuse r) := by
  rcases exec_refused h with hfit | ⟨e, -, ho⟩
  · exact hfit
  · obtain ⟨h1, h2, h3, h4⟩ := hr
    cases objects_of_objection ho <;> contradiction

/-- One of the four objections is no check of a meaning, so it is an objection to an effect of the instruction's shape. -/
theorem objects_of_refused {i : Instr} {s : State} {r : Refusal} (h : exec i s = .refused r) (hr : ¬ Stop.Fits i s (.refuse r)) :
    ∃ e, Effect.Fits i s e ∧ Objects s e r := by
  rcases exec_refused h with hfit | ⟨e, hfit, ho⟩
  · exact absurd hfit hr
  · exact ⟨e, hfit, objects_of_objection ho⟩

/-- The refusals that some meaning or objection gives. -/
theorem refused_listed {i : Instr} {s : State} {r : Refusal} (h : exec i s = .refused r) :
    r ∈ [.misaligned, .prohibitedRd, .register31, .pcBaseUpdate, .contextSwitch, .shiftRange, .pcMisaligned, .writeCollision,
      .shadowJump, .sliToPc, .constantRegister] := by
  rcases exec_refused h with hfit | ⟨e, -, ho⟩
  · cases r
    case notModelled | undecodable | fetchAfterStore => exact hfit.elim
    all_goals decide
  · cases objects_of_objection ho <;> decide

/-- Settles O58. -/
theorem meaningsStopOnlyForListedReasons : Obligations.MeaningsStopOnlyForListedReasons := by
  unfold Obligations.MeaningsStopOnlyForListedReasons
  intro i s
  have check {r : Refusal} (h : exec i s = .refused r)
      (hr : r ≠ .writeCollision ∧ r ≠ .pcMisaligned ∧ r ≠ .shadowJump ∧ r ≠ .constantRegister) := fits_of_refused h hr
  refine ⟨exec_fault, exec_fault, fun h => check h (by decide), fun h => check h (by decide), fun h => check h (by decide),
    fun h => check h (by decide), fun h => check h (by decide), fun h => check h (by decide), fun h => ?misaligned,
    fun h => ?collision, fun h => ?shadow, fun h => check h (by decide), fun h => ?constant, fun r h => refused_listed h⟩
  case misaligned =>
    obtain ⟨e, hfit, ⟨⟩⟩ := objects_of_refused h not_false
    exact hfit.misaligned ‹_›
  case collision =>
    obtain ⟨e, hfit, ⟨⟩⟩ := objects_of_refused h not_false
    exact hfit.collision ‹_›
  case shadow =>
    obtain ⟨e, hfit, ⟨⟩⟩ := objects_of_refused h not_false
    exact hfit.shadowed ‹_›
  case constant =>
    obtain ⟨e, hfit, ⟨⟩⟩ := objects_of_refused h not_false
    exact hfit.constant ‹_›

end Sys2Proof.Machine
end

section
/-! Register fields that the spec does not admit (60_exceptions.md R351 rows 5 to 7, the spec's decisions D14, D15, D39): the checks stand first
in every meaning, in the order of the rows. -/

namespace Sys2Proof.Machine

/-- What the spec asks of an instruction whose register fields it does not admit, one clause for each row. -/
def RefusesIllFormed (i : Instr) (s : State) : Prop :=
  (i.rdAllowed = false → exec i s = .refused .prohibitedRd)
  ∧ (i.rdAllowed = true → i.avoidsIsr = false → exec i s = .refused .register31)
  ∧ (i.rdAllowed = true → i.avoidsIsr = true → i.baseAllowed = false → exec i s = .refused .pcBaseUpdate)

theorem rdAllowed_iff {i : Instr} {rd : RegNum} (h : i.restrictedRd = some rd) : i.rdAllowed = true ↔ rd ≠ pcReg ∧ rd ≠ isrReg := by
  simp [Instr.rdAllowed, h]

theorem avoidsIsr_iff (i : Instr) : i.avoidsIsr = true ↔ ∀ r ∈ i.regFields, r ≠ isrReg := by
  simp [Instr.avoidsIsr]

theorem baseAllowed_iff {i : Instr} {q : Bool} {rs1 : RegNum} (h : i.updatedBase = if q then some rs1 else none) :
    i.baseAllowed = true ↔ (q = true → rs1 ≠ pcReg) := by
  cases q <;> simp [Instr.baseAllowed, h]

/-- A form with a restricted Rd and a base: the three checks in their order. -/
theorem refusesIllFormed_of_base {i : Instr} {s : State} {rd rs1 : RegNum} {rs : List RegNum} {q : Bool} {x : Except Stop Effect}
    (hx : exec i s = s.finish (do allowRd rd; allowRegs rs; allowBase q rs1; x)) (hrd : i.restrictedRd = some rd)
    (hregs : i.regFields = rd :: rs) (hbase : i.updatedBase = if q then some rs1 else none) : RefusesIllFormed i s := by
  refine ⟨fun h => ?rd, fun h h31 => ?isr, fun h h31 hb => ?base⟩
  case rd =>
    rw [← Bool.not_eq_true, rdAllowed_iff hrd, not_and_or, not_not, not_not] at h
    rw [hx, allowRd_refuses h]
    rfl
  case isr =>
    obtain ⟨hpc, hisr⟩ := (rdAllowed_iff hrd).1 h
    have hmem : isrReg ∈ rs := by
      simpa [Instr.avoidsIsr, hregs, hisr] using h31
    rw [hx, allowRd_ok hpc hisr, allowRegs_refuses hmem]
    rfl
  case base =>
    obtain ⟨hpc, hisr⟩ := (rdAllowed_iff hrd).1 h
    have hall : ∀ r ∈ rs, r ≠ isrReg := fun r hr => (avoidsIsr_iff i).1 h31 r (hregs ▸ List.mem_cons_of_mem rd hr)
    obtain ⟨rfl, rfl⟩ : q = true ∧ rs1 = pcReg := by
      rw [← Bool.not_eq_true, baseAllowed_iff hbase] at hb
      simpa using hb
    rw [hx, allowRd_ok hpc hisr, allowRegs_ok hall, allowBase_refuses]
    rfl

/-- A form with a restricted Rd and no base: RRR, SLS. -/
theorem refusesIllFormed_of_rd {i : Instr} {s : State} {rd : RegNum} {rs : List RegNum} {x : Except Stop Effect}
    (hx : exec i s = s.finish (do allowRd rd; allowRegs rs; x)) (hrd : i.restrictedRd = some rd)
    (hregs : i.regFields = rd :: rs) (hbase : i.updatedBase = none) : RefusesIllFormed i s :=
  refusesIllFormed_of_base (q := false) (rs1 := rd) hx hrd hregs hbase

/-- A form that restricts neither Rd nor a base: RI, RR, SLI, the branches, PUNT. -/
theorem refusesIllFormed_of_free {i : Instr} {s : State} {rs : List RegNum} {x : Except Stop Effect}
    (hx : exec i s = s.finish (do allowRegs rs; x)) (hrd : i.restrictedRd = none) (hregs : i.regFields = rs)
    (hbase : i.updatedBase = none) : RefusesIllFormed i s := by
  refine ⟨fun h => ?rd, fun _ h31 => ?isr, fun _ _ hb => ?base⟩
  case rd => simp [Instr.rdAllowed, hrd] at h
  case isr =>
    have hmem : isrReg ∈ rs := by simpa [Instr.avoidsIsr, hregs] using h31
    rw [hx, allowRegs_refuses hmem]
    rfl
  case base => simp [Instr.baseAllowed, hbase] at hb

theorem exec_refusesIllFormed (i : Instr) (s : State) : RefusesIllFormed i s := by
  cases i
  case addRi | addcRi | subRi | subbRi | andRi | orRi | xorRi | shRi | shaRi => exact refusesIllFormed_of_free rfl rfl rfl rfl
  case addRr | addcRr | subRr | subbRr | andRr | orRr | xorRr | shRr | shaRr => exact refusesIllFormed_of_free rfl rfl rfl rfl
  case addRrr | addcRrr | subRrr | subbRrr | andRrr | orRrr | xorRrr | shRrr | shaRrr => exact refusesIllFormed_of_rd rfl rfl rfl rfl
  case ldRm | ldhSpls | ldbSpls | stRm | sthSpls | stbSpls => exact refusesIllFormed_of_base rfl rfl rfl rfl
  case ldRrmAdd | ldRrmAddc | ldRrmSub | ldRrmSubb | ldRrmAnd | ldRrmOr | ldRrmXor | ldRrmSh | ldRrmSha =>
    exact refusesIllFormed_of_base rfl rfl rfl rfl
  case stRrmAdd | stRrmAddc | stRrmSub | stRrmSubb | stRrmAnd | stRrmOr | stRrmXor | stRrmSh | stRrmSha =>
    exact refusesIllFormed_of_base rfl rfl rfl rfl
  case ldSls rd addr =>
    exact refusesIllFormed_of_rd (rd := rd) (rs := []) (x := do let v ← s.memLoad (slsAddr addr) .w; .ok { late := some ⟨rd, v⟩ })
      rfl rfl rfl rfl
  case stSls rd addr =>
    exact refusesIllFormed_of_rd (rd := rd) (rs := [])
      (x := do let st ← s.memStore (slsAddr addr) .w (s.x rd); .ok { store := some st }) rfl rfl rfl rfl
  case sli | sbr => exact refusesIllFormed_of_free rfl rfl rfl rfl
  case brAbs cond k =>
    exact refusesIllFormed_of_free (rs := []) (x := .ok (s.branchEffect cond (absTarget k))) rfl rfl rfl rfl
  case brRel cond k =>
    exact refusesIllFormed_of_free (rs := []) (x := .ok (s.branchEffect cond (s.x pcReg + relOffset k))) rfl rfl rfl rfl
  case punt => exact refusesIllFormed_of_free (rs := []) (x := .error (.refuse .contextSwitch)) rfl rfl rfl rfl

/-- Settles O50. -/
theorem illFormedInstructionsAreRefused : Obligations.IllFormedInstructionsAreRefused := by
  unfold Obligations.IllFormedInstructionsAreRefused
  exact exec_refusesIllFormed

/-- An instruction whose register fields are not admitted is refused under some name. -/
theorem exec_refused_of_illFormed (i : Instr) (s : State) (h : i.rdAllowed = false ∨ i.avoidsIsr = false ∨ i.baseAllowed = false) :
    ∃ r, exec i s = .refused r := by
  obtain ⟨hrd, h31, hbase⟩ := exec_refusesIllFormed i s
  cases hr : i.rdAllowed with
  | false => exact ⟨_, hrd hr⟩
  | true =>
    cases hi : i.avoidsIsr with
    | false => exact ⟨_, h31 hr hi⟩
    | true =>
      cases hb : i.baseAllowed with
      | false => exact ⟨_, hbase hr hi hb⟩
      | true => simp [hr, hi, hb] at h

/-- Settles O40. -/
theorem puntIsRefused : Obligations.PuntIsRefused := by
  unfold Obligations.PuntIsRefused
  exact fun _ => rfl

end Sys2Proof.Machine
end

section
/-! The branches (45_br.md R294, R295, 49_sbr.md R345): the word of BR_ABS, the three targets, and the outcome. -/

namespace Sys2Proof.Machine

/-! ### Words and targets as numbers (R107, R113) -/

theorem toNat_append_add {m n : Nat} (x : BitVec m) (y : BitVec n) : (x ++ y).toNat = x.toNat * 2 ^ n + y.toNat := by
  rw [BitVec.toNat_append, ← Nat.shiftLeft_add_eq_or_of_lt y.isLt, Nat.shiftLeft_eq]

theorem toNat_encBr (cond : Cond) (k : BitVec 23) : (encBr cond k false).toNat
    = 0xE0000000 + (codeOfCond cond).toNat / 2 * 2 ^ 25 + 4 * k.toNat + (codeOfCond cond).toNat % 2 := by
  have hcode := (codeOfCond cond).isLt
  simp only [encBr, toNat_append_add, BitVec.extractLsb'_toNat]
  simp
  omega

theorem absTarget_eq (k : BitVec 23) : absTarget k = BitVec.ofNat 32 (4 * k.toNat) := by
  have hk := k.isLt
  apply BitVec.eq_of_toNat_eq
  rw [absTarget, BitVec.toNat_setWidth, toNat_append_add, BitVec.toNat_ofNat]
  simp
  omega

theorem relOffset_eq (k : BitVec 23) : relOffset k = BitVec.ofInt 32 (4 * k.toInt) := by
  have hk := k.isLt
  apply BitVec.eq_of_toInt_eq
  rw [relOffset, BitVec.toInt_signExtend_of_le (by decide), BitVec.toInt_ofInt, BitVec.toInt_eq_toNat_cond, BitVec.toInt_eq_toNat_cond,
    toNat_append_add, Int.bmod_eq_of_le]
  all_goals
    simp
    split <;> omega

/-- Settles O37. -/
theorem brAbsOutcome : Obligations.BrAbsOutcome := by
  unfold Obligations.BrAbsOutcome
  intro s cond k
  rw [← absTarget_eq]
  exact ⟨toNat_encBr cond k, branchOutcome_of_commit rfl⟩

/-- Settles O38. -/
theorem brRelOutcome : Obligations.BrRelOutcome := by
  unfold Obligations.BrRelOutcome
  intro s cond k
  rw [← relOffset_eq]
  exact branchOutcome_of_commit rfl

/-- Settles O39. -/
theorem sbrOutcome : Obligations.SbrOutcome := by
  unfold Obligations.SbrOutcome
  intro s cond rs1 rs3 h1 h3
  apply branchOutcome_of_commit
  simp only [exec, execSbr]
  rw [allowRegs_ok (by simp [h1, h3])]
  rfl

end Sys2Proof.Machine
end

section
/-! The loads and stores (43_rm.md, 44_rrm.md, 47_sls_sli.md, 48_spls.md): each format's address, then the outcome that every load or store with
legal registers has. -/

namespace Sys2Proof.Machine

/-! ### RM and SPLS (43_rm.md R231, 48_spls.md R331) -/

/-- Settles O41. -/
theorem rmLoadAndStoreOutcome : Obligations.RmLoadAndStoreOutcome := by
  unfold Obligations.RmLoadAndStoreOutcome
  intro s rd rs1 p q k hpc hd h1 hq sum ea
  exact ⟨loadOutcome_of_finish hq hpc (s.loadConst_legal p _ _ hpc hd h1 hq),
    storeOutcome_of_finish hq (s.storeConst_legal p _ _ hpc hd h1 hq)⟩

/-- Settles O47: with legal registers the four forms are RM's with another constant and width; else one of the checks refuses them. -/
theorem splsOutcome : Obligations.SplsOutcome := by
  unfold Obligations.SplsOutcome
  intro s rd rs1 e p q k sum ea
  refine ⟨fun hpc hd h1 hq => ?legal, fun h => ?refused⟩
  case legal =>
    have load (t : LoadType) := s.loadConst_legal p (k.signExtend 32) t hpc hd h1 hq
    have store (t : StoreType) := s.storeConst_legal p (k.signExtend 32) t hpc hd h1 hq
    exact ⟨loadOutcome_of_finish hq hpc (load _), loadOutcome_of_finish hq hpc (load _), storeOutcome_of_finish hq (store .h),
      storeOutcome_of_finish hq (store .b)⟩
  case refused =>
    refine ⟨exec_refused_of_illFormed _ s ?_, exec_refused_of_illFormed _ s ?_, exec_refused_of_illFormed _ s ?_,
      exec_refused_of_illFormed _ s ?_⟩ <;>
    · rcases h with rfl | rfl | rfl | ⟨rfl, rfl⟩ <;>
        simp [Instr.rdAllowed, Instr.restrictedRd, Instr.avoidsIsr, Instr.regFields, Instr.baseAllowed, Instr.updatedBase]

/-! ### RRM (44_rrm.md R251, R254) -/

section
variable {i : Instr} {s : State} {op : AluOp} {rd rs1 rs2 : RegNum} {p q : Bool} {sum : Word} (hpc : rd ≠ pcReg) (hd : rd ≠ isrReg)
  (h1 : rs1 ≠ isrReg) (h2 : rs2 ≠ isrReg) (hq : q = true → rs1 ≠ pcReg)
  (hsum : p = true ∨ q = true → OpValue op (s.x rs1) (s.x rs2) s.flags.c sum)
include hpc hd h1 h2 hq hsum

/-- Where `P` or `Q` is set the address operation gives `sum`, and with `PQ` = 00 no sum is used. -/
theorem rrmLoad_outcome {t : LoadType} (h : exec i s = s.rrmLoad op rd rs1 rs2 p q t) :
    LoadOutcome i s rd rs1 q sum (effAddr p (s.x rs1) sum) t := by
  refine loadOutcome_of_finish hq hpc (h.trans ?_)
  rw [s.rrmLoad_legal op p t hpc hd h1 h2 hq]
  by_cases hpq : p = true ∨ q = true
  · rw [State.addrSum_of_value hpq (hsum hpq)]; rfl
  · obtain ⟨rfl, rfl⟩ : p = false ∧ q = false := by simpa using hpq
    rfl

theorem rrmStore_outcome {t : StoreType} (h : exec i s = s.rrmStore op rd rs1 rs2 p q t) :
    StoreOutcome i s rd rs1 q sum (effAddr p (s.x rs1) sum) t := by
  refine storeOutcome_of_finish hq (h.trans ?_)
  rw [s.rrmStore_legal op p t hpc hd h1 h2 hq]
  by_cases hpq : p = true ∨ q = true
  · rw [State.addrSum_of_value hpq (hsum hpq)]; rfl
  · obtain ⟨rfl, rfl⟩ : p = false ∧ q = false := by simpa using hpq
    rfl

end

/-- Settles O42. -/
theorem rrmLoadOutcome : Obligations.RrmLoadOutcome := by
  unfold Obligations.RrmLoadOutcome
  intro s rd rs1 rs2 p q t sum hpc hd h1 h2 hq ea adds
  have load {op : AluOp} {i : Instr} {t : LoadType} (h : exec i s = s.rrmLoad op rd rs1 rs2 p q t) (hsum : adds op) :=
    rrmLoad_outcome hpc hd h1 h2 hq hsum h
  exact ⟨load rfl, load rfl, load rfl, load rfl, load rfl, load rfl, load rfl, load rfl, load rfl⟩

/-- Settles O43. -/
theorem rrmStoreOutcome : Obligations.RrmStoreOutcome := by
  unfold Obligations.RrmStoreOutcome
  intro s rd rs1 rs2 p q t sum hpc hd h1 h2 hq ea adds
  have store {op : AluOp} {i : Instr} {t : StoreType} (h : exec i s = s.rrmStore op rd rs1 rs2 p q t) (hsum : adds op) :=
    rrmStore_outcome hpc hd h1 h2 hq hsum h
  exact ⟨store rfl, store rfl, store rfl, store rfl, store rfl, store rfl, store rfl, store rfl, store rfl⟩

/-! ### SLS (47_sls_sli.md R315 to R317) -/

theorem and_mask_eq_shift (x : Word) : x &&& 0xFFFFFFFC#32 = (x >>> 2) <<< 2 := by
  apply BitVec.eq_of_getLsbD_eq; intro i hi
  simp only [BitVec.getLsbD_and, BitVec.getLsbD_shiftLeft, BitVec.getLsbD_ushiftRight]
  interval_cases i <;> simp

/-- Dropping the two low bits is dividing by 4 and multiplying back. -/
theorem slsAddr_eq (addr : BitVec 21) : slsAddr addr = BitVec.ofNat 32 (addr.toNat / 4 * 4) := by
  have haddr := addr.isLt
  apply BitVec.eq_of_toNat_eq
  rw [slsAddr, and_mask_eq_shift, BitVec.toNat_shiftLeft, BitVec.toNat_ushiftRight, BitVec.toNat_setWidth, BitVec.toNat_ofNat,
    Nat.shiftRight_eq_div_pow, Nat.shiftLeft_eq]
  omega

/-- The word of an SLS instruction, whose store bit is bit 16. -/
theorem toNat_encConst_sls (rd : RegNum) (st : Bool) (addr : BitVec 21) :
    (encConst 15#4 rd (addr.extractLsb' 16 5) false st (addr.extractLsb' 0 16)).toNat
      = 0xF0000000 + st.toNat * 2 ^ 16 + rd.toNat * 2 ^ 23 + addr.toNat / 2 ^ 16 * 2 ^ 18 + addr.toNat % 2 ^ 16 := by
  have haddr := addr.isLt
  simp only [encConst, toNat_append_add, BitVec.extractLsb'_toNat]
  simp
  omega

/-- An address that is a multiple of 4 has its two ignored bits 0. -/
theorem sls_unusedZero {addr : BitVec 21} (h : addr.toNat % 4 = 0) : addr.extractLsb' 0 2 = 0#2 := by
  apply BitVec.eq_of_toNat_eq
  simpa [BitVec.extractLsb'_toNat] using h

/-- Without a base update the outcome of a load does not depend on a sum. -/
theorem LoadOutcome.of_no_base {i : Instr} {s : State} {rd rs1 : RegNum} {sum ea : Word} {t : LoadType}
    (h : LoadOutcome i s rd rs1 false sum ea t) (sum' : Word) : LoadOutcome i s rd rs1 false sum' ea t := by
  obtain ⟨hmis, hmap, hun, hdat⟩ := h
  refine ⟨hmis, hmap, hun, fun v ha hm hv => ?_⟩
  obtain ⟨hcoll, hconst, hnext⟩ := hdat v ha hm hv
  refine ⟨hcoll, fun hp hc => hconst hp (hc.imp_left fun hb => absurd hb.1 Bool.false_ne_true), fun hp _ hc => ?_⟩
  obtain ⟨u, hu, hadv, hmem, hlate, -, hothers, hseq, hflags, hdraws⟩ := hnext hp nofun hc
  exact ⟨u, hu, hadv, hmem, hlate, nofun, hothers, hseq, hflags, hdraws⟩

/-- Without a base update the outcome of a store does not depend on a sum. -/
theorem StoreOutcome.of_no_base {i : Instr} {s : State} {rd rs1 : RegNum} {sum ea : Word} {t : StoreType}
    (h : StoreOutcome i s rd rs1 false sum ea t) (sum' : Word) : StoreOutcome i s rd rs1 false sum' ea t := by
  obtain ⟨hmis, hmap, hok⟩ := h
  refine ⟨hmis, hmap, fun ha hm => ?_⟩
  obtain ⟨hcoll, -, hnext⟩ := hok ha hm
  refine ⟨hcoll, nofun, fun _ => ?_⟩
  obtain ⟨u, hu, hadv, hmem, hlate, -, hothers, hseq, hflags, hdraws⟩ := hnext nofun
  exact ⟨u, hu, hadv, hmem, hlate, nofun, hothers, hseq, hflags, hdraws⟩

/-- Settles O44: LD_SLS is a load whose effective address is the 21-bit one and which updates no base. -/
theorem ldSlsOutcome : Obligations.LdSlsOutcome := by
  unfold Obligations.LdSlsOutcome
  intro s rd addr
  refine ⟨fun ha => ?word, fun h => ?refused, fun hpc hd sum => ?outcome⟩
  case word =>
    rw [encode, Instr.clean_of_unusedZero (by simp [Instr.unusedZero, sls_unusedZero ha])]
    exact toNat_encConst_sls rd false addr
  case refused =>
    simp only [exec, execLdSls]
    rw [allowRd_refuses h]
    rfl
  case outcome =>
    rw [← slsAddr_eq]
    refine LoadOutcome.of_no_base (loadOutcome_of_finish (p := true) (q := false) (sum := slsAddr addr) nofun hpc ?_) sum
    simp only [exec, execLdSls]
    rw [allowRd_ok hpc hd]
    rfl

/-- Settles O45. -/
theorem stSlsOutcome : Obligations.StSlsOutcome := by
  unfold Obligations.StSlsOutcome
  intro s rd addr
  refine ⟨fun ha => ?word, fun h => ?refused, fun hpc hd sum => ?outcome⟩
  case word =>
    rw [encode, Instr.clean_of_unusedZero (by simp [Instr.unusedZero, sls_unusedZero ha])]
    exact toNat_encConst_sls rd true addr
  case refused =>
    simp only [exec, execStSls]
    rw [allowRd_refuses h]
    rfl
  case outcome =>
    rw [← slsAddr_eq]
    refine StoreOutcome.of_no_base (storeOutcome_of_finish (p := true) (q := false) (sum := slsAddr addr) nofun ?_) sum
    simp only [exec, execStSls]
    rw [allowRd_ok hpc hd]
    rfl

/-! ### SLI (47_sls_sli.md R320, D28, log 11) -/

theorem exec_sli_legal {s : State} {rd : RegNum} (k : BitVec 21) (hd : rd ≠ isrReg) (hp : rd = pcReg → s.cfg.sliPc = .follow) :
    exec (.sli rd k) s = s.commit { late := some ⟨rd, BitVec.ofNat 32 k.toNat⟩ } := by
  have hpolicy : (!(rd == pcReg && s.cfg.sliPc == .refuse)) = true := by
    by_cases h : rd = pcReg
    · simp [hp h]
    · simp [h]
  simp only [exec, execSli]
  rw [allowRegs_ok (by simpa using hd), hpolicy, BitVec.ofNat_toNat]
  rfl

/-- A late write alone that no parameter bars. -/
theorem State.lands_late {s : State} {r : RegNum} {v : Word} (hpc : r = pcReg → v.toNat % 4 = 0 ∧ ¬ s.jumpBarred)
    (hc : ¬ s.constBarred r v) : s.Lands { late := some ⟨r, v⟩ } :=
  ⟨collide_none _, rfl, (pcAligned_some r v).2 fun h => (hpc h).1, s.barsJump_none, barsJump_false fun h => (hpc h).2,
    s.barsConst_none, barsConst_false hc⟩

/-- The next state of a late write alone: that of a load without a base update. -/
theorem State.advance_late_next (s : State) (r : RegNum) (v sum : Word) :
    LoadNext s (s.advance { late := some ⟨r, v⟩ }) r r false sum v := by
  obtain ⟨-, hothers, hseq⟩ := s.advance_base (e := { late := some ⟨r, v⟩ }) (q := false) (rs1 := r) (sum := sum) nofun rfl
  exact ⟨s.advance_advances _, s.advance_memorySame rfl, rfl, nofun, hothers, hseq, rfl, rfl⟩

/-- Settles O46: SLI commits one late write; for register 2 that write is pending when the first shadow completes, which lands it as the
fetch address after the second. -/
theorem sliOutcome : Obligations.SliOutcome := by
  unfold Obligations.SliOutcome
  intro s rd k v
  have hv : v.toNat % 4 = k.toNat % 4 := by
    have hk := k.isLt
    rw [show v.toNat = k.toNat % 2 ^ 32 from BitVec.toNat_ofNat _ _]
    omega
  have aligned (h : k.toNat % 4 = 0) : pcAligned (some ⟨rd, v⟩) = true := (pcAligned_some rd v).2 fun _ => hv.trans h
  have pcLegal : (pcReg : RegNum) ≠ isrReg := by decide
  refine ⟨fun h => ?isr, fun h hp => ?policy, fun h hp hk => ?misaligned, fun h hp hk hj => ?shadow, fun hd hc => ?constant,
    fun hd hpc hc => ?next⟩
  case isr =>
    subst h
    rfl
  case policy =>
    subst h
    simp only [exec, execSli, hp]
    rfl
  case misaligned =>
    subst h
    rw [exec_sli_legal k pcLegal fun _ => hp]
    refine State.commit_misaligned (collide_none _) (.inr ?_)
    rw [← Bool.not_eq_true, pcAligned_some]
    exact fun ha => hk (hv ▸ ha rfl)
  case shadow =>
    subst h
    rw [exec_sli_legal k pcLegal fun _ => hp]
    exact State.commit_shadowJump (collide_none _) rfl (aligned hk) (.inr ((s.barsJump_some _ _).2 ⟨rfl, hj⟩))
  case constant =>
    have hne := State.constBarred_ne_pc hc
    rw [exec_sli_legal k hd fun h => absurd h hne]
    exact State.commit_constant (collide_none _) rfl ((pcAligned_some _ _).2 fun h => absurd h hne) s.barsJump_none
      (State.barsJump_false fun h => absurd h hne) (.inr ((s.barsConst_some rd v).2 hc))
  case next =>
    have hx := exec_sli_legal k hd fun h => (hpc h).1
    have hland : s.Lands { late := some ⟨rd, v⟩ } :=
      State.lands_late (fun h => ⟨hv.trans (hpc h).2.1, (hpc h).2.2⟩) hc
    refine ⟨_, hx.trans (State.commit_lands hland), s.advance_late_next rd v _, fun h j u hj => ?_⟩
    exact ⟨(onlyJumpsRedirectFetch j _ u hj).1, (exec_late_lands hj rfl).2 h⟩

end Sys2Proof.Machine
end

section
/-! Runs (60_exceptions.md R369, the spec's decision D35): a run ends in the first state that is over, and the loop that the programs of
95_test_vectors.md end in. -/

namespace Sys2Proof.Machine

/-! ### The first state that is over -/

/-- `m` steps lead from `s` to `r`, which is over after `n + m` steps, and no state before it is. -/
def FirstOver (n m : Nat) (s r : State) : Prop :=
  Steps m s r ∧ r.over (n + m) = true ∧ ∀ m' < m, ∀ q, Steps m' s q → q.over (n + m') = false

theorem firstOver_zero_iff {n : Nat} {s r : State} : FirstOver n 0 s r ↔ r = s ∧ s.over n = true := by
  constructor
  · rintro ⟨rfl, hover, -⟩; exact ⟨rfl, hover⟩
  · rintro ⟨rfl, hover⟩; exact ⟨rfl, hover, nofun⟩

/-- A state that is over is the first one, so nothing is over later. -/
theorem FirstOver.eq_zero {n m : Nat} {s r : State} (h : FirstOver n m s r) (hover : s.over n = true) : m = 0 := by
  obtain ⟨-, -, hfirst⟩ := h
  by_contra hm
  have hnot := hfirst 0 (Nat.pos_of_ne_zero hm) s rfl
  rw [Nat.add_zero, hover] at hnot
  cases hnot

theorem firstOver_succ_iff {n m : Nat} {s t r : State} (hover : s.over n = false) (hstep : step s = .next t) :
    FirstOver n (m + 1) s r ↔ FirstOver (n + 1) m t r := by
  have steps {k : Nat} {q : State} : Steps (k + 1) s q ↔ Steps k t q := by
    constructor
    · rintro ⟨u, hu, h⟩
      rw [hstep] at hu; cases hu
      exact h
    · exact fun h => ⟨t, hstep, h⟩
  have shift (k : Nat) : n + (k + 1) = n + 1 + k := by omega
  unfold FirstOver
  rw [steps, shift m]
  refine and_congr_right fun _ => and_congr_right fun _ => ⟨fun h k hk q hq => ?_, fun h k hk q hq => ?_⟩
  · rw [← shift k]; exact h (k + 1) (by omega) q (steps.2 hq)
  · cases k with
    | zero => cases hq; exact hover
    | succ k => rw [shift k]; exact h k (by omega) q (steps.1 hq)

/-- A run ends exactly in the first state that is over, if its fuel reaches that far. -/
theorem State.runFrom_eq_ended {fuel n : Nat} {s r : State} : s.runFrom fuel n = .ended r ↔ ∃ m ≤ fuel, FirstOver n m s r := by
  induction fuel generalizing n s with
  | zero =>
    simp only [Nat.le_zero, exists_eq_left, firstOver_zero_iff]
    cases hover : s.over n with
    | true => simp [runFrom_over hover, eq_comm]
    | false => simp [runFrom_zero hover]
  | succ fuel ih =>
    cases hover : s.over n with
    | true =>
      rw [runFrom_over hover, RunResult.ended.injEq]
      constructor
      · rintro rfl; exact ⟨0, Nat.zero_le _, firstOver_zero_iff.2 ⟨rfl, hover⟩⟩
      · rintro ⟨m, -, h⟩
        obtain rfl := h.eq_zero hover
        exact (firstOver_zero_iff.1 h).1.symm
    | false =>
      have later {m : Nat} (h : FirstOver n m s r) : ∃ k, m = k + 1 := by
        refine Nat.exists_eq_succ_of_ne_zero fun hm => ?_
        subst hm
        rw [(firstOver_zero_iff.1 h).2] at hover
        cases hover
      rw [runFrom_succ hover]
      split
      case h_1 t hstep =>
        rw [ih]
        constructor
        · rintro ⟨m, hm, h⟩; exact ⟨m + 1, by omega, (firstOver_succ_iff hover hstep).2 h⟩
        · rintro ⟨m, hm, h⟩
          obtain ⟨k, rfl⟩ := later h
          exact ⟨k, by omega, (firstOver_succ_iff hover hstep).1 h⟩
      case h_2 hstep | h_3 hstep =>
        simp only [reduceCtorEq, false_iff]
        rintro ⟨m, -, h⟩
        obtain ⟨k, rfl⟩ := later h
        obtain ⟨⟨u, hu, -⟩, -⟩ := h
        rw [hstep] at hu
        cases hu

/-! ### The three ways a launch can name an end (R369, log 31) -/

theorem Steps.over_steps {m n k : Nat} {s r : State} (h : Steps m s r) (hend : s.cfg.endOfRun = some (.steps k)) :
    r.over n = true ↔ k = n := by
  simp [State.over, h.cfg, hend]

theorem Steps.over_fetch {m n : Nat} {a : Word} {s r : State} (h : Steps m s r) (hend : s.cfg.endOfRun = some (.fetch a)) :
    r.over n = true ↔ r.fa0 = a := by
  simp [State.over, h.cfg, hend]

theorem Steps.over_none {m n : Nat} {s r : State} (h : Steps m s r) (hend : s.cfg.endOfRun = none) : r.over n = false := by
  simp [State.over, h.cfg, hend]

theorem firstOver_steps_iff {m k : Nat} {s r : State} (hend : s.cfg.endOfRun = some (.steps k)) :
    FirstOver 0 m s r ↔ m = k ∧ Steps k s r := by
  constructor
  · rintro ⟨h, hover, -⟩
    obtain rfl : k = 0 + m := (h.over_steps hend).1 hover
    rw [Nat.zero_add]
    exact ⟨rfl, h⟩
  · rintro ⟨rfl, h⟩
    refine ⟨h, (h.over_steps hend).2 (Nat.zero_add m).symm, fun m' hm' q hq => ?_⟩
    rw [← Bool.not_eq_true, hq.over_steps hend]
    omega

theorem firstOver_fetch_iff {m : Nat} {a : Word} {s r : State} (hend : s.cfg.endOfRun = some (.fetch a)) :
    FirstOver 0 m s r ↔ Steps m s r ∧ r.fa0 = a ∧ ∀ m' < m, ∀ q, Steps m' s q → q.fa0 ≠ a := by
  refine and_congr_right fun h => and_congr (h.over_fetch hend) (forall₄_congr fun m' _ q hq => ?_)
  rw [← Bool.not_eq_true, hq.over_fetch hend]

/-- Settles O59. -/
theorem runsEndWhereTheLaunchSays : Obligations.RunsEndWhereTheLaunchSays := by
  unfold Obligations.RunsEndWhereTheLaunchSays
  intro s r fuel
  refine ⟨fun k hend => ?steps, fun a hend => ?fetch, fun hend => ?never⟩
  case steps =>
    rw [State.runFrom_eq_ended]
    simp only [firstOver_steps_iff hend]
    constructor
    · rintro ⟨m, hm, rfl, h⟩; exact ⟨hm, h⟩
    · rintro ⟨hk, h⟩; exact ⟨k, hk, rfl, h⟩
  case fetch =>
    rw [State.runFrom_eq_ended]
    simp only [firstOver_fetch_iff hend]
  case never =>
    rw [ne_eq, State.runFrom_eq_ended]
    rintro ⟨m, -, h, hover, -⟩
    rw [h.over_none hend] at hover
    cases hover

/-! ### The loop of a branch to itself (R369, 45_br.md R294, 30_encoding.md R121) -/

/-- The word whose bytes lie at `fa0` is fetched and runs. -/
theorem step_of_bytes {s : State} {w : Word} {i : Instr} (hst : s.store1 = none ∧ s.store2 = none) (ha : s.fa0.toNat % 4 = 0)
    (hm : s.mapped s.fa0 4) (hb : s.holds s.fa0 (splitWord s.cfg.endian w)) (hd : decodeWord w = .ok i) : step s = exec i s := by
  have hclear : s.storedRecently s.fa0 = false := by simp [State.storedRecently, hst]
  refine step_of_fetch ((State.fetch_of_not_storedRecently hclear).trans ?_) hd
  rw [splitWord_eq_layout] at hb
  exact State.memLoad_datum (t := .w) ha hm (State.datum_of_holds_layout (ty := .w) rfl hb)

@[simp] theorem splitWord_length (e : Endian) (w : Word) : (splitWord e w).length = 4 := by cases e <;> rfl

theorem State.holds_append_left {s : State} {ea : Word} {bs bs' : List Byte} (h : s.holds ea (bs ++ bs')) : s.holds ea bs := by
  intro i hi
  rw [h i (by rw [List.length_append]; omega), List.getElem_append_left hi]

theorem State.holds_append_right {s : State} {ea : Word} {bs bs' : List Byte} {n : Nat} (h : s.holds ea (bs ++ bs'))
    (hn : bs.length = n) (hwrap : (ea + BitVec.ofNat 32 n).toNat = ea.toNat + n) : s.holds (ea + BitVec.ofNat 32 n) bs' := by
  intro i hi
  rw [hwrap, Nat.add_assoc, h (n + i) (by rw [List.length_append]; omega), List.getElem_append_right (by omega)]
  simp [← hn]

/-- What makes a loop of the two instructions at `fa0`. -/
structure LoopsAt (s : State) (k : BitVec 23) : Prop where
  here : s.fa0.toNat = 4 * k.toNat
  sequence : s.fa1 = s.fa0 + 4#32
  noLate : s.late = none
  noStore1 : s.store1 = none
  noStore2 : s.store2 = none
  mapped : s.mapped s.fa0 8
  bytes : s.holds s.fa0 (splitWord s.cfg.endian (encode (.brAbs .t k)) ++ [0, 0, 0, 0])

/-- The state in the shadow of the branch. -/
def State.inShadow (s : State) : State := s.advance { write := some ⟨pcReg, s.fa0⟩ }

theorem State.eq_of_fields {s t : State} (regs : s.regs = t.regs) (flags : s.flags = t.flags) (ctx : s.ctx = t.ctx)
    (fa0 : s.fa0 = t.fa0) (fa1 : s.fa1 = t.fa1) (late : s.late = t.late) (store1 : s.store1 = t.store1) (store2 : s.store2 = t.store2)
    (mem : s.mem = t.mem) (draws : s.draws = t.draws) (cfg : s.cfg = t.cfg) : s = t := by
  cases s; cases t
  simp_all

section
variable {s : State} {k : BitVec 23} (h : LoopsAt s k)
include h

theorem LoopsAt.target : absTarget k = s.fa0 := by
  rw [absTarget_eq, ← h.here, BitVec.ofNat_toNat, BitVec.setWidth_eq]

theorem LoopsAt.next_toNat : (s.fa0 + 4#32).toNat = s.fa0.toNat + 4 := by
  have hk := k.isLt
  have here := h.here
  rw [BitVec.toNat_add, BitVec.toNat_ofNat]
  omega

theorem LoopsAt.step_branch : step s = .next s.inShadow := by
  have here := h.here
  have hstep : step s = exec (.brAbs .t k) s :=
    step_of_bytes ⟨h.noStore1, h.noStore2⟩ (by omega) (fun i hi => h.mapped i (by omega)) (State.holds_append_left h.bytes)
      (decodeOfEncodeIsTheInstruction.2 (.brAbs .t k))
  have hexec : exec (.brAbs .t k) s = s.commit { write := some ⟨pcReg, s.fa0⟩ } := by rw [← h.target]; rfl
  have hnotBarred : ¬ s.jumpBarred := fun hj => hj.2 h.sequence
  have hfree : ¬ s.pending pcReg := by rintro ⟨w, hw, -⟩; rw [h.noLate] at hw; cases hw
  rw [hstep, hexec]
  refine State.commit_lands ⟨collide_false hfree, (pcAligned_some _ _).2 fun _ => by omega, rfl, State.barsJump_false fun _ => hnotBarred,
    s.barsJump_none, State.barsConst_false fun hc => State.constBarred_ne_pc hc rfl, s.barsConst_none⟩

theorem LoopsAt.step_nop : step s.inShadow = .next (s.inShadow.advance { write := some ⟨0, s.inShadow.x 0⟩ }) := by
  have here := h.here
  have hnext := h.next_toNat
  have hfa0 : s.inShadow.fa0 = s.fa0 + 4#32 := h.sequence
  have hstep : step s.inShadow = exec (.addRi 0 0 false false 0#16) s.inShadow := by
    refine step_of_bytes (w := 0#32) ⟨rfl, h.noStore1⟩ ?_ ?_ ?_ rfl
    · rw [hfa0]; omega
    · intro i hi
      rw [hfa0, hnext, Nat.add_assoc]
      exact h.mapped (4 + i) (by omega)
    · rw [hfa0]
      have hzero : splitWord s.inShadow.cfg.endian 0#32 = [0, 0, 0, 0] := by cases s.inShadow.cfg.endian <;> rfl
      rw [hzero]
      exact State.holds_append_right h.bytes (splitWord_length _ _) hnext
  have hexec : exec (.addRi 0 0 false false 0#16) s.inShadow = s.inShadow.commit { write := some ⟨0, s.inShadow.x 0⟩ } := by
    rw [exec_addRi, State.ri_legal _ _ _ _ (by decide) (by decide), State.aluEffect_add, show riConst false 0#16 = 0#32 from rfl,
      BitVec.add_zero]
    rfl
  have hne : (0 : RegNum) ≠ pcReg := by decide
  have hfree : ¬ s.inShadow.pending 0 := by rintro ⟨w, hw, -⟩; cases hw
  rw [hstep, hexec]
  exact State.commit_lands ⟨collide_false hfree, (pcAligned_some _ _).2 fun h => absurd h hne, rfl, State.barsJump_false fun h => absurd h hne,
    State.barsJump_none _, State.barsConst_false (State.not_constBarred_x _ 0), State.barsConst_none _⟩

/-- The branch jumps back to where it stands and the no-op writes back what it read. -/
theorem LoopsAt.nop_returns : s.inShadow.advance { write := some ⟨0, s.inShadow.x 0⟩ } = s := by
  have hne : (0 : RegNum) ≠ pcReg := by decide
  have hregs : s.inShadow.regs = s.regs := by simp [State.inShadow, h.noLate, writeReg?, writeReg]
  have hx : s.inShadow.x 0 = s.regs[slot 0] := by rw [State.x_of_ne _ hne, State.reg, hregs]
  have hback : writeReg s.regs ⟨0, s.regs[slot 0]⟩ = s.regs := by simp [writeReg]
  apply State.eq_of_fields
  case regs => rw [State.advance_regs, hx]; exact hregs.symm ▸ hback
  case fa1 => exact h.sequence.symm
  case late => exact h.noLate.symm
  case store1 => exact h.noStore1.symm
  case store2 => exact h.noStore2.symm
  all_goals rfl

theorem LoopsAt.twice : Steps 2 s s :=
  ⟨_, h.step_branch, _, h.step_nop, h.nop_returns.symm⟩

end

/-- Settles O60. -/
theorem selfBranchLoopStaysPut : Obligations.SelfBranchLoopStaysPut := by
  unfold Obligations.SelfBranchLoopStaysPut
  intro s k here sequence noLate noStore1 noStore2 mapped bytes n
  have h : LoopsAt s k := ⟨here, sequence, noLate, noStore1, noStore2, mapped, bytes⟩
  induction n with
  | zero => rfl
  | succ n ih => exact ih.append h.twice

end Sys2Proof.Machine
end
